-- ==== Sys2Proof/Word.lean ====
section
/-! DEFINITION. The word types of the FCC, and the names of its three errors.

A *bit sequence* is a list of bits, first bit first (00_scope.md R7). The two ports carry ordinary binary words,
whose bit 0 is the least significant (R10). -/

namespace Sys2Proof

/-- A bit sequence: element 0 is the first bit (R7). -/
abbrev Bits := List Bool

/-- A byte of the character buffer and of the immediate operands, 0 to 255 (R9, R94). -/
abbrev Byte := BitVec 8

/-- One word of the command port (R90). -/
abbrev CmdWord := BitVec 16

/-- One address of the read port (R67). -/
abbrev ReadAddr := BitVec 16

/-- One word returned by the read port (R67). -/
abbrev ReadData := BitVec 32

/-- The three errors the core raises, and no others (60_exceptions.md R260). -/
inductive CoreError where
  /-- Raised by a long command whose key has the wrong length (R261). -/
  | invalidKey
  /-- Raised by the decoder for a word outside the opcode map (R262). -/
  | illegalCommand
  /-- Raised by a push, or by `ENCODE`, that does not fit its buffer (R263). -/
  | bufferOverflow
  deriving DecidableEq, Repr

end Sys2Proof
end

