-- ==== Sys2Proof/Syntax.lean ====
section
/-! DEFINITION. The commands of FCC-CMD16 version 1, one constructor per row of spec/opcode_table.json
(00_scope.md R13, 30_encoding.md R93). Operands have exactly the widths R94 gives them. -/

namespace Sys2Proof

/-- One command (R93). -/
inductive Instr where
  /-- `NOP` (R241). -/
  | nop
  /-- `CLR m`: the mask `m = cw[5:0]`, bits `K C I O F S` from bit 0 (R94, R242). -/
  | clr (m : BitVec 6)
  /-- `KPUSH b`: the byte `b = cw[7:0]` (R243). -/
  | kpush (b : Byte)
  /-- `CPUSH b`: the byte `b = cw[7:0]` (R244). -/
  | cpush (b : Byte)
  /-- `BPUSH v`: the bit `v = cw[0]` (R245). -/
  | bpush (v : BitVec 1)
  /-- `ENCODE` (R191). -/
  | encode
  /-- `MOVO` (R246). -/
  | movo
  /-- `KEYGEN.S` (R158). -/
  | keygenS
  /-- `KEYGEN.T` (R158). -/
  | keygenT
  /-- `ENC` (R201). -/
  | enc
  /-- `TENC` (R235). -/
  | tenc
  /-- `DEC` (R201). -/
  | dec
  /-- `TDEC` (R235). -/
  | tdec
  deriving DecidableEq, Repr

end Sys2Proof
end

