-- ==== Sys2Proof/WellFormed.lean ====
section
/-! DEFINITION. Well-formedness of what a programmer writes (30_encoding.md R94, R97).

A term of `Instr` holds its operands at exactly the widths of R94, so every term of it is a command: there is nothing
left to check of an `Instr`. What can be ill-formed is an assembler line, whose operand is a number of any size (R97).
A line that passes `AsmLine.wf` assembles to one command. -/

namespace Sys2Proof

/-- The letters a `CLR` mask may be written with (R97), in the order of the mask's bits (R94). -/
inductive ClrLetter where
  | K | C | I | O | F | S
  deriving DecidableEq, Repr

/-- One line of the assembler (R97): a mnemonic with at most one operand, a number as written. `CRYPT.S.F`, `CRYPT.T.F`,
`CRYPT.S.R` and `CRYPT.T.R` are other spellings of `ENC`, `TENC`, `DEC` and `TDEC` and need no constructor. -/
inductive AsmLine where
  | nop
  /-- `CLR n`, the mask as a number. -/
  | clr (n : Nat)
  /-- `CLR K|I|O`, the mask as letters. -/
  | clrLetters (ls : List ClrLetter)
  /-- `CLR ALL`. -/
  | clrAll
  | kpush (n : Nat)
  | cpush (n : Nat)
  | bpush (n : Nat)
  | encode
  | movo
  | keygenS
  | keygenT
  | enc
  | tenc
  | dec
  | tdec
  deriving DecidableEq, Repr

/-- The ranges of R97: a byte is 0 to 255, a bit 0 or 1, a mask 0 to 63 or at least one letter. -/
def AsmLine.wf : AsmLine → Bool
  | .clr n => decide (n < 64)
  | .clrLetters ls => !ls.isEmpty
  | .kpush n => decide (n < 256)
  | .cpush n => decide (n < 256)
  | .bpush n => decide (n < 2)
  | .nop | .clrAll | .encode | .movo | .keygenS | .keygenT | .enc | .tenc | .dec | .tdec => true

/-- Well-formedness of a command: its types carry every range of R94. -/
def Instr.wf : Instr → Bool
  | .nop | .clr _ | .kpush _ | .cpush _ | .bpush _ | .encode | .movo | .keygenS | .keygenT | .enc | .tenc | .dec
  | .tdec => true

end Sys2Proof
end

