-- ==== Sys2Proof/Decode.lean ====
section
/-! DEFINITION. Decoder, encoder, opcode map and assembler of FCC-CMD16 version 1 (30_encoding.md R90 to R98).

A command word is a 16-bit number; there is no instruction fetch and no byte order (20_memory.md R61). -/

namespace Sys2Proof

/-- `op = cw[15:12]` (R91). -/
def fieldOp (cw : CmdWord) : BitVec 4 := cw.extractLsb' 12 4

/-- `sub = cw[11:8]` (R91). -/
def fieldSub (cw : CmdWord) : BitVec 4 := cw.extractLsb' 8 4

/-- `imm = cw[7:0]` (R91). -/
def fieldImm (cw : CmdWord) : BitVec 8 := cw.extractLsb' 0 8

/-- Why a word is illegal, in the order of R95's list. -/
inductive IllegalWord where
  /-- `op` in 7, 0xA to 0xF. -/
  | reservedOpcode
  /-- `sub` holds a value the opcode does not allow. -/
  | reservedSub
  /-- `imm` holds a bit the opcode does not allow. -/
  | reservedImm
  deriving DecidableEq, Repr

/-- What the decoder answers: `Command | Illegal` (R96). -/
inductive Decoded where
  /-- The word is this command. -/
  | command (i : Instr)
  /-- The word matches no row of the opcode map. -/
  | illegal (why : IllegalWord)
  deriving DecidableEq, Repr

/-- The name of an illegal word's fault (R95). -/
def illegalReason (cw : CmdWord) : IllegalWord :=
  let op := fieldOp cw
  let sub := fieldSub cw
  if op = 0x7#4 ∨ 0xA#4 ≤ op then .reservedOpcode
  else if op = 0x8#4 then (if sub.extractLsb' 1 3 = 0#3 then .reservedImm else .reservedSub)
  else if op = 0x9#4 then (if sub.extractLsb' 2 2 = 0#2 then .reservedImm else .reservedSub)
  else if sub = 0#4 then .reservedImm
  else .reservedSub

/-- `CRYPT(T = sub[0], D = sub[1])` (R96). -/
def cryptOf (t d : Bool) : Instr :=
  match t, d with
  | false, false => .enc
  | true, false => .tenc
  | false, true => .dec
  | true, true => .tdec

/-- `decode(cw)` (R96): a total function with no state and no mode. -/
def decode (cw : CmdWord) : Decoded :=
  let op := fieldOp cw
  let sub := fieldSub cw
  let imm := fieldImm cw
  if op = 0x0#4 ∧ sub = 0#4 ∧ imm = 0#8 then .command .nop
  else if op = 0x1#4 ∧ sub = 0#4 ∧ imm.extractLsb' 6 2 = 0#2 then .command (.clr (imm.extractLsb' 0 6))
  else if op = 0x2#4 ∧ sub = 0#4 then .command (.kpush imm)
  else if op = 0x3#4 ∧ sub = 0#4 then .command (.cpush imm)
  else if op = 0x4#4 ∧ sub = 0#4 ∧ imm.extractLsb' 1 7 = 0#7 then .command (.bpush (imm.extractLsb' 0 1))
  else if op = 0x5#4 ∧ sub = 0#4 ∧ imm = 0#8 then .command .encode
  else if op = 0x6#4 ∧ sub = 0#4 ∧ imm = 0#8 then .command .movo
  else if op = 0x8#4 ∧ sub.extractLsb' 1 3 = 0#3 ∧ imm = 0#8 then
    .command (if sub.getLsbD 0 then .keygenT else .keygenS)
  else if op = 0x9#4 ∧ sub.extractLsb' 2 2 = 0#2 ∧ imm = 0#8 then
    .command (cryptOf (sub.getLsbD 0) (sub.getLsbD 1))
  else .illegal (illegalReason cw)

/-- The one word of a command (R92, R93), from its three fields. -/
def encode : Instr → CmdWord
  | .nop => 0x0#4 ++ 0#4 ++ 0#8
  | .clr m => 0x1#4 ++ 0#4 ++ (0#2 ++ m)
  | .kpush b => 0x2#4 ++ 0#4 ++ b
  | .cpush b => 0x3#4 ++ 0#4 ++ b
  | .bpush v => 0x4#4 ++ 0#4 ++ (0#7 ++ v)
  | .encode => 0x5#4 ++ 0#4 ++ 0#8
  | .movo => 0x6#4 ++ 0#4 ++ 0#8
  | .keygenS => 0x8#4 ++ 0b0000#4 ++ 0#8
  | .keygenT => 0x8#4 ++ 0b0001#4 ++ 0#8
  | .enc => 0x9#4 ++ 0b0000#4 ++ 0#8
  | .tenc => 0x9#4 ++ 0b0001#4 ++ 0#8
  | .dec => 0x9#4 ++ 0b0010#4 ++ 0#8
  | .tdec => 0x9#4 ++ 0b0011#4 ++ 0#8

/-! ## The opcode map as data (R93) -/

/-- One row of the opcode map: a word `cw` selects it exactly when `cw AND mask = pattern`. -/
structure OpcodeRow where
  /-- The row's name. -/
  mnemonic : String
  /-- The fixed bits' values (the column `match` of R93). -/
  pattern : CmdWord
  /-- The fixed bits (the column `mask` of R93). -/
  mask : CmdWord
  deriving DecidableEq, Repr

/-- The thirteen rows (R93). -/
def opcodeMap : List OpcodeRow :=
  [⟨"NOP", 0x0000#16, 0xFFFF#16⟩, ⟨"CLR", 0x1000#16, 0xFFC0#16⟩, ⟨"KPUSH", 0x2000#16, 0xFF00#16⟩,
   ⟨"CPUSH", 0x3000#16, 0xFF00#16⟩, ⟨"BPUSH", 0x4000#16, 0xFFFE#16⟩, ⟨"ENCODE", 0x5000#16, 0xFFFF#16⟩,
   ⟨"MOVO", 0x6000#16, 0xFFFF#16⟩, ⟨"KEYGEN.S", 0x8000#16, 0xFFFF#16⟩, ⟨"KEYGEN.T", 0x8100#16, 0xFFFF#16⟩,
   ⟨"ENC", 0x9000#16, 0xFFFF#16⟩, ⟨"TENC", 0x9100#16, 0xFFFF#16⟩, ⟨"DEC", 0x9200#16, 0xFFFF#16⟩,
   ⟨"TDEC", 0x9300#16, 0xFFFF#16⟩]

/-- The word selects the row (R93). -/
def OpcodeRow.selects (row : OpcodeRow) (cw : CmdWord) : Bool := cw &&& row.mask == row.pattern

/-- A command's name in the opcode map. -/
def mnemonicOf : Instr → String
  | .nop => "NOP"
  | .clr _ => "CLR"
  | .kpush _ => "KPUSH"
  | .cpush _ => "CPUSH"
  | .bpush _ => "BPUSH"
  | .encode => "ENCODE"
  | .movo => "MOVO"
  | .keygenS => "KEYGEN.S"
  | .keygenT => "KEYGEN.T"
  | .enc => "ENC"
  | .tenc => "TENC"
  | .dec => "DEC"
  | .tdec => "TDEC"

/-- The command of an opcode-table word of `nbits` bits, the bits above them zero. -/
def decodeTableWord (nbits w : Nat) : Option Instr :=
  match decode (BitVec.ofNat 16 (w % 2 ^ nbits)) with
  | .command i => some i
  | .illegal _ => none

/-! ## The assembler (R97, R98) -/

/-- The mask bit a letter stands for (R94). -/
def letterMask : ClrLetter → BitVec 6
  | .K => 0b000001#6
  | .C => 0b000010#6
  | .I => 0b000100#6
  | .O => 0b001000#6
  | .F => 0b010000#6
  | .S => 0b100000#6

/-- The command of a line with a legal operand (R97). -/
def lineCommand : AsmLine → Instr
  | .nop => .nop
  | .clr n => .clr (BitVec.ofNat 6 n)
  | .clrLetters ls => .clr (ls.foldl (fun m l => m ||| letterMask l) 0#6)
  | .clrAll => .clr 0x3F#6
  | .kpush n => .kpush (BitVec.ofNat 8 n)
  | .cpush n => .cpush (BitVec.ofNat 8 n)
  | .bpush n => .bpush (BitVec.ofNat 1 n)
  | .encode => .encode
  | .movo => .movo
  | .keygenS => .keygenS
  | .keygenT => .keygenT
  | .enc => .enc
  | .tenc => .tenc
  | .dec => .dec
  | .tdec => .tdec

/-- A line assembles exactly when its operand is in range (R97). -/
def assemble (line : AsmLine) : Option Instr := if line.wf then some (lineCommand line) else none

/-- The pseudo-instructions (R98). Their strings are bytes (00_scope.md R4(e)). -/
inductive Pseudo where
  /-- `KEY "c1...cn"`. -/
  | key (cs : List Byte)
  /-- `TEXT "c1...cn"`. -/
  | text (cs : List Byte)
  /-- `BITS "v1...vn"`. -/
  | bits (vs : List (BitVec 1))
  /-- `PROCESS.F`. -/
  | processF
  /-- `PROCESS.R`. -/
  | processR
  /-- `TPROCESS.F`. -/
  | tprocessF
  /-- `TPROCESS.R`. -/
  | tprocessR
  /-- `NEWMSG`. -/
  | newmsg
  /-- `NEWKEY`. -/
  | newkey
  deriving DecidableEq, Repr

/-- The expansion of a pseudo-instruction (R98). -/
def expandPseudo : Pseudo → List Instr
  | .key cs => cs.map .kpush
  | .text cs => cs.map .cpush
  | .bits vs => vs.map .bpush
  | .processF => [.encode, .enc]
  | .processR => [.encode, .dec]
  | .tprocessF => [.encode, .tenc]
  | .tprocessR => [.encode, .tdec]
  | .newmsg => [.clr (lineMask [.C, .I, .O, .F])]
  | .newkey => [.clr (lineMask [.K, .S])]
where
  /-- The mask of a list of letters. -/
  lineMask (ls : List ClrLetter) : BitVec 6 := ls.foldl (fun m l => m ||| letterMask l) 0#6

end Sys2Proof
end

