-- ==== Sys2Proof/Config.lean ====
section
/-! DEFINITION. The build-time configuration of an FCC (00_scope.md R5, 10_state.md R21, 41_constant_tables.md R131).

Every parameter the spec leaves open is a field of `Cfg`: nothing of it is fixed by the model, and every function of
the model takes the record as an argument. The spec leaves no value undefined (00_scope.md R14), so there is no
free value here. Which records are an FCC at all is `Cfg.valid` (R135), in Machine/Tables.lean. -/

namespace Sys2Proof

/-- `Cfg` (R5): the configuration record and the constant tables, fixed when the core is built (R21). The names are
those of R5's table and R131; permutation-table entries are 1-based source indices (R130), positions, S-box rows and
columns are 0-based (R130, R132). -/
structure Cfg where
  /-- `N`, rounds per block and subkeys per list. -/
  rounds : Nat
  /-- `B`, bits per block. -/
  block : Nat
  /-- `KW`, bits of one master key. -/
  kw : Nat
  /-- `USE_IP`: the initial permutation and its inverse are applied. -/
  useIp : Bool
  /-- `IP`, the initial permutation. -/
  ip : List Nat
  /-- `IPINV`, the inverse of the initial permutation. -/
  ipinv : List Nat
  /-- `E`, the expansion table. -/
  e : List Nat
  /-- `P`, the output permutation of the round function. -/
  p : List Nat
  /-- `S[i][row][col]`, the eight substitution matrices. -/
  s : List (List (List Nat))
  /-- `PC1`, the key-reduction table. -/
  pc1 : List Nat
  /-- `PC2`, the subkey table. -/
  pc2 : List Nat
  /-- `SHIFTS`, the left-rotation amount of each round. -/
  shifts : List Nat
  /-- `KEYCAP`, capacity of the key buffer in bits. -/
  keycap : Nat
  /-- `CHARCAP`, capacity of the character buffer in bytes. -/
  charcap : Nat
  /-- `BITCAP`, capacity of the input and of the output bit buffer in bits. -/
  bitcap : Nat
  deriving DecidableEq, Repr

/-- `SKW`, the subkey width: 48 only (R5). -/
def skw : Nat := 48

/-- `H = B/2`, bits per half block (R5). -/
def Cfg.half (cfg : Cfg) : Nat := cfg.block / 2

/-- `KSW = len(PC1)`, bits of the working key (R5, R131). -/
def Cfg.ksw (cfg : Cfg) : Nat := cfg.pc1.length

/-- `USE_PC1`: the key-reduction permutation is applied exactly when `KW != KSW` (R35, R152). -/
def Cfg.usePc1 (cfg : Cfg) : Bool := cfg.kw != cfg.ksw

end Sys2Proof
end

