-- ==== Sys2Proof/Machine/BitSeq.lean ====
section
/-! DEFINITION. Bit-sequence utilities: notation of 00_scope.md R7 to R10 and the leaf operations of
40_bitseq_utilities.md (R110 to R119). All are pure; none can raise an error. `XOR` is refused on unequal lengths: it takes
a proof that they are equal (R118, 93_implementation_defined.md I4). -/

namespace Sys2Proof.Machine

/-- `zeros(n)` (R7). -/
def zeros (n : Nat) : Bits := List.replicate n false

/-- `slice(s, a, b)`, the elements `a .. b-1`, defined for `a <= b <= len(s)` (R7). DESIGN CHOICE (log entry 15): outside
that range this function answers with the elements `a .. b-1` that exist. -/
def slice (s : Bits) (a b : Nat) : Bits := (s.drop a).take (b - a)

@[simp] theorem length_zeros (n : Nat) : (zeros n).length = n := by simp [zeros]

@[simp] theorem length_slice (s : Bits) (a b : Nat) : (slice s a b).length = min (b - a) (s.length - a) := by
  simp [slice]

/-- `nat(s)`, first bit most significant: `nat([]) = 0`, `nat(s ++ [b]) = 2*nat(s) + b` (R8). -/
def natOf (s : Bits) : Nat := s.foldl (fun a b => 2 * a + b.toNat) 0

/-- `bits_n(v, n)`, the `n`-bit binary representation of `v`, most significant bit first, defined for `v < 2^n` (R8).
DESIGN CHOICE (log entry 15): for `v >= 2^n` this function answers with the low `n` bits of `v`. -/
def bitsN (v : Nat) : Nat → Bits
  | 0 => []
  | n + 1 => v.testBit n :: bitsN v n

/-- The 8 bits of a byte, most significant first (R9). -/
def bitsOfByte (b : Byte) : Bits := bitsN b.toNat 8

/-- `bits_of_bytes(b0, ..., bk)`, the first byte first (R9). -/
def bitsOfBytes (bs : List Byte) : Bits := bs.flatMap bitsOfByte

/-- `ceil_div(a, b)`, the least `q` with `q*b >= a`, for `b > 0` (R10). DESIGN CHOICE (log entry 15): for `b = 0` this
function answers 0. -/
def ceilDiv (a b : Nat) : Nat := (a + b - 1) / b

/-- `ROTL(s, n)`: rotate left by `n mod len(s)`; the empty sequence stays empty (R112). -/
def rotl (s : Bits) (n : Nat) : Bits :=
  if s.length = 0 then [] else slice s (n % s.length) s.length ++ slice s 0 (n % s.length)

/-- `ROTR(s, n)`: rotate right by `n mod len(s)` (R113). The datapath never uses it. -/
def rotr (s : Bits) (n : Nat) : Bits :=
  if s.length = 0 then []
  else slice s (s.length - n % s.length) s.length ++ slice s 0 (s.length - n % s.length)

/-- `ROT(s, n)`: positive `n` rotates right, negative `n` left (R114). The datapath never uses it. -/
def rot (s : Bits) (n : Int) : Bits :=
  if 0 ≤ n then rotr s n.toNat else rotl s (-n).toNat

/-- `SPLIT(s)`: two halves of `floor(len/2)` bits (R115). -/
def split (s : Bits) : Bits × Bits := (slice s 0 (s.length / 2), slice s (s.length / 2) (2 * (s.length / 2)))

@[simp] theorem length_split_fst (s : Bits) : (split s).1.length = s.length / 2 := by
  simp [split]
  omega

@[simp] theorem length_split_snd (s : Bits) : (split s).2.length = s.length / 2 := by
  simp [split]
  omega

/-- `SWAP(s)`: the halves exchanged (R116). -/
def swapHalves (s : Bits) : Bits := (split s).2 ++ (split s).1

/-- `CAT(a, b)` (R117). -/
def cat (a b : Bits) : Bits := a ++ b

/-- `XOR(a, b)`, for operands of equal length only: it takes a proof of that, and neither truncates nor pads (R118). -/
def xorBits (a b : Bits) (_h : a.length = b.length) : Bits := List.zipWith Bool.xor a b

@[simp] theorem length_xorBits (a b : Bits) (h : a.length = b.length) : (xorBits a b h).length = b.length := by
  simp [xorBits, h]

/-- `PERM(T, s)[i] = s[T[i] - 1]`: the entries of `T` are 1-based source indices (R119). An entry outside `1..len(s)`
cannot occur in a valid configuration (R135). DESIGN CHOICE (log entry 4): on such an entry this function still answers,
entry 0 with `s[0]`, which is entry 1's bit, and an entry above `len(s)`, or any on an empty `s`, with a 0 bit. -/
def perm (t : List Nat) (s : Bits) : Bits := t.map fun j => s.getD (j - 1) false

@[simp] theorem length_perm (t : List Nat) (s : Bits) : (perm t s).length = t.length := by simp [perm]

end Sys2Proof.Machine
end

