-- ==== Sys2Proof/Machine/Tables.lean ====
section
/-! DEFINITION. Validity of a configuration and the named configurations (41_constant_tables.md R135 to R137).

The table values of `DES-STD` are general knowledge, not the source's (R137, log entry 2); no definition of the model
depends on them but the named configurations. -/

namespace Sys2Proof.Machine

/-- R135 (a): `N >= 1` and one rotation amount per round. -/
def roundsOk (cfg : Cfg) : Bool := decide (1 ≤ cfg.rounds) && decide (cfg.shifts.length = cfg.rounds)

/-- R135 (b), (c): the block size is positive and even, the key width positive. -/
def widthsOk (cfg : Cfg) : Bool := decide (2 ≤ cfg.block) && decide (cfg.block % 2 = 0) && decide (1 ≤ cfg.kw)

/-- Every entry of a permutation table is a source index `1..m` (R119). -/
def entriesIn (t : List Nat) (m : Nat) : Bool := t.all fun j => decide (1 ≤ j) && decide (j ≤ m)

/-- R135 (d): the expansion table. -/
def expansionOk (cfg : Cfg) : Bool := decide (cfg.e.length = 48) && entriesIn cfg.e cfg.half

/-- R135 (e): eight matrices of 4 rows of 16 cells, every cell in `0..15`. -/
def sboxesOk (cfg : Cfg) : Bool :=
  decide (cfg.s.length = 8) &&
    cfg.s.all fun m => decide (m.length = 4) &&
      m.all fun row => decide (row.length = 16) && row.all fun cell => decide (cell < 16)

/-- R135 (f): the output permutation. -/
def outputPermOk (cfg : Cfg) : Bool := decide (cfg.p.length = cfg.half) && entriesIn cfg.p 32

/-- R135 (g): the subkey table and the working-key width. -/
def subkeyTableOk (cfg : Cfg) : Bool :=
  decide (cfg.pc2.length = 48) && entriesIn cfg.pc2 cfg.ksw && decide (cfg.ksw % 2 = 0) && decide (4 ≤ cfg.ksw)

/-- R135 (h): the key-reduction table, where it is used. -/
def keyTableOk (cfg : Cfg) : Bool := !cfg.usePc1 || entriesIn cfg.pc1 cfg.kw

/-- `T[U[i]-1] = i+1` for every position `i` of `U` (R119, R135 (i)). -/
def undoes (u t : List Nat) : Bool := (List.range u.length).all fun i => t.getD (u.getD i 0 - 1) 0 == i + 1

/-- R135 (i): where the initial permutation is used, it and its inverse permute `B` bits and undo each other. -/
def initialPermOk (cfg : Cfg) : Bool :=
  !cfg.useIp ||
    (decide (cfg.ip.length = cfg.block) && decide (cfg.ipinv.length = cfg.block) &&
      entriesIn cfg.ip cfg.block && entriesIn cfg.ipinv cfg.block &&
      undoes cfg.ipinv cfg.ip && undoes cfg.ip cfg.ipinv)

/-- R135 (j): the capacities, and `N <= 256`. -/
def capacitiesOk (cfg : Cfg) : Bool :=
  decide (3 * cfg.kw ≤ cfg.keycap) && decide (cfg.keycap % 8 = 0) && decide (1 ≤ cfg.charcap) &&
    decide (cfg.bitcap % cfg.block = 0) && decide (8 * cfg.charcap ≤ cfg.bitcap) &&
    decide (cfg.bitcap ≤ 131072) && decide (cfg.rounds ≤ 256)

/-- The configuration is **valid** (R135 (a) to (j)); item (k) is recommended, not required. -/
def cfgValid (cfg : Cfg) : Bool :=
  roundsOk cfg && widthsOk cfg && expansionOk cfg && sboxesOk cfg && outputPermOk cfg && subkeyTableOk cfg &&
    keyTableOk cfg && initialPermOk cfg && capacitiesOk cfg

/-! ### The widths a valid configuration gives the datapath (R179) -/

/-- The expansion gives the 48 bits of a subkey (R135 (d)). -/
theorem subkey_fits {cfg : Cfg} {k : Bits} (hv : cfgValid cfg = true) (hk : k.length = skw) :
    k.length = cfg.e.length := by
  simp only [cfgValid, expansionOk, Bool.and_eq_true, decide_eq_true_eq] at hv
  rw [hk, hv.1.1.1.1.1.1.2.1, skw]

/-- The output permutation gives the bits of half a block (R135 (f)). -/
theorem half_fits {cfg : Cfg} {l : Bits} (hv : cfgValid cfg = true) (hl : l.length = cfg.half) :
    l.length = cfg.p.length := by
  simp only [cfgValid, outputPermOk, Bool.and_eq_true, decide_eq_true_eq] at hv
  rw [hl, hv.1.1.1.1.2.1]

/-- Each half of a block has the bits of the output permutation (R135 (f)). -/
theorem block_fits {cfg : Cfg} {x : Bits} (hv : cfgValid cfg = true) (hx : x.length = cfg.block) :
    x.length / 2 = cfg.p.length := by
  simp only [cfgValid, outputPermOk, Bool.and_eq_true, decide_eq_true_eq] at hv
  rw [hx, hv.1.1.1.1.2.1, Cfg.half]

/-- The subkey table gives 48 bits (R135 (g)). -/
theorem subkeyTable_length {cfg : Cfg} (hv : cfgValid cfg = true) : cfg.pc2.length = skw := by
  simp only [cfgValid, subkeyTableOk, Bool.and_eq_true, decide_eq_true_eq] at hv
  exact hv.1.1.1.2.1.1.1

/-- The initial permutation, where it is used, gives the bits of a block (R135 (i)). -/
theorem initialTable_length {cfg : Cfg} (hv : cfgValid cfg = true) (hu : cfg.useIp = true) :
    cfg.ip.length = cfg.block := by
  simp only [cfgValid, initialPermOk, hu, Bool.not_true, Bool.false_or, Bool.and_eq_true, decide_eq_true_eq] at hv
  exact hv.1.2.1.1.1.1.1

/-! ## The default instance DES-STD (R137) -/

/-- `IP`. -/
def desIp : List Nat :=
  [58, 50, 42, 34, 26, 18, 10, 2, 60, 52, 44, 36, 28, 20, 12, 4,
   62, 54, 46, 38, 30, 22, 14, 6, 64, 56, 48, 40, 32, 24, 16, 8,
   57, 49, 41, 33, 25, 17, 9, 1, 59, 51, 43, 35, 27, 19, 11, 3,
   61, 53, 45, 37, 29, 21, 13, 5, 63, 55, 47, 39, 31, 23, 15, 7]

/-- `IPINV`. -/
def desIpinv : List Nat :=
  [40, 8, 48, 16, 56, 24, 64, 32, 39, 7, 47, 15, 55, 23, 63, 31,
   38, 6, 46, 14, 54, 22, 62, 30, 37, 5, 45, 13, 53, 21, 61, 29,
   36, 4, 44, 12, 52, 20, 60, 28, 35, 3, 43, 11, 51, 19, 59, 27,
   34, 2, 42, 10, 50, 18, 58, 26, 33, 1, 41, 9, 49, 17, 57, 25]

/-- `E`. -/
def desE : List Nat :=
  [32, 1, 2, 3, 4, 5, 4, 5, 6, 7, 8, 9, 8, 9, 10, 11, 12, 13, 12, 13, 14, 15, 16, 17,
   16, 17, 18, 19, 20, 21, 20, 21, 22, 23, 24, 25, 24, 25, 26, 27, 28, 29, 28, 29, 30, 31, 32, 1]

/-- `P`. -/
def desP : List Nat :=
  [16, 7, 20, 21, 29, 12, 28, 17, 1, 15, 23, 26, 5, 18, 31, 10,
   2, 8, 24, 14, 32, 27, 3, 9, 19, 13, 30, 6, 22, 11, 4, 25]

/-- `PC1`. -/
def desPc1 : List Nat :=
  [57, 49, 41, 33, 25, 17, 9, 1, 58, 50, 42, 34, 26, 18, 10, 2, 59, 51, 43, 35, 27, 19, 11, 3, 60, 52, 44, 36,
   63, 55, 47, 39, 31, 23, 15, 7, 62, 54, 46, 38, 30, 22, 14, 6, 61, 53, 45, 37, 29, 21, 13, 5, 28, 20, 12, 4]

/-- `PC2`. -/
def desPc2 : List Nat :=
  [14, 17, 11, 24, 1, 5, 3, 28, 15, 6, 21, 10, 23, 19, 12, 4, 26, 8, 16, 7, 27, 20, 13, 2,
   41, 52, 31, 37, 47, 55, 30, 40, 51, 45, 33, 48, 44, 49, 39, 56, 34, 53, 46, 42, 50, 36, 29, 32]

/-- `SHIFTS`. -/
def desShifts : List Nat := [1, 1, 2, 2, 2, 2, 2, 2, 1, 2, 2, 2, 2, 2, 2, 1]

/-- `S[0]` to `S[3]`. -/
def desSboxesLow : List (List (List Nat)) :=
  [[[14, 4, 13, 1, 2, 15, 11, 8, 3, 10, 6, 12, 5, 9, 0, 7],
    [0, 15, 7, 4, 14, 2, 13, 1, 10, 6, 12, 11, 9, 5, 3, 8],
    [4, 1, 14, 8, 13, 6, 2, 11, 15, 12, 9, 7, 3, 10, 5, 0],
    [15, 12, 8, 2, 4, 9, 1, 7, 5, 11, 3, 14, 10, 0, 6, 13]],
   [[15, 1, 8, 14, 6, 11, 3, 4, 9, 7, 2, 13, 12, 0, 5, 10],
    [3, 13, 4, 7, 15, 2, 8, 14, 12, 0, 1, 10, 6, 9, 11, 5],
    [0, 14, 7, 11, 10, 4, 13, 1, 5, 8, 12, 6, 9, 3, 2, 15],
    [13, 8, 10, 1, 3, 15, 4, 2, 11, 6, 7, 12, 0, 5, 14, 9]],
   [[10, 0, 9, 14, 6, 3, 15, 5, 1, 13, 12, 7, 11, 4, 2, 8],
    [13, 7, 0, 9, 3, 4, 6, 10, 2, 8, 5, 14, 12, 11, 15, 1],
    [13, 6, 4, 9, 8, 15, 3, 0, 11, 1, 2, 12, 5, 10, 14, 7],
    [1, 10, 13, 0, 6, 9, 8, 7, 4, 15, 14, 3, 11, 5, 2, 12]],
   [[7, 13, 14, 3, 0, 6, 9, 10, 1, 2, 8, 5, 11, 12, 4, 15],
    [13, 8, 11, 5, 6, 15, 0, 3, 4, 7, 2, 12, 1, 10, 14, 9],
    [10, 6, 9, 0, 12, 11, 7, 13, 15, 1, 3, 14, 5, 2, 8, 4],
    [3, 15, 0, 6, 10, 1, 13, 8, 9, 4, 5, 11, 12, 7, 2, 14]]]

/-- `S[4]` to `S[7]`. -/
def desSboxesHigh : List (List (List Nat)) :=
  [[[2, 12, 4, 1, 7, 10, 11, 6, 8, 5, 3, 15, 13, 0, 14, 9],
    [14, 11, 2, 12, 4, 7, 13, 1, 5, 0, 15, 10, 3, 9, 8, 6],
    [4, 2, 1, 11, 10, 13, 7, 8, 15, 9, 12, 5, 6, 3, 0, 14],
    [11, 8, 12, 7, 1, 14, 2, 13, 6, 15, 0, 9, 10, 4, 5, 3]],
   [[12, 1, 10, 15, 9, 2, 6, 8, 0, 13, 3, 4, 14, 7, 5, 11],
    [10, 15, 4, 2, 7, 12, 9, 5, 6, 1, 13, 14, 0, 11, 3, 8],
    [9, 14, 15, 5, 2, 8, 12, 3, 7, 0, 4, 10, 1, 13, 11, 6],
    [4, 3, 2, 12, 9, 5, 15, 10, 11, 14, 1, 7, 6, 0, 8, 13]],
   [[4, 11, 2, 14, 15, 0, 8, 13, 3, 12, 9, 7, 5, 10, 6, 1],
    [13, 0, 11, 7, 4, 9, 1, 10, 14, 3, 5, 12, 2, 15, 8, 6],
    [1, 4, 11, 13, 12, 3, 7, 14, 10, 15, 6, 8, 0, 5, 9, 2],
    [6, 11, 13, 8, 1, 4, 10, 7, 9, 5, 0, 15, 14, 2, 3, 12]],
   [[13, 2, 8, 4, 6, 15, 11, 1, 10, 9, 3, 14, 5, 0, 12, 7],
    [1, 15, 13, 8, 10, 3, 7, 4, 12, 5, 6, 11, 0, 14, 9, 2],
    [7, 11, 4, 1, 9, 12, 14, 2, 0, 6, 10, 13, 15, 3, 5, 8],
    [2, 1, 14, 7, 4, 10, 8, 13, 15, 12, 9, 0, 3, 5, 6, 11]]]

/-! ## The named configurations (R136) -/

/-- `CFG-DES64`: 64-bit keys reduced by `PC1`, with the initial permutation. -/
def cfgDes64 : Cfg where
  rounds := 16
  block := 64
  kw := 64
  useIp := true
  ip := desIp
  ipinv := desIpinv
  e := desE
  p := desP
  s := desSboxesLow ++ desSboxesHigh
  pc1 := desPc1
  pc2 := desPc2
  shifts := desShifts
  keycap := 256
  charcap := 1024
  bitcap := 8192

/-- `CFG-DES56`: as `CFG-DES64` with 56-bit keys, so that `PC1` is skipped. -/
def cfgDes56 : Cfg := { cfgDes64 with kw := 56 }

/-- `CFG-DES64-NOIP`: as `CFG-DES64` without the initial permutation. -/
def cfgDes64NoIp : Cfg := { cfgDes64 with useIp := false }

end Sys2Proof.Machine
end

