-- ==== Sys2Proof/Machine/KeySchedule.lean ====
section
/-! DEFINITION. The key schedule as a function (42_key_schedule.md R150 to R157, R163). -/

namespace Sys2Proof.Machine

/-- Step (a): the working key, `K` itself when `KW = KSW`, else `PERM(PC1, K)` (R152). -/
def workingKey (cfg : Cfg) (k : Bits) : Bits := if cfg.usePc1 then perm cfg.pc1 k else k

/-- The subkey taken from the two rotated halves, `PERM(PC2, C ++ D)` (R154). -/
def subkeyOf (cfg : Cfg) (c d : Bits) : Bits := perm cfg.pc2 (c ++ d)

/-- Step (c): one subkey per rotation amount. Both halves rotate LEFT by the same amount, cumulatively, and the subkey is
taken after the rotation (R154, R155, 90_conflicts.md C1). -/
def roundKeys (cfg : Cfg) : List Nat → Bits → Bits → List Bits
  | [], _, _ => []
  | n :: ns, c, d => subkeyOf cfg (rotl c n) (rotl d n) :: roundKeys cfg ns (rotl c n) (rotl d n)

/-- Steps (a) to (c) on a key of the right length (R152 to R154). -/
def subkeysOf (cfg : Cfg) (k : Bits) : List Bits :=
  roundKeys cfg cfg.shifts (split (workingKey cfg k)).1 (split (workingKey cfg k)).2

/-- Every subkey of a list has 48 bits (R26, R156). -/
abbrev SubkeysFit (sk : List Bits) : Prop := ∀ k ∈ sk, k.length = skw

theorem roundKeys_fit {cfg : Cfg} (hv : cfgValid cfg = true) (ns : List Nat) (c d : Bits) :
    SubkeysFit (roundKeys cfg ns c d) := by
  induction ns generalizing c d with
  | nil => simp [SubkeysFit, roundKeys]
  | cons n ns ih =>
    intro k h
    rcases List.mem_cons.1 h with rfl | h
    · simp [subkeyOf, subkeyTable_length hv]
    · exact ih _ _ k h

/-- The key schedule gives subkeys of 48 bits (R156). -/
theorem subkeysOf_fit {cfg : Cfg} (hv : cfgValid cfg = true) (k : Bits) : SubkeysFit (subkeysOf cfg k) :=
  roundKeys_fit hv _ _ _

/-- `GenSubKeys(Cfg, K)`: `InvalidKey` when `len(K) != KW`, otherwise the list of `N` subkeys (R150, R151). -/
def genSubKeys (cfg : Cfg) (k : Bits) : Except CoreError (List Bits) :=
  if k.length = cfg.kw then .ok (subkeysOf cfg k) else .error .invalidKey

/-- What `GenSubKeys` gives has 48 bits each (R156). -/
theorem genSubKeys_fit {cfg : Cfg} {k : Bits} {sk : List Bits} (hv : cfgValid cfg = true)
    (h : genSubKeys cfg k = .ok sk) : SubkeysFit sk := by
  unfold genSubKeys at h
  split at h
  · cases h; exact subkeysOf_fit hv k
  · cases h

/-- Key segment `b` of a key buffer, `slice(K, b*KW, (b+1)*KW)` (R163, R230). -/
def keySegment (cfg : Cfg) (k : Bits) (b : Nat) : Bits := slice k (b * cfg.kw) ((b + 1) * cfg.kw)

/-- An invalidated bank: `N` subkeys of 48 zero bits (R26). -/
def zeroBank (cfg : Cfg) : List Bits := List.replicate cfg.rounds (zeros skw)

end Sys2Proof.Machine
end

