-- ==== Sys2Proof/Machine/State.lean ====
section
/-! DEFINITION. The state of one FCC (10_state.md R20 to R40), its configuration, and the host's side of the two ports.

Three parts stand in one record. The configuration `cfg` is the parameter of R21: it is carried here because
`Host.Core.step` takes one argument, and no step writes it (log entry 1). The core's state is the tuple of R20. The
host's side is no state of the core (R36): the transactions the host has yet to present, and the words it has read
(log entry 3). -/

namespace Sys2Proof.Machine

/-- Three like things, one per subkey bank 0, 1, 2 (R26). -/
structure Three (α : Type) where
  /-- Bank 0. -/
  b0 : α
  /-- Bank 1. -/
  b1 : α
  /-- Bank 2. -/
  b2 : α
  deriving DecidableEq, Repr

/-- The ten phases of the sequencer, this hardware's program counter (R30). -/
inductive Phase where
  /-- Waiting for a command. -/
  | idle
  /-- Key length check (R159). -/
  | kchk
  /-- Load the working key of one bank (R160). -/
  | kload
  /-- One round of the key schedule (R161). -/
  | kround
  /-- Start a stage (R203). -/
  | binit
  /-- Fetch and pad one block (R204). -/
  | bfetch
  /-- One Feistel round (R205). -/
  | bround
  /-- Store one block (R206). -/
  | bstore
  /-- End of a stage (R207). -/
  | snext
  /-- End of the command (R208). -/
  | fin
  deriving DecidableEq, Repr

/-- What the host does to the core (R11): it presents a command word or a read address, or it asserts reset. `command`
is the transaction level of R12: the word is accepted and the command completes before anything else is seen (R65).
`start` presents the same word at the sequencer level of R30: it is accepted, and the phases then run one a step.
`pause` lets one step pass with nothing presented. -/
inductive HostAction where
  /-- One command word, as one atomic transaction (R65). -/
  | command (w : CmdWord)
  /-- One command word, only accepted by this step (R159). -/
  | start (w : CmdWord)
  /-- One read of the read port (R67). -/
  | read (ra : ReadAddr)
  /-- The reset input (R290). -/
  | reset
  /-- Nothing is presented for one step. -/
  | pause
  deriving DecidableEq, Repr

/-- The whole machine: configuration, core, host side. -/
structure State where
  /-- `Cfg`, fixed at build time (R21). -/
  cfg : Cfg
  /-- `KEYBUF`, the key material (R22). -/
  keybuf : Bits
  /-- `CHARBUF`, the input characters (R23). -/
  charbuf : List Byte
  /-- `INBITS`, the encoded input (R24). -/
  inbits : Bits
  /-- `OUTBITS`, the result (R25). -/
  outbits : Bits
  /-- `SK[b][r]`, the three subkey banks of `N` subkeys of 48 bits (R26). -/
  sk : Three (List Bits)
  /-- `SKV[b]`: bank `b` holds a complete list (R26, R32). -/
  skv : Three Bool
  /-- `DONE`: the most recent long command ended without error (R32). -/
  done : Bool
  /-- `ERR`: an error has been raised since the flag was last cleared (R32). -/
  err : Bool
  /-- `LIT`: the classification made by the most recent `ENCODE` (R32). -/
  lit : Bool
  /-- `ERRCODE`, the first error since `ERR` was last 0 (R33). -/
  errcode : BitVec 2
  /-- `C`, the left half of the working key (R27). -/
  c : Bits
  /-- `D`, the right half of the working key (R27). -/
  d : Bits
  /-- `L`, the left half of the block in flight (R28). -/
  l : Bits
  /-- `R`, the right half of the block in flight (R28). -/
  r : Bits
  /-- `RC`, the round counter (R29). -/
  rc : Nat
  /-- `BI`, the block index (R29). -/
  bi : Nat
  /-- `NB`, the number of blocks of the current stage (R29). -/
  nb : Nat
  /-- `STG`, the cascade stage (R29). -/
  stg : Fin 3
  /-- `BNK`, the bank being generated (R29). -/
  bnk : Fin 3
  /-- `PH`, the sequencer phase (R30). -/
  ph : Phase
  /-- `OPT`: triple (R31). -/
  opt : Bool
  /-- `OPD`: decrypt (R31). -/
  opd : Bool
  /-- `KGO`: key schedule only (R31). -/
  kgo : Bool
  /-- The host's actions to come, the next one first (R11). -/
  todo : List HostAction
  /-- The words the read port has returned to the host, oldest first (R66). -/
  got : List ReadData
  deriving DecidableEq, Repr

/-- The reasons a step stops because the core's state is none that R20 allows. -/
inductive Fault where
  /-- Raised by `step` alone, while the sequencer runs, when a counter is outside the range R29 gives it or a register or
  bank does not have the width R26 to R28 give it, so that the phase rule would read a position that does not exist. No
  state that satisfies the invariant does this. Safe: the machine stops where the rules say nothing. -/
  | sequencerOutOfRange
  deriving DecidableEq, Repr

/-- The reasons a step is refused. -/
inductive Refusal where
  /-- Raised by an arm of `exec` for an instruction that has no meaning yet; no arm does. Safe. -/
  | notModelled (mnemonic : String)
  /-- Raised by `step`, and by a long command, when the configuration fails the validity check: such a record is not an FCC, no rule covers
  it, and a model refuses to build a machine from it (R135, R293). Safe. -/
  | invalidConfiguration
  deriving DecidableEq, Repr

/-- `reset_state(Cfg)` (R38, R290), with nothing for the host to do. -/
def resetState (cfg : Cfg) : State where
  cfg := cfg
  keybuf := []
  charbuf := []
  inbits := []
  outbits := []
  sk := ⟨zeroBank cfg, zeroBank cfg, zeroBank cfg⟩
  skv := ⟨false, false, false⟩
  done := false
  err := false
  lit := false
  errcode := 0#2
  c := zeros (cfg.ksw / 2)
  d := zeros (cfg.ksw / 2)
  l := zeros cfg.half
  r := zeros cfg.half
  rc := 0
  bi := 0
  nb := 0
  stg := 0
  bnk := 0
  ph := .idle
  opt := false
  opd := false
  kgo := false
  todo := []
  got := []

/-- The machine right after reset (R38), in the configuration `CFG-DES64` that the spec's examples take unless they say
otherwise (R136, log entry 1). -/
def State.reset : State := resetState cfgDes64

end Sys2Proof.Machine
end

