-- ==== Sys2Proof/Machine/Flags.lean ====
section
/-! DEFINITION. Flags, the status word and the error codes (10_state.md R32, R33; 60_exceptions.md R260, R268). -/

namespace Sys2Proof.Machine

/-- The `ERRCODE` of an error (R260); 0 is no error. -/
def errorCode : CoreError → BitVec 2
  | .invalidKey => 1#2
  | .illegalCommand => 2#2
  | .bufferOverflow => 3#2

/-- `BUSY`: not a stored bit, 1 exactly when `PH != IDLE` (R32). -/
def busy (s : State) : Bool := s.ph != .idle

/-- `STATUS` (R32): `BUSY`, `DONE`, `ERR`, `LIT`, `SKV[0..2]` from bit 0; bits 31:7 read 0. -/
def statusWord (s : State) : ReadData :=
  BitVec.ofNat 32
    ((busy s).toNat + 2 * s.done.toNat + 4 * s.err.toNat + 8 * s.lit.toNat +
      16 * s.skv.b0.toNat + 32 * s.skv.b1.toNat + 64 * s.skv.b2.toNat)

/-- `CFG_FLAGS` (R35): bit 0 `USE_IP`, bit 1 `USE_PC1`. -/
def cfgFlags (cfg : Cfg) : ReadData := BitVec.ofNat 32 (cfg.useIp.toNat + 2 * cfg.usePc1.toNat)

/-- The level output `done_o`, a plain copy of `DONE` (R268). -/
def doneO (s : State) : Bool := s.done

/-- The level output `err_o`, a plain copy of `ERR` (R268). -/
def errO (s : State) : Bool := s.err

end Sys2Proof.Machine
end

