-- ==== Sys2Proof/Machine/Operands.lean ====
section
/-! DEFINITION. The operand forms of the commands (30_encoding.md R94). Every other operand is implied by a buffer. -/

namespace Sys2Proof.Machine

/-- `CLR` mask bit 0, `K`: the key buffer. -/
def maskK (m : BitVec 6) : Bool := m.getLsbD 0
/-- `CLR` mask bit 1, `C`: the character buffer. -/
def maskC (m : BitVec 6) : Bool := m.getLsbD 1
/-- `CLR` mask bit 2, `I`: the input bits. -/
def maskI (m : BitVec 6) : Bool := m.getLsbD 2
/-- `CLR` mask bit 3, `O`: the output bits. -/
def maskO (m : BitVec 6) : Bool := m.getLsbD 3
/-- `CLR` mask bit 4, `F`: the flags `DONE`, `ERR`, `LIT` and `ERRCODE`. -/
def maskF (m : BitVec 6) : Bool := m.getLsbD 4
/-- `CLR` mask bit 5, `S`: the subkey banks and `SKV`. -/
def maskS (m : BitVec 6) : Bool := m.getLsbD 5

/-- The byte of `KPUSH`, as the 8 key bits it supplies: never classified (R243). -/
def keyBits (b : Byte) : Bits := bitsOfByte b

/-- The bit of `BPUSH` (R94). -/
def pushBit (v : BitVec 1) : Bool := v.getLsbD 0

/-- The latches a long command's fields go to (R31, R94, R159). -/
structure LongFields where
  /-- `T = cw[8]`: triple, wide key. -/
  triple : Bool
  /-- `D = cw[9]`: reverse, decrypt; 0 for `KEYGEN`. -/
  decrypt : Bool
  /-- Key schedule only: set by `KEYGEN.S` and `KEYGEN.T`. -/
  keyOnly : Bool
  deriving DecidableEq, Repr

end Sys2Proof.Machine
end

