-- ==== Sys2Proof/Machine/Ops.lean ====
section
/-! DEFINITION. The named operations over the state: error entry (60_exceptions.md R264), its only undoing, the subkey banks
(10_state.md R26) and the appending buffers (46_host_commands.md R243 to R245). -/

namespace Sys2Proof.Machine

/-- The element of bank `b`. -/
def Three.get {α : Type} (t : Three α) : Fin 3 → α
  | 0 => t.b0
  | 1 => t.b1
  | 2 => t.b2

/-- Bank `b` replaced. -/
def Three.set {α : Type} (t : Three α) (b : Fin 3) (x : α) : Three α :=
  match b with
  | 0 => ⟨x, t.b1, t.b2⟩
  | 1 => ⟨t.b0, x, t.b2⟩
  | 2 => ⟨t.b0, t.b1, x⟩

/-- `raise X` (R264): the first error's code is kept, `ERR` is set, and the command ends. Nothing else changes. -/
def raise (x : CoreError) (s : State) : State :=
  { s with errcode := if s.err then s.errcode else errorCode x, err := true, ph := .idle }

/-- What `CLR F` does (R242). There is no return from an error (R267): this is the only command that clears `ERR` and
`ERRCODE`. -/
def clearFlags (s : State) : State := { s with done := false, err := false, lit := false, errcode := 0#2 }

/-- All three banks zeroised and invalidated (R26, R159, R242 bit S). -/
def invalidateBanks (s : State) : State :=
  { s with sk := ⟨zeroBank s.cfg, zeroBank s.cfg, zeroBank s.cfg⟩, skv := ⟨false, false, false⟩ }

/-- Apply `f` where the mask bit `p` is set (R242). -/
def whenSet (p : Bool) (f : State → State) (s : State) : State := if p then f s else s

/-- `CLR K`: the key buffer emptied (R242). -/
def clearKeybuf (s : State) : State := { s with keybuf := [] }
/-- `CLR C`: the character buffer emptied (R242). -/
def clearCharbuf (s : State) : State := { s with charbuf := [] }
/-- `CLR I`: the input bits emptied (R242). -/
def clearInbits (s : State) : State := { s with inbits := [] }
/-- `CLR O`: the output bits emptied (R242). -/
def clearOutbits (s : State) : State := { s with outbits := [] }

/-- Append to `KEYBUF`, dropped whole with `BufferOverflow` when it does not fit (R243, R263). -/
def appendKey (bs : Bits) (s : State) : State :=
  if s.keybuf.length + bs.length > s.cfg.keycap then raise .bufferOverflow s else { s with keybuf := s.keybuf ++ bs }

/-- Append to `CHARBUF`, dropped whole with `BufferOverflow` when it does not fit (R244, R263). -/
def appendChar (b : Byte) (s : State) : State :=
  if s.charbuf.length + 1 > s.cfg.charcap then raise .bufferOverflow s else { s with charbuf := s.charbuf ++ [b] }

/-- Append to `INBITS`, dropped whole with `BufferOverflow` when it does not fit (R245, R263). -/
def appendBit (v : Bool) (s : State) : State :=
  if s.inbits.length + 1 > s.cfg.bitcap then raise .bufferOverflow s else { s with inbits := s.inbits ++ [v] }

end Sys2Proof.Machine
end

