-- ==== Sys2Proof/Machine/Round.lean ====
section
/-! DEFINITION. The round function pipeline and the Feistel step (43_round_function.md R170 to R177). What is XORed has
equal lengths (R179): the operations here take proofs of the two widths that make it so, that of the subkey and that of
the half block. -/

namespace Sys2Proof.Machine

/-- `EXPAND(h)`: 48 bits (R170). -/
def expand (cfg : Cfg) (h : Bits) : Bits := perm cfg.e h

/-- `KEYMIX(x, k)`: the only step that depends on secret material (R171, R180). -/
def keymix (x k : Bits) (h : x.length = k.length) : Bits := xorBits x k h

/-- The row of a 6-bit chunk, `2*c[0] + c[5]` (R172). DESIGN CHOICE (log entry 15): a bit that a shorter chunk lacks counts
as 0, here and in `sboxCol`. -/
def sboxRow (c : Bits) : Nat := natOf [c.getD 0 false, c.getD 5 false]

/-- The column of a 6-bit chunk, `8*c[1] + 4*c[2] + 2*c[3] + c[4]` (R172). -/
def sboxCol (c : Bits) : Nat := natOf [c.getD 1 false, c.getD 2 false, c.getD 3 false, c.getD 4 false]

/-- `S[i][row][col]`, a number 0..15 (R132). DESIGN CHOICE (log entry 15): a cell that a misshapen set of matrices lacks, in
a configuration that is no FCC (R135 (e)), counts as 0. -/
def sboxCell (cfg : Cfg) (i row col : Nat) : Nat := ((cfg.s.getD i []).getD row []).getD col 0

/-- `SBOXLANE(i, c)`: four bits, most significant first (R172); a cell above 15, in a configuration that is no FCC (R135 (e)),
gives its low four bits (log entry 15). -/
def sboxLane (cfg : Cfg) (i : Nat) (c : Bits) : Bits := bitsN (sboxCell cfg i (sboxRow c) (sboxCol c)) 4

/-- `SBOX(x)`: eight lanes side by side, lane 0 first (R173). -/
def sbox (cfg : Cfg) (x : Bits) : Bits :=
  (List.range 8).flatMap fun i => sboxLane cfg i (slice x (6 * i) (6 * i + 6))

/-- `PPERM(y)` (R174). -/
def pperm (cfg : Cfg) (y : Bits) : Bits := perm cfg.p y

/-- `F(h, k) = PPERM(SBOX(KEYMIX(EXPAND(h), k)))` (R175). -/
def roundF (cfg : Cfg) (h k : Bits) (hk : k.length = cfg.e.length) : Bits :=
  pperm cfg (sbox cfg (keymix (expand cfg h) k ((length_perm _ _).trans hk.symm)))

@[simp] theorem length_roundF (cfg : Cfg) (h k : Bits) (hk : k.length = cfg.e.length) :
    (roundF cfg h k hk).length = cfg.p.length := length_perm _ _

/-- `ROUND(x, k) = let (l, r) = SPLIT(x) in r ++ XOR(l, F(r, k))` (R176). -/
def feistelRound (cfg : Cfg) (x k : Bits) (hk : k.length = cfg.e.length) (hx : x.length / 2 = cfg.p.length) : Bits :=
  (split x).2 ++ xorBits (split x).1 (roundF cfg (split x).2 k hk)
    ((length_split_fst x).trans (hx.trans (length_roundF _ _ _ hk).symm))

/-- A round keeps the width of a half (R179). -/
theorem feistelRound_fits (cfg : Cfg) (x k : Bits) (hk : k.length = cfg.e.length) (hx : x.length / 2 = cfg.p.length) :
    (feistelRound cfg x k hk hx).length / 2 = cfg.p.length := by
  simp [feistelRound, hx]
  omega

/-- `ROUNDINV(y, k)`, the inverse of `ROUND` under the same subkey (R177). The hardware has no such unit. -/
def feistelRoundInv (cfg : Cfg) (y k : Bits) (hk : k.length = cfg.e.length) (hy : y.length / 2 = cfg.p.length) : Bits :=
  xorBits (split y).2 (roundF cfg (split y).1 k hk)
    ((length_split_snd y).trans (hy.trans (length_roundF _ _ _ hk).symm)) ++ (split y).1

/-- The rounds of a block, under the subkeys in the order they are used (R195). -/
def rounds (cfg : Cfg) :
    (ks : List Bits) → (x : Bits) → (∀ k ∈ ks, k.length = cfg.e.length) → x.length / 2 = cfg.p.length → Bits
  | [], x, _, _ => x
  | k :: ks, x, hks, hx =>
    rounds cfg ks (feistelRound cfg x k (hks k (List.mem_cons_self ..)) hx)
      (fun k' h => hks k' (List.mem_cons_of_mem _ h)) (feistelRound_fits ..)

end Sys2Proof.Machine
end

