-- ==== Sys2Proof/Machine/Pipeline.lean ====
section
/-! DEFINITION. The block cipher pipeline as functions (44_block_pipeline.md R190 to R199) and the cascade
(45_cascade.md R231 to R234). A message is processed in a valid configuration under subkeys of 48 bits: the functions take
proofs of both, from which every `XOR` has its equal lengths (R118, R179). -/

namespace Sys2Proof.Machine

/-- The two kinds of input of `process` (R190). -/
inductive Input where
  /-- `Chars(cs)`: characters, before classification. -/
  | chars (cs : List Byte)
  /-- `Bits(bs)`: already a bit sequence, never classified. -/
  | bits (bs : Bits)
  deriving DecidableEq, Repr

/-- Every character is `'0'` (0x30) or `'1'` (0x31), compared by value; true of no characters at all (R190). -/
def isLiteral (cs : List Byte) : Bool := cs.all fun c => c == 0x30#8 || c == 0x31#8

/-- `Encode(Chars(cs))` without the classification: one bit per character of a literal, else 8 bits per byte (R190). -/
def encodeChars (cs : List Byte) : Bits :=
  if isLiteral cs then cs.map (fun c => c == 0x31#8) else bitsOfBytes cs

/-- `Encode(input)` (R190): the bits, and the classification where one is made (`none`: `lit` unchanged). -/
def encodeInput : Input → Bits × Option Bool
  | .bits bs => (bs, none)
  | .chars cs => (encodeChars cs, some (isLiteral cs))

/-- `NB(n) = ceil_div(n, B)` (R192). -/
def numBlocks (cfg : Cfg) (n : Nat) : Nat := ceilDiv n cfg.block

/-- `Chunk(x, j)`: the `j`-th run of at most `B` bits, zero-padded at the FRONT to `B` bits, for `j < NB` (R193). For a later
`j` there is no run and the answer is `B` zeros (log entry 15). -/
def chunk (cfg : Cfg) (x : Bits) (j : Nat) : Bits :=
  let d := slice x (j * cfg.block) (min ((j + 1) * cfg.block) x.length)
  zeros (cfg.block - d.length) ++ d

/-- Every chunk has `B` bits (R193). -/
theorem length_chunk {cfg : Cfg} (x : Bits) (j : Nat) : (chunk cfg x j).length = cfg.block := by
  have : (j + 1) * cfg.block = j * cfg.block + cfg.block := by rw [Nat.add_mul, Nat.one_mul]
  simp only [chunk, List.length_append, length_zeros, length_slice]
  omega

/-- `KeyOrder(SK, forward)`: the subkeys in the order the rounds use them (R194). -/
def keyOrder (sk : List Bits) (forward : Bool) : List Bits := if forward then sk else sk.reverse

theorem keyOrder_fit {sk : List Bits} (h : SubkeysFit sk) (forward : Bool) : SubkeysFit (keyOrder sk forward) := by
  intro k hk
  cases forward
  · exact h k (List.mem_reverse.1 hk)
  · exact h k hk

/-- The initial permutation where the configuration uses one (R195). -/
def initialPerm (cfg : Cfg) (x : Bits) : Bits := if cfg.useIp then perm cfg.ip x else x

theorem length_initialPerm {cfg : Cfg} (hv : cfgValid cfg = true) (x : Bits) (h : x.length = cfg.block) :
    (initialPerm cfg x).length = cfg.block := by
  unfold initialPerm
  split
  · rw [length_perm, initialTable_length hv ‹_›]
  · exact h

/-- The inverse of the initial permutation where the configuration uses one (R195). -/
def finalPerm (cfg : Cfg) (x : Bits) : Bits := if cfg.useIp then perm cfg.ipinv x else x

/-- `BlockProcess(x, ks)` (R195): initial permutation, the rounds in order, the final swap, inverse permutation. -/
def blockProcess (cfg : Cfg) (hv : cfgValid cfg = true) (x : Bits) (hx : x.length = cfg.block) (ks : List Bits)
    (hks : SubkeysFit ks) : Bits :=
  finalPerm cfg (swapHalves (rounds cfg ks (initialPerm cfg x) (fun k h => subkey_fits hv (hks k h))
    (block_fits hv (length_initialPerm hv x hx))))

/-- `ProcessBits(x, SK, forward)`: the processed blocks in original order (R196). -/
def processBits (cfg : Cfg) (hv : cfgValid cfg = true) (x : Bits) (sk : List Bits) (hs : SubkeysFit sk)
    (forward : Bool) : Bits :=
  (List.range (numBlocks cfg x.length)).flatMap fun j =>
    blockProcess cfg hv (chunk cfg x j) (length_chunk x j) (keyOrder sk forward) (keyOrder_fit hs forward)

/-- `Process(input, K, forward)` (R197). -/
def process (cfg : Cfg) (hv : cfgValid cfg = true) (input : Input) (k : Bits) (forward : Bool) :
    Except CoreError Bits :=
  match h : genSubKeys cfg k with
  | .error e => .error e
  | .ok sk => .ok (processBits cfg hv (encodeInput input).1 sk (genSubKeys_fit hv h) forward)

/-- `Pad(x)`: the input with its last chunk front-padded (R200). -/
def pad (cfg : Cfg) (x : Bits) : Bits := (List.range (numBlocks cfg x.length)).flatMap (chunk cfg x)

/-- `Unpad(y, n)` (R199): a host-side function of the original bit length `n`, no operation of the hardware; defined for
`len(y) = NB(n) * B`. On any other length its slices are those of log entry 15. -/
def unpad (cfg : Cfg) (y : Bits) (n : Nat) : Bits :=
  if n = 0 then []
  else
    let nb := numBlocks cfg n
    slice y 0 ((nb - 1) * cfg.block) ++ slice y ((nb - 1) * cfg.block + (nb * cfg.block - n)) (nb * cfg.block)

/-- The three stages of the cascade on an encoded input, with the three subkey lists in stage order (R231, R232): every
stage runs in the same direction and takes the previous stage's output as bits (R234). -/
def cascadeStages (cfg : Cfg) (hv : cfgValid cfg = true) (x : Bits) (s1 s2 s3 : List Bits) (h1 : SubkeysFit s1)
    (h2 : SubkeysFit s2) (h3 : SubkeysFit s3) (forward : Bool) : Bits × Bits × Bits :=
  let t1 := processBits cfg hv x s1 h1 forward
  let t2 := processBits cfg hv t1 s2 h2 forward
  (t1, t2, processBits cfg hv t2 s3 h3 forward)

/-- `TripleProcess(input, K, forward)` (R231 to R233): the three segments of the wide key in the order `k1, k2, k3`
forward, `k3, k2, k1` in reverse; `InvalidKey` exactly when `len(K) != 3*KW`. -/
def tripleProcess (cfg : Cfg) (hv : cfgValid cfg = true) (input : Input) (k : Bits) (forward : Bool) :
    Except CoreError Bits :=
  if k.length = 3 * cfg.kw then
    let x := (encodeInput input).1
    let sk := fun b => subkeysOf cfg (keySegment cfg k b)
    let fit := fun b => subkeysOf_fit hv (keySegment cfg k b)
    if forward then .ok (cascadeStages cfg hv x (sk 0) (sk 1) (sk 2) (fit 0) (fit 1) (fit 2) true).2.2
    else .ok (cascadeStages cfg hv x (sk 2) (sk 1) (sk 0) (fit 2) (fit 1) (fit 0) false).2.2
  else .error .invalidKey

end Sys2Proof.Machine
end

