-- ==== Sys2Proof/Machine/HostCommands.lean ====
section
/-! DEFINITION. The short commands (46_host_commands.md R240 to R246; `ENCODE` is 44_block_pipeline.md R191). Each runs in
one step and leaves `PH = IDLE`. -/

namespace Sys2Proof.Machine

/-- `NOP` (R241). -/
def execNop (s : State) : Host.Outcome State Fault Refusal := .next s

/-- `CLR m` (R242): the selected clears, which touch disjoint state. -/
def execClr (m : BitVec 6) (s : State) : Host.Outcome State Fault Refusal :=
  .next
    (whenSet (maskK m) clearKeybuf (whenSet (maskC m) clearCharbuf (whenSet (maskI m) clearInbits
      (whenSet (maskO m) clearOutbits (whenSet (maskF m) clearFlags (whenSet (maskS m) invalidateBanks s))))))

/-- `KPUSH b` (R243). -/
def execKpush (b : Byte) (s : State) : Host.Outcome State Fault Refusal := .next (appendKey (keyBits b) s)

/-- `CPUSH b` (R244). -/
def execCpush (b : Byte) (s : State) : Host.Outcome State Fault Refusal := .next (appendChar b s)

/-- `BPUSH v` (R245). -/
def execBpush (v : BitVec 1) (s : State) : Host.Outcome State Fault Refusal := .next (appendBit (pushBit v) s)

/-- `ENCODE` (R191): `INBITS` is replaced and `LIT` written; the overflow cannot happen in a valid configuration. -/
def execEncode (s : State) : Host.Outcome State Fault Refusal :=
  if (encodeChars s.charbuf).length > s.cfg.bitcap then .next (raise .bufferOverflow s)
  else .next { s with inbits := encodeChars s.charbuf, lit := isLiteral s.charbuf }

/-- `MOVO` (R246). -/
def execMovo (s : State) : Host.Outcome State Fault Refusal := .next { s with inbits := s.outbits }

end Sys2Proof.Machine
end

