-- ==== Sys2Proof/Machine/Sequencer.lean ====
section
/-! DEFINITION. The sequencer: acceptance of a long command and the phase rules (42_key_schedule.md R159 to R161,
44_block_pipeline.md R202 to R209, 45_cascade.md R236), and a long command as one transaction (20_memory.md R65). -/

namespace Sys2Proof.Machine

/-- Acceptance of a long command (R159): the fields are latched, `DONE` cleared, the banks zeroised and invalidated,
`OUTBITS` emptied unless only the key schedule runs, and the sequencer starts. -/
def acceptLong (f : LongFields) (s : State) : State :=
  { invalidateBanks s with
    opt := f.triple, opd := f.decrypt, kgo := f.keyOnly, done := false,
    outbits := if f.keyOnly then s.outbits else [], ph := .kchk }

/-- How many key segments and banks the running command uses (R158, R161). -/
def banksUsed (s : State) : Nat := if s.opt then 3 else 1

/-- The key length the running command needs (R159). -/
def keyNeed (s : State) : Nat := if s.opt then 3 * s.cfg.kw else s.cfg.kw

/-- Phase `KCHK` (R159): the key length check, before anything else. -/
def phaseKchk (s : State) : State :=
  if s.keybuf.length ≠ keyNeed s then raise .invalidKey s else { s with bnk := 0, ph := .kload }

/-- Phase `KLOAD` (R160): the working key of bank `BNK`, split. -/
def phaseKload (s : State) : State :=
  let w := workingKey s.cfg (keySegment s.cfg s.keybuf s.bnk)
  { s with c := (split w).1, d := (split w).2, rc := 0, ph := .kround }

/-- The state after one round of the key schedule, before the counters and the phase move (R161). -/
def keyRound (s : State) : State :=
  let n := s.cfg.shifts.getD s.rc 0
  let c := rotl s.c n
  let d := rotl s.d n
  { s with c := c, d := d, sk := s.sk.set s.bnk ((s.sk.get s.bnk).set s.rc (subkeyOf s.cfg c d)) }

/-- Where the key schedule goes after the last round of a bank (R161). -/
def bankDone (s : State) : State :=
  let s := { s with skv := s.skv.set s.bnk true, rc := 0 }
  if s.bnk.val + 1 < banksUsed s then { s with bnk := s.bnk + 1, ph := .kload }
  else if s.kgo then { s with ph := .fin }
  else { s with stg := 0, ph := .binit }

/-- Phase `KROUND` (R161). -/
def phaseKround (s : State) : State :=
  if s.rc + 1 < s.cfg.rounds then { keyRound s with rc := s.rc + 1 } else bankDone (keyRound s)

/-- Phase `BINIT` (R203). -/
def phaseBinit (s : State) : State :=
  let nb := numBlocks s.cfg s.inbits.length
  { s with nb := nb, bi := 0, outbits := [], ph := if nb = 0 then .snext else .bfetch }

/-- Phase `BFETCH` (R204). -/
def phaseBfetch (s : State) : State :=
  let y := initialPerm s.cfg (chunk s.cfg s.inbits s.bi)
  { s with l := (split y).1, r := (split y).2, rc := 0, ph := .bround }

/-- The bank a round reads (R209). -/
def roundBank (s : State) : Fin 3 :=
  if s.opt then (if s.opd then 2 - s.stg else s.stg) else 0

/-- The index a round reads in its bank (R209): the bank is read backwards to decrypt, never reversed in place. -/
def roundIndex (s : State) : Nat := if s.opd then s.cfg.rounds - 1 - s.rc else s.rc

/-- The subkey a round uses (R205, R209). -/
def roundKey (s : State) : Bits := (s.sk.get (roundBank s)).getD (roundIndex s) []

/-- The widths a round needs: those of its subkey and of `L` (R179). The invariant gives them; where they fail,
`phaseReady` does too. -/
abbrev RoundFits (s : State) : Prop := (roundKey s).length = s.cfg.e.length ∧ s.l.length = s.cfg.p.length

/-- `XOR(L, F(R, k))` (R205). -/
def roundResult (s : State) (h : RoundFits s) : Bits :=
  xorBits s.l (roundF s.cfg s.r (roundKey s) h.1) (h.2.trans (length_roundF _ _ _ h.1).symm)

/-- Phase `BROUND` (R205): one Feistel round on the two halves. Without the widths of R179 there is no round to do and the
state stays: a step of such a state faults (log entry 6) and no command reaches it. -/
def phaseBround (s : State) : State :=
  if h : RoundFits s then
    if s.rc + 1 < s.cfg.rounds then { s with l := s.r, r := roundResult s h, rc := s.rc + 1 }
    else { s with l := s.r, r := roundResult s h, ph := .bstore }
  else s

/-- Phase `BSTORE` (R206): the halves written out exchanged, the inverse permutation, the block appended. -/
def phaseBstore (s : State) : State :=
  { s with
    outbits := s.outbits ++ finalPerm s.cfg (s.r ++ s.l), bi := s.bi + 1,
    ph := if s.bi + 1 < s.nb then .bfetch else .snext }

/-- Phase `SNEXT` (R207): the next stage of the cascade takes this stage's output as its input. -/
def phaseSnext (s : State) : State :=
  if s.opt ∧ s.stg.val < 2 then { s with inbits := s.outbits, stg := s.stg + 1, ph := .binit } else { s with ph := .fin }

/-- Phase `FIN` (R208). -/
def phaseFin (s : State) : State := { s with done := true, ph := .idle }

/-- One step of the running sequencer; `IDLE` has no phase rule and nothing happens (R30). -/
def phaseStep (s : State) : State :=
  match s.ph with
  | .idle => s
  | .kchk => phaseKchk s
  | .kload => phaseKload s
  | .kround => phaseKround s
  | .binit => phaseBinit s
  | .bfetch => phaseBfetch s
  | .bround => phaseBround s
  | .bstore => phaseBstore s
  | .snext => phaseSnext s
  | .fin => phaseFin s

/-- The sequencer until `IDLE`, for at most `n` steps. -/
def runPhases : Nat → State → State
  | 0, s => s
  | n + 1, s => if s.ph = .idle then s else runPhases n (phaseStep s)

/-- The number of steps the sequencer takes after acceptance with a valid key (R162, R210, R236): the check, each bank's
load and rounds, each stage's blocks, the end. -/
def phaseCount (cfg : Cfg) (f : LongFields) (inlen : Nat) : Nat :=
  let banks := if f.triple then 3 else 1
  let stages := if f.keyOnly then 0 else banks
  1 + banks * (1 + cfg.rounds) + stages * (2 + numBlocks cfg inlen * (cfg.rounds + 2)) + 1

/-- A long command as one transaction (R65): acceptance, then the phases until `IDLE`. -/
def runLong (f : LongFields) (s : State) : State :=
  runPhases (phaseCount s.cfg f s.inbits.length) (acceptLong f s)

/-- Every subkey of a bank is there and has 48 bits (R26). -/
def bankShaped (cfg : Cfg) (bank : List Bits) : Bool :=
  decide (bank.length = cfg.rounds) && bank.all fun k => decide (k.length = skw)

/-- What a phase rule reads exists: counters in the ranges of R29, registers, banks and the key of the widths of R22, R26
to R28. -/
def phaseReady (s : State) : Bool :=
  match s.ph with
  | .idle | .kchk | .binit | .snext | .fin => true
  | .kload => decide ((s.bnk.val + 1) * s.cfg.kw ≤ s.keybuf.length)
  | .kround =>
    decide (s.rc < s.cfg.rounds) && decide (s.c.length = s.cfg.ksw / 2) && decide (s.d.length = s.cfg.ksw / 2) &&
      bankShaped s.cfg (s.sk.get s.bnk)
  | .bfetch => decide (s.bi < numBlocks s.cfg s.inbits.length)
  | .bround =>
    decide (s.rc < s.cfg.rounds) && decide (s.l.length = s.cfg.half) && decide (s.r.length = s.cfg.half) &&
      bankShaped s.cfg (s.sk.get (roundBank s))
  | .bstore => decide (s.bi < s.nb) && decide (s.l.length = s.cfg.half) && decide (s.r.length = s.cfg.half)

end Sys2Proof.Machine
end

