-- ==== Sys2Proof/Machine/LongCommands.lean ====
section
/-! DEFINITION. The long commands (42_key_schedule.md R158, 44_block_pipeline.md R201, 45_cascade.md R235): each is the
sequencer run from acceptance to `IDLE`, differing only in the latched fields (R211). In a configuration that is no FCC
the datapath has no widths to run with, and the command is refused (R135, R293, log entry 7). -/

namespace Sys2Proof.Machine

/-- The fields of `KEYGEN.S` (R93, R159). -/
def fieldsKeygenS : LongFields := ⟨false, false, true⟩
/-- The fields of `KEYGEN.T` (R93, R159). -/
def fieldsKeygenT : LongFields := ⟨true, false, true⟩
/-- The fields of `ENC` (R93, R159). -/
def fieldsEnc : LongFields := ⟨false, false, false⟩
/-- The fields of `TENC` (R93, R159). -/
def fieldsTenc : LongFields := ⟨true, false, false⟩
/-- The fields of `DEC` (R93, R159). -/
def fieldsDec : LongFields := ⟨false, true, false⟩
/-- The fields of `TDEC` (R93, R159). -/
def fieldsTdec : LongFields := ⟨true, true, false⟩

/-- A long command as one transaction (R65). -/
def execLong (f : LongFields) (s : State) : Host.Outcome State Fault Refusal :=
  if cfgValid s.cfg then .next (runLong f s) else .refused .invalidConfiguration

/-- `KEYGEN.S` (R158). -/
def execKeygenS (s : State) : Host.Outcome State Fault Refusal := execLong fieldsKeygenS s

/-- `KEYGEN.T` (R158). -/
def execKeygenT (s : State) : Host.Outcome State Fault Refusal := execLong fieldsKeygenT s

/-- `ENC` (R201). -/
def execEnc (s : State) : Host.Outcome State Fault Refusal := execLong fieldsEnc s

/-- `TENC` (R235). -/
def execTenc (s : State) : Host.Outcome State Fault Refusal := execLong fieldsTenc s

/-- `DEC` (R201). -/
def execDec (s : State) : Host.Outcome State Fault Refusal := execLong fieldsDec s

/-- `TDEC` (R235). -/
def execTdec (s : State) : Host.Outcome State Fault Refusal := execLong fieldsTdec s

end Sys2Proof.Machine
end

