-- ==== Sys2Proof/Machine/Dispatch.lean ====
section
/-! DEFINITION. One arm per constructor of `Instr`, each a direct call of its meaning. -/

namespace Sys2Proof.Machine

def exec (i : Instr) (s : State) : Host.Outcome State Fault Refusal :=
  match i with
  | .nop => Sys2Proof.Machine.execNop s
  | .clr m => Sys2Proof.Machine.execClr m s
  | .kpush b => Sys2Proof.Machine.execKpush b s
  | .cpush b => Sys2Proof.Machine.execCpush b s
  | .bpush v => Sys2Proof.Machine.execBpush v s
  | .encode => Sys2Proof.Machine.execEncode s
  | .movo => Sys2Proof.Machine.execMovo s
  | .keygenS => Sys2Proof.Machine.execKeygenS s
  | .keygenT => Sys2Proof.Machine.execKeygenT s
  | .enc => Sys2Proof.Machine.execEnc s
  | .tenc => Sys2Proof.Machine.execTenc s
  | .dec => Sys2Proof.Machine.execDec s
  | .tdec => Sys2Proof.Machine.execTdec s

end Sys2Proof.Machine
end

