-- ==== Sys2Proof/Machine/ReadPort.lean ====
section
/-! DEFINITION. The read port (20_memory.md R67 to R71): a word for every one of the 65536 addresses, computed from the
state, with no side effect (R66). -/

namespace Sys2Proof.Machine

/-- `zext_32` of a length or parameter (R10, R34, R35). -/
def zext32 (n : Nat) : ReadData := BitVec.ofNat 32 n

/-- `OUTBYTE[i]` (R69): eight output bits, first most significant; bits at or beyond `OUTLEN` read 0. -/
def outByte (out : Bits) (i : Nat) : ReadData :=
  let a := min (8 * i) out.length
  let b := min (8 * i + 8) out.length
  zext32 (natOf (slice out a b ++ zeros (8 - (b - a))))

/-- Word `w` of a 48-bit subkey (R70): subkey bit 0 is bit 31 of word 0. A shorter list of bits, which the invariant rules
out, is sliced as log entry 15 says. -/
def subkeyWord (k : Bits) (w : Nat) : ReadData :=
  let a := min (32 * w) 48
  let b := min (32 * w + 32) 48
  zext32 (natOf (slice k a b ++ zeros (32 - (b - a))))

/-- The bank number `0..2` that a window offset names (R70). -/
def bankOf (n : Nat) : Fin 3 := if n = 0 then 0 else if n = 1 then 1 else 2

/-- `SKDBG` at offset `o` (R70): bank `o[11:10]`, round `o[9:2]`, word `o[1:0]`; a round that does not exist reads 0. -/
def skDebug (s : State) (o : Nat) : ReadData :=
  let r := o / 4 % 256
  if s.cfg.rounds ≤ r then 0#32
  else subkeyWord ((s.sk.get (bankOf (o / 1024))).getD r []) (o % 4)

/-- The read port's map (R67); an unmapped address reads 0 (R71). -/
def readPort (s : State) (ra : ReadAddr) : ReadData :=
  let a := ra.toNat
  if a = 0x0000 then statusWord s
  else if a = 0x0001 then s.errcode.zeroExtend 32
  else if a = 0x0002 then zext32 s.keybuf.length
  else if a = 0x0003 then zext32 s.charbuf.length
  else if a = 0x0004 then zext32 s.inbits.length
  else if a = 0x0005 then zext32 s.outbits.length
  else if a = 0x0006 then zext32 s.cfg.rounds
  else if a = 0x0007 then zext32 s.cfg.block
  else if a = 0x0008 then zext32 s.cfg.kw
  else if a = 0x0009 then cfgFlags s.cfg
  else if a = 0x000A then zext32 s.cfg.ksw
  else if a = 0x000B then zext32 skw
  else if a = 0x000C then zext32 s.cfg.keycap
  else if a = 0x000D then zext32 s.cfg.charcap
  else if a = 0x000E then zext32 s.cfg.bitcap
  else if a < 0x4000 then 0#32
  else if a < 0x8000 then outByte s.outbits (a - 0x4000)
  else if a < 0x8C00 then skDebug s (a - 0x8000)
  else 0#32

end Sys2Proof.Machine
end

