-- ==== Sys2Proof/Machine/Port.lean ====
section
/-! DEFINITION. What happens to one host action (00_scope.md R11, R12; 20_memory.md R65, R66, R76; 30_encoding.md R95;
70_reset_and_hazards.md R290). -/

namespace Sys2Proof.Machine

/-- A command word accepted as one transaction: a legal word runs, an illegal one raises `IllegalCommand` and changes
nothing else (R95, R262). -/
def runWord (w : CmdWord) (s : State) : Host.Outcome State Fault Refusal :=
  match decode w with
  | .command i => exec i s
  | .illegal _ => .next (raise .illegalCommand s)

/-- The fields a long command latches; a short command has none (R30, R31). -/
def longFieldsOf : Instr → Option LongFields
  | .nop | .clr _ | .kpush _ | .cpush _ | .bpush _ | .encode | .movo => none
  | .keygenS => some fieldsKeygenS
  | .keygenT => some fieldsKeygenT
  | .enc => some fieldsEnc
  | .tenc => some fieldsTenc
  | .dec => some fieldsDec
  | .tdec => some fieldsTdec

/-- A command word at the sequencer level (R30, R159): a long command is accepted and the sequencer left running; a short
command, or an illegal word, takes its one step. -/
def startWord (w : CmdWord) (s : State) : Host.Outcome State Fault Refusal :=
  match decode w with
  | .command i =>
    match longFieldsOf i with
    | some f => .next (acceptLong f s)
    | none => exec i s
  | .illegal _ => .next (raise .illegalCommand s)

/-- One read (R66): the word goes to the host, the core does not change. -/
def serveRead (ra : ReadAddr) (s : State) : State := { s with got := s.got ++ [readPort s ra] }

/-- The reset input (R290): the core takes its reset state; the configuration and the host's side stay. -/
def hostReset (s : State) : State := { resetState s.cfg with todo := s.todo, got := s.got }

/-- The state with the host's next action taken off. -/
def withTodo (rest : List HostAction) (s : State) : State := { s with todo := rest }

/-- A step of an idle core: it performs the transaction the host presents, or waits (R30, R273). -/
def idleStep (s : State) : Host.Outcome State Fault Refusal :=
  match s.todo with
  | [] => .next s
  | .pause :: rest => .next (withTodo rest s)
  | .reset :: rest => .next (hostReset (withTodo rest s))
  | .read ra :: rest => .next (serveRead ra (withTodo rest s))
  | .command w :: rest => runWord w (withTodo rest s)
  | .start w :: rest => startWord w (withTodo rest s)

/-- A step of a running core (R76): reset is honoured in any phase; a command or a read waits while the sequencer takes one
step. -/
def busyStep (s : State) : Host.Outcome State Fault Refusal :=
  match s.todo with
  | .reset :: rest => .next (hostReset (withTodo rest s))
  | .pause :: rest => sequencerStep (withTodo rest s)
  | [] | .read _ :: _ | .command _ :: _ | .start _ :: _ => sequencerStep s
where
  /-- One phase rule, where what it reads exists. -/
  sequencerStep (s : State) : Host.Outcome State Fault Refusal :=
    if phaseReady s then .next (phaseStep s) else .fault .sequencerOutOfRange

/-- The host's list with the word of an opcode-table row presented next, on an idle core. -/
def presentWord (w : CmdWord) (s : State) : State := { s with todo := .command w :: s.todo, ph := .idle }

end Sys2Proof.Machine
end

