-- ==== Sys2Proof/Machine/Step.lean ====
section
/-! DEFINITION. The step of the machine. -/

namespace Sys2Proof.Machine

/-- One step: refused where the configuration is not an FCC (R135, R293); otherwise what the host does next to an idle
core, or one step of the running sequencer (R30, R76). -/
def step (s : State) : Host.Outcome State Fault Refusal :=
  if cfgValid s.cfg then (if s.ph = .idle then idleStep s else busyStep s) else .refused .invalidConfiguration

/-- The state in which `step` runs exactly the command of an opcode-table word: the host presents it next, and the
sequencer is idle so that it is accepted at once. -/
def State.withFetchWord (s : State) (nbits w : Nat) : State := presentWord (BitVec.ofNat 16 (w % 2 ^ nbits)) s

end Sys2Proof.Machine
end

