-- ==== Sys2Proof/Safety.lean ====
section
/-! DEFINITION. The terms claims are stated in: the invariant of the core (10_state.md R39 and the ranges of R20 to R29),
what a successful long command leaves, and the states no port can tell apart (R37). -/

namespace Sys2Proof.Machine

/-- The key length a long command with these fields needs (R159). -/
def needOf (cfg : Cfg) (f : LongFields) : Nat := if f.triple then 3 * cfg.kw else cfg.kw

/-- The banks a long command with these fields leaves when it succeeds (R158, R162). -/
def keyBanks (cfg : Cfg) (f : LongFields) (key : Bits) : Three (List Bits) where
  b0 := subkeysOf cfg (keySegment cfg key 0)
  b1 := if f.triple then subkeysOf cfg (keySegment cfg key 1) else zeroBank cfg
  b2 := if f.triple then subkeysOf cfg (keySegment cfg key 2) else zeroBank cfg

/-- What holds of the key and of the banks' flags while the sequencer is past the key check: the key has the length the
command needs, the bank being generated is one the command uses, and exactly the banks `valid` are valid (R159, R161). -/
def Scheduling (s : State) (valid : Fin 3 → Bool) : Prop :=
  s.keybuf.length = keyNeed s ∧ s.bnk.val < banksUsed s ∧ ∀ b, s.skv.get b = valid b

/-- What holds in each phase beyond what holds always. -/
def phaseInv (s : State) : Prop :=
  match s.ph with
  | .idle => s.skv.b1 = s.skv.b2 ∧ (s.skv.b1 = true → s.skv.b0 = true)
  | .kchk => ∀ b, s.skv.get b = false
  | .kload => Scheduling s (fun b => decide (b.val < s.bnk.val))
  | .kround =>
    Scheduling s (fun b => decide (b.val < s.bnk.val)) ∧
      (s.sk.get s.bnk).take s.rc ++ roundKeys s.cfg (s.cfg.shifts.drop s.rc) s.c s.d =
        subkeysOf s.cfg (keySegment s.cfg s.keybuf s.bnk)
  | .binit | .snext | .fin => Scheduling s (fun b => decide (b.val < banksUsed s))
  | .bfetch | .bround | .bstore =>
    Scheduling s (fun b => decide (b.val < banksUsed s)) ∧ s.nb = numBlocks s.cfg s.inbits.length ∧ s.bi < s.nb ∧
      s.outbits.length = s.bi * s.cfg.block

/-- The invariant: the ranges and widths of R20 to R29 and R33, the clauses (a) to (i) of R39, and `phaseInv`. -/
structure Inv (s : State) : Prop where
  /-- The configuration is an FCC (R135). -/
  valid : cfgValid s.cfg = true
  /-- R39 (a). -/
  keyBytes : s.keybuf.length % 8 = 0
  /-- R39 (a). -/
  keyFits : s.keybuf.length ≤ s.cfg.keycap
  /-- R39 (b). -/
  charsFit : s.charbuf.length ≤ s.cfg.charcap
  /-- R39 (c). -/
  inFits : s.inbits.length ≤ s.cfg.bitcap
  /-- R39 (d). -/
  outFits : s.outbits.length ≤ s.cfg.bitcap
  /-- R39 (d). -/
  outBlocks : s.outbits.length % s.cfg.block = 0
  /-- R26: every bank has `N` subkeys of 48 bits. -/
  bankShape : ∀ b, bankShaped s.cfg (s.sk.get b) = true
  /-- R39 (e); the bank being generated is the exception while `KROUND` runs. -/
  bankZero : ∀ b, s.skv.get b = false → (s.ph = .kround ∧ b = s.bnk) ∨ s.sk.get b = zeroBank s.cfg
  /-- R39 (f): a valid bank is the key schedule of some key of the right length. -/
  bankKeys : ∀ b, s.skv.get b = true → ∃ k, genSubKeys s.cfg k = .ok (s.sk.get b)
  /-- R39 (h). -/
  errCode : s.errcode = 0#2 ↔ s.err = false
  /-- R39 (i): while a long command runs, `DONE` is 0. -/
  doneIdle : s.done = true → s.ph = .idle
  /-- R27. -/
  cWidth : s.c.length = s.cfg.ksw / 2
  /-- R27. -/
  dWidth : s.d.length = s.cfg.ksw / 2
  /-- R28. -/
  lWidth : s.l.length = s.cfg.half
  /-- R28. -/
  rWidth : s.r.length = s.cfg.half
  /-- R29. -/
  rcRange : s.rc < s.cfg.rounds
  /-- R29. -/
  biRange : s.bi ≤ s.nb
  /-- R29. -/
  nbRange : s.nb ≤ s.cfg.bitcap / s.cfg.block
  /-- What the phase adds. -/
  phase : phaseInv s

/-- `s` with the sequencer's registers and counters of `h`: what no port shows and what a long command leaves at values
that only its phases determine (R27 to R29, R37). -/
def withHidden (s h : State) : State :=
  { s with
    c := h.c, d := h.d, l := h.l, r := h.r, rc := h.rc, bi := h.bi, nb := h.nb, stg := h.stg, bnk := h.bnk }

/-- Steps of one block pass of `nb` blocks, `BINIT` to `SNEXT` (R202). -/
def passSteps (cfg : Cfg) (nb : Nat) : Nat := 2 + nb * (cfg.rounds + 2)

/-- Steps after the key schedule of a running command that has `stages` passes to make (R202, R208). -/
def tailSteps (s : State) (stages : Nat) : Nat :=
  (if s.kgo then 0 else stages * passSteps s.cfg (numBlocks s.cfg s.inbits.length)) + 1

/-- How many passes are left, the current one included (R236). -/
def passesLeft (s : State) : Nat := if s.opt then 3 - s.stg.val else 1

/-- How many steps the sequencer still takes until `IDLE` (R162, R210, R236, R302). -/
def remainingSteps (s : State) : Nat :=
  let n := s.cfg.rounds
  match s.ph with
  | .idle => 0
  | .kchk => if s.keybuf.length = keyNeed s then 1 + banksUsed s * (1 + n) + tailSteps s (banksUsed s) else 1
  | .kload => (banksUsed s - s.bnk.val) * (1 + n) + tailSteps s (banksUsed s)
  | .kround => (n - s.rc) + (banksUsed s - s.bnk.val - 1) * (1 + n) + tailSteps s (banksUsed s)
  | .binit => passesLeft s * passSteps s.cfg (numBlocks s.cfg s.inbits.length) + 1
  | .bfetch => (s.nb - s.bi) * (n + 2) + 1 + (passesLeft s - 1) * passSteps s.cfg s.nb + 1
  | .bround => (n - s.rc) + 1 + (s.nb - s.bi - 1) * (n + 2) + 1 + (passesLeft s - 1) * passSteps s.cfg s.nb + 1
  | .bstore => 1 + (s.nb - s.bi - 1) * (n + 2) + 1 + (passesLeft s - 1) * passSteps s.cfg s.nb + 1
  | .snext => 1 + (passesLeft s - 1) * passSteps s.cfg (numBlocks s.cfg s.outbits.length) + 1
  | .fin => 1

/-- Two states that agree on everything but the sequencer's registers, counters and latches, which no port shows
(R37). -/
structure AgreeOnPorts (s t : State) : Prop where
  cfg : s.cfg = t.cfg
  keybuf : s.keybuf = t.keybuf
  charbuf : s.charbuf = t.charbuf
  inbits : s.inbits = t.inbits
  outbits : s.outbits = t.outbits
  sk : s.sk = t.sk
  skv : s.skv = t.skv
  done : s.done = t.done
  err : s.err = t.err
  lit : s.lit = t.lit
  errcode : s.errcode = t.errcode
  ph : s.ph = t.ph
  todo : s.todo = t.todo
  got : s.got = t.got

end Sys2Proof.Machine
end

