-- ==== Sys2Proof/Certificates/Slice0/Obligations.lean ====
section
/-! DEFINITION. The statements for the provers. Each docstring names the rule of spec/ it formalises, or says what it is
derived from. Where a statement mentions `cfg`, `todo`, `got`, the action `start` or the action `pause`, it rests on the
model's own choices of log entries 1 and 3. The datapath takes proofs of validity and width (R118, R179); a statement gives
it those that its own hypotheses yield. -/

open Sys2Proof Sys2Proof.Machine

/-! ## Encoding -/

/-- The worked words and the illegal examples of 30_encoding.md section 4 (there derived from the opcode map). -/
def Obligations.WorkedEncodings : Prop :=
  decode 0x2073#16 = .command (.kpush 0x73#8) ∧ decode 0x3020#16 = .command (.cpush 0x20#8) ∧
  decode 0x4001#16 = .command (.bpush 1#1) ∧ decode 0x102F#16 = .command (.clr 0b101111#6) ∧
  decode 0x5000#16 = .command .encode ∧ decode 0x6000#16 = .command .movo ∧
  decode 0x8100#16 = .command .keygenT ∧ decode 0x9000#16 = .command .enc ∧ decode 0x9100#16 = .command .tenc ∧
  decode 0x9200#16 = .command .dec ∧ decode 0x9300#16 = .command .tdec ∧
  (∀ cw ∈ [0x7000#16, 0x0001#16, 0x9400#16, 0x10FF#16, 0x4002#16, 0x8200#16], ∃ why, decode cw = .illegal why)

/-- Decoding and encoding agree, both ways, for every word and every command (30_encoding.md sections 1 to 3). -/
def Obligations.DecodeExactlyInvertsEncode : Prop :=
  ∀ (cw : CmdWord) (i : Instr), decode cw = .command i ↔ cw = encode i

/-- The decoder reads from a word the command of the one row the word selects, and the rows exclude each other. Derived
(30_encoding.md section 2): R93 states `cw AND mask = match`; that the rows are mutually exclusive is the sentence it marks
"[derived: any two rows differ in a fixed bit]". -/
def Obligations.OpcodeMapSelectsTheCommand : Prop :=
  (∀ (cw : CmdWord) (i : Instr), decode cw = .command i →
    ∃ row ∈ opcodeMap, row.mnemonic = mnemonicOf i ∧ cw &&& row.mask = row.pattern) ∧
  (∀ (cw : CmdWord), ∀ row ∈ opcodeMap, cw &&& row.mask = row.pattern →
    ∃ i, decode cw = .command i ∧ mnemonicOf i = row.mnemonic) ∧
  (∀ (cw : CmdWord), ∀ r1 ∈ opcodeMap, ∀ r2 ∈ opcodeMap,
    cw &&& r1.mask = r1.pattern → cw &&& r2.mask = r2.pattern → r1 = r2)

/-- The list of illegal words of 30_encoding.md section 3, in terms of the word's number. -/
def Obligations.IllegalWordsAreTheListed : Prop :=
  ∀ cw : CmdWord,
    let op := cw.toNat / 4096
    let sub := cw.toNat / 256 % 16
    let imm := cw.toNat % 256
    (∃ why, decode cw = .illegal why) ↔
      op = 7 ∨ 10 ≤ op ∨ (op = 0 ∧ (sub ≠ 0 ∨ imm ≠ 0)) ∨ (op = 1 ∧ (sub ≠ 0 ∨ 64 ≤ imm)) ∨
      ((op = 2 ∨ op = 3) ∧ sub ≠ 0) ∨ (op = 4 ∧ (sub ≠ 0 ∨ 2 ≤ imm)) ∨
      ((op = 5 ∨ op = 6) ∧ (sub ≠ 0 ∨ imm ≠ 0)) ∨ (op = 8 ∧ (2 ≤ sub ∨ imm ≠ 0)) ∨ (op = 9 ∧ (4 ≤ sub ∨ imm ≠ 0))

/-- R97, R98: a line assembles exactly when its operand is in range, to a command whose word carries that operand, and
the pseudo-instructions expand as listed. -/
def Obligations.AssemblerLinesAndPseudoInstructions : Prop :=
  (∀ n, (∃ i, assemble (.kpush n) = some i) ↔ n ≤ 255) ∧ (∀ n, (∃ i, assemble (.cpush n) = some i) ↔ n ≤ 255) ∧
  (∀ n, (∃ i, assemble (.bpush n) = some i) ↔ n = 0 ∨ n = 1) ∧ (∀ n, (∃ i, assemble (.clr n) = some i) ↔ n ≤ 63) ∧
  (∀ n i, assemble (.kpush n) = some i → (encode i).toNat = 0x2000 + n) ∧
  (∀ n i, assemble (.cpush n) = some i → (encode i).toNat = 0x3000 + n) ∧
  (∀ n i, assemble (.bpush n) = some i → (encode i).toNat = 0x4000 + n) ∧
  (∀ n i, assemble (.clr n) = some i → (encode i).toNat = 0x1000 + n) ∧
  (∀ cs, expandPseudo (.key cs) = cs.map Instr.kpush) ∧ (∀ cs, expandPseudo (.text cs) = cs.map Instr.cpush) ∧
  (∀ vs, expandPseudo (.bits vs) = vs.map Instr.bpush) ∧
  expandPseudo .processF = [.encode, .enc] ∧ expandPseudo .processR = [.encode, .dec] ∧
  expandPseudo .tprocessF = [.encode, .tenc] ∧ expandPseudo .tprocessR = [.encode, .tdec] ∧
  (expandPseudo .newmsg).map encode = [0x101E#16] ∧ (expandPseudo .newkey).map encode = [0x1021#16]

/-! ## The step -/

/-- A step of an idle core runs the decoded command, with nothing added but that the host's action is used up; the same
for the word of an opcode-table row presented by the interface. Derived (00_scope.md section 7, log entry 3). -/
def Obligations.StepRunsTheDecodedCommand : Prop :=
  (∀ (s : State) (w : CmdWord) (rest : List HostAction) (i : Instr), cfgValid s.cfg = true → s.ph = .idle →
    s.todo = .command w :: rest → decode w = .command i → step s = exec i { s with todo := rest }) ∧
  (∀ (s : State) (i : Instr), cfgValid s.cfg = true →
    step (s.withFetchWord 16 (encode i).toNat) = exec i { s with ph := .idle })

/-- R262: an illegal word raises `IllegalCommand` and changes nothing else. -/
def Obligations.IllegalWordOnlyRaises : Prop :=
  ∀ (s : State) (w : CmdWord) (rest : List HostAction) (why : IllegalWord), cfgValid s.cfg = true → s.ph = .idle →
    s.todo = .command w :: rest ∨ s.todo = .start w :: rest → decode w = .illegal why →
    step s = .next { s with todo := rest, err := true, errcode := if s.err then s.errcode else 2#2 }

/-- R290: reset is honoured in any phase, abandons what runs and leaves the reset state; the configuration stays, and so
does the host's side. -/
def Obligations.ResetInAnyPhase : Prop :=
  ∀ (s : State) (rest : List HostAction), cfgValid s.cfg = true → s.todo = .reset :: rest →
    let bank := List.replicate s.cfg.rounds (List.replicate 48 false)
    step s = .next
      { cfg := s.cfg, keybuf := [], charbuf := [], inbits := [], outbits := [], sk := ⟨bank, bank, bank⟩,
        skv := ⟨false, false, false⟩, done := false, err := false, lit := false, errcode := 0#2,
        c := List.replicate (s.cfg.pc1.length / 2) false, d := List.replicate (s.cfg.pc1.length / 2) false,
        l := List.replicate (s.cfg.block / 2) false, r := List.replicate (s.cfg.block / 2) false,
        rc := 0, bi := 0, nb := 0, stg := 0, bnk := 0, ph := .idle, opt := false, opd := false, kgo := false,
        todo := rest, got := s.got }

/-- R38: the reset values of 10_state.md section 8, element by element, in every configuration. -/
def Obligations.ResetStateValues : Prop :=
  ∀ cfg : Cfg,
    let s := resetState cfg
    s.cfg = cfg ∧ s.keybuf = [] ∧ s.charbuf = [] ∧ s.inbits = [] ∧ s.outbits = [] ∧
    (∀ b, (s.sk.get b).length = cfg.rounds ∧ ∀ k ∈ s.sk.get b, k = zeros 48) ∧ (∀ b, s.skv.get b = false) ∧
    s.done = false ∧ s.err = false ∧ s.lit = false ∧ s.errcode = 0#2 ∧ s.ph = .idle ∧
    s.c = zeros (cfg.ksw / 2) ∧ s.d = zeros (cfg.ksw / 2) ∧ s.l = zeros (cfg.block / 2) ∧ s.r = zeros (cfg.block / 2) ∧
    s.rc = 0 ∧ s.bi = 0 ∧ s.nb = 0 ∧ s.stg = 0 ∧ s.bnk = 0 ∧ s.opt = false ∧ s.opd = false ∧ s.kgo = false

/-- An idle core with nothing presented keeps all its state; while the sequencer runs, a command or a read that is
presented waits: the step is one phase rule and nothing is taken from the host or given to it; so whatever a step gives
the host was read from an idle core, and `BUSY` reads 0. Derived (20_memory.md section 6, 60_exceptions.md section 5, log
entry 3). -/
def Obligations.TransactionsWaitForIdle : Prop :=
  (∀ s : State, cfgValid s.cfg = true → s.ph = .idle → s.todo = [] → step s = .next s) ∧
  (∀ s : State, Inv s → s.ph ≠ .idle → (∀ a ∈ s.todo.head?, a ≠ .reset ∧ a ≠ .pause) →
    ∃ t, step s = .next t ∧ t = phaseStep s ∧ t.todo = s.todo ∧ t.got = s.got) ∧
  (∀ s t : State, step s = .next t → t.got ≠ s.got →
    ∃ ra, t.got = s.got ++ [readPort s ra] ∧ s.ph = .idle ∧ (readPort s 0#16).getLsbD 0 = false)

/-- No step changes the configuration. Derived (10_state.md section 1, log entry 1). -/
def Obligations.StepKeepsConfiguration : Prop :=
  ∀ s t : State, step s = .next t → t.cfg = s.cfg

/-! ## The read port -/

/-- R66: a read gives the host one word of the current state and changes nothing of the core. -/
def Obligations.ReadHasNoSideEffect : Prop :=
  ∀ (s : State) (ra : ReadAddr) (rest : List HostAction), cfgValid s.cfg = true → s.ph = .idle →
    s.todo = .read ra :: rest → step s = .next { s with todo := rest, got := s.got ++ [readPort s ra] }

/-- The bits of `STATUS` (10_state.md section 6). -/
def Obligations.StatusWordBits : Prop :=
  ∀ s : State,
    ((readPort s 0x0000#16).getLsbD 0 = true ↔ s.ph ≠ .idle) ∧ (readPort s 0x0000#16).getLsbD 1 = s.done ∧
    (readPort s 0x0000#16).getLsbD 2 = s.err ∧ (readPort s 0x0000#16).getLsbD 3 = s.lit ∧
    (readPort s 0x0000#16).getLsbD 4 = s.skv.get 0 ∧ (readPort s 0x0000#16).getLsbD 5 = s.skv.get 1 ∧
    (readPort s 0x0000#16).getLsbD 6 = s.skv.get 2 ∧ ∀ n, 7 ≤ n → (readPort s 0x0000#16).getLsbD n = false

/-- The register words of the map, 0x0001 to 0x000E (20_memory.md section 4, 10_state.md section 6). In a state that
satisfies the invariant a bound of R135(j) makes `N`, `B`, `CHARCAP`, `BITCAP` and the lengths of `CHARBUF`, `INBITS` and
`OUTBITS` fit 32 bits, and those words are the numbers themselves. The spec bounds neither `KEYCAP` (and so `KEYLEN`) nor
`KW` and `KSW`: that these words are the numbers modulo 2^32 is the model's own reading, log entry 11 (DEDUCED). -/
def Obligations.RegisterWords : Prop :=
  ∀ s : State,
    (readPort s 0x0001#16).toNat = s.errcode.toNat ∧ readPort s 0x0002#16 = BitVec.ofNat 32 s.keybuf.length ∧
    readPort s 0x000C#16 = BitVec.ofNat 32 s.cfg.keycap ∧ readPort s 0x0008#16 = BitVec.ofNat 32 s.cfg.kw ∧
    readPort s 0x000A#16 = BitVec.ofNat 32 s.cfg.pc1.length ∧ (readPort s 0x000B#16).toNat = 48 ∧
    (readPort s 0x0009#16).toNat = s.cfg.useIp.toNat + 2 * (if s.cfg.kw = s.cfg.pc1.length then 0 else 1) ∧
    (Inv s →
      (readPort s 0x0003#16).toNat = s.charbuf.length ∧ (readPort s 0x0004#16).toNat = s.inbits.length ∧
      (readPort s 0x0005#16).toNat = s.outbits.length ∧ (readPort s 0x0006#16).toNat = s.cfg.rounds ∧
      (readPort s 0x0007#16).toNat = s.cfg.block ∧ (readPort s 0x000D#16).toNat = s.cfg.charcap ∧
      (readPort s 0x000E#16).toNat = s.cfg.bitcap) ∧
    readPort s 0x0007#16 = BitVec.ofNat 32 s.cfg.block

/-- R71: an unmapped address reads 0, raises no error and changes no state; reserved bits inside mapped words read 0. -/
def Obligations.UnmappedReadsZero : Prop :=
  (∀ (s : State) (ra : ReadAddr), (0x000F ≤ ra.toNat ∧ ra.toNat ≤ 0x3FFF) ∨ 0x8C00 ≤ ra.toNat →
    readPort s ra = 0#32 ∧
    ∀ rest, cfgValid s.cfg = true → s.ph = .idle → s.todo = .read ra :: rest →
      step s = .next { s with todo := rest, got := s.got ++ [0#32] }) ∧
  (∀ (s : State) (n : Nat),
    (7 ≤ n → (readPort s 0x0000#16).getLsbD n = false) ∧ (2 ≤ n → (readPort s 0x0001#16).getLsbD n = false) ∧
    (2 ≤ n → (readPort s 0x0009#16).getLsbD n = false) ∧
    ∀ i, i < 0x4000 → 8 ≤ n → (readPort s (BitVec.ofNat 16 (0x4000 + i))).getLsbD n = false)

/-- R69: bit `7 - j` of `OUTBYTE[i]` is output bit `8*i + j`, 0 beyond the output, and the upper bits are 0. -/
def Obligations.OutputByteBits : Prop :=
  ∀ (s : State) (i : Nat), i < 0x4000 →
    (∀ j, j < 8 → (readPort s (BitVec.ofNat 16 (0x4000 + i))).getLsbD (7 - j) = s.outbits.getD (8 * i + j) false) ∧
    ∀ n, 8 ≤ n → (readPort s (BitVec.ofNat 16 (0x4000 + i))).getLsbD n = false

/-- R70: bit `31 - j` of `SKDBG` at bank `b`, round `r`, word `w` is bit `32*w + j` of the subkey, 0 beyond its 48 bits
and where the round does not exist; an invalid bank reads 0. -/
def Obligations.SubkeyWindowBits : Prop :=
  ∀ (s : State) (b : Fin 3) (r w : Nat), Inv s → r < 256 → w < 4 →
    let rd := readPort s (BitVec.ofNat 16 (0x8000 + 1024 * b.val + 4 * r + w))
    (s.cfg.rounds ≤ r → rd = 0#32) ∧
    (r < s.cfg.rounds → ∀ j, j < 32 → rd.getLsbD (31 - j) = ((s.sk.get b).getD r []).getD (32 * w + j) false) ∧
    (s.ph = .idle → s.skv.get b = false → rd = 0#32)

/-! ## Short commands -/

/-- R241: `NOP` changes nothing; every other word with `op = 0` is illegal. -/
def Obligations.NopChangesNothing : Prop :=
  (∀ s : State, exec .nop s = .next s) ∧ decode 0x0000#16 = .command .nop ∧
  (∀ cw : CmdWord, fieldOp cw = 0#4 → cw ≠ 0x0000#16 → ∃ why, decode cw = .illegal why)

/-- R242: `CLR m` clears exactly what its mask selects, all of it together. -/
def Obligations.ClrClearsExactlyItsMask : Prop :=
  ∀ (m : BitVec 6) (s : State), exec (.clr m) s = .next
    { s with
      keybuf := if m.getLsbD 0 then [] else s.keybuf, charbuf := if m.getLsbD 1 then [] else s.charbuf,
      inbits := if m.getLsbD 2 then [] else s.inbits, outbits := if m.getLsbD 3 then [] else s.outbits,
      done := if m.getLsbD 4 then false else s.done, err := if m.getLsbD 4 then false else s.err,
      lit := if m.getLsbD 4 then false else s.lit, errcode := if m.getLsbD 4 then 0#2 else s.errcode,
      sk := if m.getLsbD 5 then ⟨zeroBank s.cfg, zeroBank s.cfg, zeroBank s.cfg⟩ else s.sk,
      skv := if m.getLsbD 5 then ⟨false, false, false⟩ else s.skv }

/-- `CLR 0x3F` reaches the reset state, up to the sequencer's registers, from any idle state. Derived
(70_reset_and_hazards.md section 1, there marked derived). -/
def Obligations.ClrAllIsArchitecturalReset : Prop :=
  ∀ s : State, s.ph = .idle → ∃ t, exec (.clr 0x3F#6) s = .next t ∧
    AgreeOnPorts t { resetState s.cfg with todo := s.todo, got := s.got }

/-- R243: `KPUSH b` appends the eight bits of `b`, most significant first, or raises `BufferOverflow` and appends
nothing. -/
def Obligations.KpushAppendsByte : Prop :=
  ∀ (b : Byte) (s : State),
    (s.keybuf.length + 8 > s.cfg.keycap → exec (.kpush b) s =
      .next { s with err := true, errcode := if s.err then s.errcode else 3#2, ph := .idle }) ∧
    (s.keybuf.length + 8 ≤ s.cfg.keycap → exec (.kpush b) s =
      .next { s with keybuf := s.keybuf ++ [b.getLsbD 7, b.getLsbD 6, b.getLsbD 5, b.getLsbD 4, b.getLsbD 3, b.getLsbD 2,
        b.getLsbD 1, b.getLsbD 0] })

/-- R244: `CPUSH b` appends the character `b`, or raises `BufferOverflow` and appends nothing. -/
def Obligations.CpushAppendsCharacter : Prop :=
  ∀ (b : Byte) (s : State),
    (s.charbuf.length + 1 > s.cfg.charcap → exec (.cpush b) s =
      .next { s with err := true, errcode := if s.err then s.errcode else 3#2, ph := .idle }) ∧
    (s.charbuf.length + 1 ≤ s.cfg.charcap → exec (.cpush b) s = .next { s with charbuf := s.charbuf ++ [b] })

/-- R245: `BPUSH v` appends the bit `v`, or raises `BufferOverflow` and appends nothing. -/
def Obligations.BpushAppendsBit : Prop :=
  ∀ (v : BitVec 1) (s : State),
    (s.inbits.length + 1 > s.cfg.bitcap → exec (.bpush v) s =
      .next { s with err := true, errcode := if s.err then s.errcode else 3#2, ph := .idle }) ∧
    (s.inbits.length + 1 ≤ s.cfg.bitcap → exec (.bpush v) s = .next { s with inbits := s.inbits ++ [v == 1#1] })

/-- R190: the classification is all or nothing: every character `'0'` or `'1'` gives one bit each, anything else gives
eight bits for every byte, most significant first; a bit sequence is never classified. -/
def Obligations.InputClassification : Prop :=
  (∀ bs, encodeInput (.bits bs) = (bs, none)) ∧
  (∀ cs : List Byte, (∀ c ∈ cs, c = 0x30#8 ∨ c = 0x31#8) →
    encodeInput (.chars cs) = (cs.map (fun c => c == 0x31#8), some true)) ∧
  (∀ cs : List Byte, (∃ c ∈ cs, c ≠ 0x30#8 ∧ c ≠ 0x31#8) →
    encodeInput (.chars cs) =
      (cs.flatMap (fun c => [c.getLsbD 7, c.getLsbD 6, c.getLsbD 5, c.getLsbD 4, c.getLsbD 3, c.getLsbD 2, c.getLsbD 1,
        c.getLsbD 0]), some false))

/-- R191: `ENCODE` replaces `INBITS` by the encoding of `CHARBUF` and writes `LIT`; the overflow cannot happen in a valid
configuration. -/
def Obligations.EncodeReplacesInput : Prop :=
  ∀ (s : State) (bs : Bits) (l : Bool), encodeInput (.chars s.charbuf) = (bs, some l) →
    (bs.length ≤ s.cfg.bitcap → exec .encode s = .next { s with inbits := bs, lit := l }) ∧
    (bs.length > s.cfg.bitcap → exec .encode s =
      .next { s with err := true, errcode := if s.err then s.errcode else 3#2, ph := .idle }) ∧
    (cfgValid s.cfg = true → s.charbuf.length ≤ s.cfg.charcap → bs.length ≤ s.cfg.bitcap)

/-- R246: `MOVO` copies `OUTBITS` into `INBITS`. -/
def Obligations.MovoCopiesOutput : Prop :=
  ∀ s : State, exec .movo s = .next { s with inbits := s.outbits }

/-- What all short commands leave alone: the sequencer's registers, an idle phase, and, `CLR` apart, `DONE` and the banks;
and an error leaves every buffer as it was, whether or not one was recorded before: `ERR` does not steer a command, so the
error a command raises is seen in what it answers with `ERR` cleared before it. Derived (46_host_commands.md, its common
behaviour; 60_exceptions.md section 2). -/
def Obligations.ShortCommandsFrame : Prop :=
  ∀ (i : Instr) (s t : State), longFieldsOf i = none → s.ph = .idle → exec i s = .next t →
    t = { t with
      c := s.c, d := s.d, l := s.l, r := s.r, rc := s.rc, bi := s.bi, nb := s.nb, stg := s.stg, bnk := s.bnk,
      opt := s.opt, opd := s.opd, kgo := s.kgo, ph := .idle, cfg := s.cfg, todo := s.todo, got := s.got } ∧
    ((∀ m, i ≠ .clr m) → t.done = s.done ∧ t.sk = s.sk ∧ t.skv = s.skv) ∧
    (∀ u, exec i { s with err := false } = .next u → u.err = true →
      t.err = true ∧ t.keybuf = s.keybuf ∧ t.charbuf = s.charbuf ∧ t.inbits = s.inbits ∧ t.outbits = s.outbits)

/-! ## Long commands -/

/-- R158: `KEYGEN.S` and `KEYGEN.T`, with a key of the right length and with any other. -/
def Obligations.KeygenCommands : Prop :=
  ∀ s : State, cfgValid s.cfg = true →
    (s.keybuf.length = s.cfg.kw → ∃ k0 h, genSubKeys s.cfg s.keybuf = .ok k0 ∧
      exec .keygenS s = .next (withHidden
        { s with
          done := true, sk := ⟨k0, zeroBank s.cfg, zeroBank s.cfg⟩, skv := ⟨true, false, false⟩, opt := false,
          opd := false, kgo := true, ph := .idle } h)) ∧
    (s.keybuf.length = 3 * s.cfg.kw → ∃ k0 k1 k2 h,
      genSubKeys s.cfg (slice s.keybuf 0 s.cfg.kw) = .ok k0 ∧
      genSubKeys s.cfg (slice s.keybuf s.cfg.kw (2 * s.cfg.kw)) = .ok k1 ∧
      genSubKeys s.cfg (slice s.keybuf (2 * s.cfg.kw) (3 * s.cfg.kw)) = .ok k2 ∧
      exec .keygenT s = .next (withHidden
        { s with
          done := true, sk := ⟨k0, k1, k2⟩, skv := ⟨true, true, true⟩, opt := true, opd := false, kgo := true,
          ph := .idle } h)) ∧
    (s.keybuf.length ≠ s.cfg.kw → exec .keygenS s = .next
      { s with
        done := false, sk := ⟨zeroBank s.cfg, zeroBank s.cfg, zeroBank s.cfg⟩, skv := ⟨false, false, false⟩,
        opt := false, opd := false, kgo := true, ph := .idle, err := true,
        errcode := if s.err then s.errcode else 1#2 }) ∧
    (s.keybuf.length ≠ 3 * s.cfg.kw → exec .keygenT s = .next
      { s with
        done := false, sk := ⟨zeroBank s.cfg, zeroBank s.cfg, zeroBank s.cfg⟩, skv := ⟨false, false, false⟩,
        opt := true, opd := false, kgo := true, ph := .idle, err := true,
        errcode := if s.err then s.errcode else 1#2 })

/-- R201: `ENC` and `DEC`, with a key of the right length and with any other. -/
def Obligations.CryptCommands : Prop :=
  ∀ (s : State) (hv : cfgValid s.cfg = true),
    (s.keybuf.length = s.cfg.kw → ∃ (k0 : List Bits) (f0 : SubkeysFit k0), genSubKeys s.cfg s.keybuf = .ok k0 ∧
      (∃ out h, process s.cfg hv (.bits s.inbits) s.keybuf true = .ok out ∧ out = processBits s.cfg hv s.inbits k0 f0 true ∧
        (∀ cs, s.inbits = (encodeInput (.chars cs)).1 → process s.cfg hv (.chars cs) s.keybuf true = .ok out) ∧
        exec .enc s = .next (withHidden
          { s with
            done := true, sk := ⟨k0, zeroBank s.cfg, zeroBank s.cfg⟩, skv := ⟨true, false, false⟩, outbits := out,
            opt := false, opd := false, kgo := false, ph := .idle } h)) ∧
      (∃ out h, process s.cfg hv (.bits s.inbits) s.keybuf false = .ok out ∧ out = processBits s.cfg hv s.inbits k0 f0 false ∧
        (∀ cs, s.inbits = (encodeInput (.chars cs)).1 → process s.cfg hv (.chars cs) s.keybuf false = .ok out) ∧
        exec .dec s = .next (withHidden
          { s with
            done := true, sk := ⟨k0, zeroBank s.cfg, zeroBank s.cfg⟩, skv := ⟨true, false, false⟩, outbits := out,
            opt := false, opd := true, kgo := false, ph := .idle } h))) ∧
    (s.keybuf.length ≠ s.cfg.kw →
      exec .enc s = .next
        { s with
          done := false, sk := ⟨zeroBank s.cfg, zeroBank s.cfg, zeroBank s.cfg⟩, skv := ⟨false, false, false⟩,
          outbits := [], opt := false, opd := false, kgo := false, ph := .idle, err := true,
          errcode := if s.err then s.errcode else 1#2 } ∧
      exec .dec s = .next
        { s with
          done := false, sk := ⟨zeroBank s.cfg, zeroBank s.cfg, zeroBank s.cfg⟩, skv := ⟨false, false, false⟩,
          outbits := [], opt := false, opd := true, kgo := false, ph := .idle, err := true,
          errcode := if s.err then s.errcode else 1#2 })

/-- R235: `TENC` and `TDEC`, with a wide key of the right length and with any other; the second stage's output is what
`INBITS` holds afterwards. -/
def Obligations.CascadeCommands : Prop :=
  ∀ (s : State) (hv : cfgValid s.cfg = true),
    (s.keybuf.length = 3 * s.cfg.kw → ∃ (k0 k1 k2 : List Bits) (f0 : SubkeysFit k0) (f1 : SubkeysFit k1) (f2 : SubkeysFit k2),
      genSubKeys s.cfg (slice s.keybuf 0 s.cfg.kw) = .ok k0 ∧
      genSubKeys s.cfg (slice s.keybuf s.cfg.kw (2 * s.cfg.kw)) = .ok k1 ∧
      genSubKeys s.cfg (slice s.keybuf (2 * s.cfg.kw) (3 * s.cfg.kw)) = .ok k2 ∧
      (∃ t1 t2 t3 h, t1 = processBits s.cfg hv s.inbits k0 f0 true ∧ t2 = processBits s.cfg hv t1 k1 f1 true ∧
        t3 = processBits s.cfg hv t2 k2 f2 true ∧ tripleProcess s.cfg hv (.bits s.inbits) s.keybuf true = .ok t3 ∧
        exec .tenc s = .next (withHidden
          { s with
            done := true, sk := ⟨k0, k1, k2⟩, skv := ⟨true, true, true⟩, inbits := t2, outbits := t3, opt := true,
            opd := false, kgo := false, ph := .idle } h)) ∧
      (∃ t1 t2 t3 h, t1 = processBits s.cfg hv s.inbits k2 f2 false ∧ t2 = processBits s.cfg hv t1 k1 f1 false ∧
        t3 = processBits s.cfg hv t2 k0 f0 false ∧ tripleProcess s.cfg hv (.bits s.inbits) s.keybuf false = .ok t3 ∧
        exec .tdec s = .next (withHidden
          { s with
            done := true, sk := ⟨k0, k1, k2⟩, skv := ⟨true, true, true⟩, inbits := t2, outbits := t3, opt := true,
            opd := true, kgo := false, ph := .idle } h))) ∧
    (s.keybuf.length ≠ 3 * s.cfg.kw →
      exec .tenc s = .next
        { s with
          done := false, sk := ⟨zeroBank s.cfg, zeroBank s.cfg, zeroBank s.cfg⟩, skv := ⟨false, false, false⟩,
          outbits := [], opt := true, opd := false, kgo := false, ph := .idle, err := true,
          errcode := if s.err then s.errcode else 1#2 } ∧
      exec .tdec s = .next
        { s with
          done := false, sk := ⟨zeroBank s.cfg, zeroBank s.cfg, zeroBank s.cfg⟩, skv := ⟨false, false, false⟩,
          outbits := [], opt := true, opd := true, kgo := false, ph := .idle, err := true,
          errcode := if s.err then s.errcode else 1#2 })

/-- After `ENCODE` and a long command the output is the functional layer's result on the characters. Derived
(44_block_pipeline.md section 2, 45_cascade.md section 2). -/
def Obligations.EncodeThenCryptIsProcess : Prop :=
  ∀ (s : State) (hv : cfgValid s.cfg = true), s.charbuf.length ≤ s.cfg.charcap →
    ∃ t, exec .encode s = .next t ∧
      (s.keybuf.length = s.cfg.kw →
        (∃ u, exec .enc t = .next u ∧ process s.cfg hv (.chars s.charbuf) s.keybuf true = .ok u.outbits) ∧
        (∃ u, exec .dec t = .next u ∧ process s.cfg hv (.chars s.charbuf) s.keybuf false = .ok u.outbits)) ∧
      (s.keybuf.length = 3 * s.cfg.kw →
        (∃ u, exec .tenc t = .next u ∧ tripleProcess s.cfg hv (.chars s.charbuf) s.keybuf true = .ok u.outbits) ∧
        (∃ u, exec .tdec t = .next u ∧ tripleProcess s.cfg hv (.chars s.charbuf) s.keybuf false = .ok u.outbits))

/-- R261: a long command raises `InvalidKey` exactly when the key buffer's length is not the one it needs, whatever the
input, in the first phase after acceptance, `KCHK`; then no bank is valid, `DONE` is 0, and the key, the characters, the input and `LIT` are as before. -/
def Obligations.InvalidKeyExactlyOnLength : Prop :=
  ∀ (i : Instr) (f : LongFields) (s : State), longFieldsOf i = some f → cfgValid s.cfg = true → ∃ t, exec i s = .next t ∧
    (t.done = true ↔ s.keybuf.length = if f.triple then 3 * s.cfg.kw else s.cfg.kw) ∧
    (t.done = true → t.err = s.err ∧ t.errcode = s.errcode) ∧
    (t.done = false →
      t.err = true ∧ t.errcode = (if s.err then s.errcode else 1#2) ∧ t.ph = .idle ∧
      (∀ b, t.sk.get b = zeroBank s.cfg ∧ t.skv.get b = false) ∧ t.keybuf = s.keybuf ∧ t.charbuf = s.charbuf ∧
      t.inbits = s.inbits ∧ t.lit = s.lit ∧ (t.outbits = if f.keyOnly then s.outbits else []) ∧
      (acceptLong f s).ph = .kchk ∧ t = phaseStep (acceptLong f s))

/-- Which commands can change which part of the state (10_state.md sections 2, 3 and 6); the configuration and the host's
side change with none. `ERR` and `ERRCODE` change with a command that can raise an error, or with `CLR` bit F
(60_exceptions.md section 2). Derived. -/
def Obligations.OnlyNamedCommandsWrite : Prop :=
  ∀ (i : Instr) (s t : State), cfgValid s.cfg = true → exec i s = .next t →
    (t.keybuf ≠ s.keybuf → (∃ b, i = .kpush b) ∨ ∃ m, i = .clr m ∧ m.getLsbD 0 = true) ∧
    (t.charbuf ≠ s.charbuf → (∃ b, i = .cpush b) ∨ ∃ m, i = .clr m ∧ m.getLsbD 1 = true) ∧
    (t.inbits ≠ s.inbits →
      (∃ v, i = .bpush v) ∨ i = .encode ∨ i = .movo ∨ i = .tenc ∨ i = .tdec ∨ ∃ m, i = .clr m ∧ m.getLsbD 2 = true) ∧
    (t.outbits ≠ s.outbits →
      i = .enc ∨ i = .dec ∨ i = .tenc ∨ i = .tdec ∨ ∃ m, i = .clr m ∧ m.getLsbD 3 = true) ∧
    (t.done ≠ s.done → longFieldsOf i ≠ none ∨ ∃ m, i = .clr m ∧ m.getLsbD 4 = true) ∧
    (t.lit ≠ s.lit → i = .encode ∨ ∃ m, i = .clr m ∧ m.getLsbD 4 = true) ∧
    (t.err ≠ s.err ∨ t.errcode ≠ s.errcode →
      (∃ b, i = .kpush b) ∨ (∃ b, i = .cpush b) ∨ (∃ v, i = .bpush v) ∨ i = .encode ∨ longFieldsOf i ≠ none ∨
        ∃ m, i = .clr m ∧ m.getLsbD 4 = true) ∧
    (t.sk ≠ s.sk ∨ t.skv ≠ s.skv → longFieldsOf i ≠ none ∨ ∃ m, i = .clr m ∧ m.getLsbD 5 = true) ∧
    t.cfg = s.cfg ∧ t.todo = s.todo ∧ t.got = s.got

/-- An error flag stays: no command but `CLR` with bit F clears `ERR`, and the first code is kept. Derived
(60_exceptions.md section 2). -/
def Obligations.FirstErrorIsKept : Prop :=
  ∀ (i : Instr) (s t : State), cfgValid s.cfg = true → exec i s = .next t → s.err = true →
    (∀ m, i = .clr m → m.getLsbD 4 = false) → t.err = true ∧ t.errcode = s.errcode

/-- A recorded error does not block, alter or fail any later command. Derived (60_exceptions.md section 2). -/
def Obligations.ErrorDoesNotAlterCommands : Prop :=
  ∀ (i : Instr) (s t : State) (e : Bool) (c : BitVec 2), cfgValid s.cfg = true → exec i s = .next t →
    ∃ e' c', exec i { s with err := e, errcode := c } = .next { t with err := e', errcode := c' }

/-- Decryption with the same key leaves the same banks as encryption, in single and in triple mode, and so does the key
schedule alone. Derived (42_key_schedule.md sections 1 and 2, 44_block_pipeline.md section 2, 45_cascade.md section 2). -/
def Obligations.BanksDoNotDependOnDirection : Prop :=
  ∀ s t1 t2 t3 u1 u2 u3 : State, cfgValid s.cfg = true →
    exec .enc s = .next t1 → exec .dec s = .next t2 → exec .keygenS s = .next t3 →
    exec .tenc s = .next u1 → exec .tdec s = .next u2 → exec .keygenT s = .next u3 →
    t1.sk = t2.sk ∧ t1.sk = t3.sk ∧ t1.skv = t2.skv ∧ t1.skv = t3.skv ∧
    u1.sk = u2.sk ∧ u1.sk = u3.sk ∧ u1.skv = u2.skv ∧ u1.skv = u3.skv

/-! ## The sequencer -/

/-- Acceptance of a long command at the sequencer's level: the latches, the flags, the banks and the output, by command.
Derived (42_key_schedule.md section 3; the action `start` is log entry 3). -/
def Obligations.AcceptanceLatchesTheCommand : Prop :=
  ∀ (s : State) (rest : List HostAction) (i : Instr) (t d g : Bool), cfgValid s.cfg = true → s.ph = .idle →
    s.todo = .start (encode i) :: rest →
    (i, t, d, g) ∈ [(Instr.keygenS, false, false, true), (.keygenT, true, false, true), (.enc, false, false, false),
      (.tenc, true, false, false), (.dec, false, true, false), (.tdec, true, true, false)] →
    let bank := List.replicate s.cfg.rounds (List.replicate 48 false)
    step s = .next
      { s with
        todo := rest, opt := t, opd := d, kgo := g, done := false, skv := ⟨false, false, false⟩,
        sk := ⟨bank, bank, bank⟩, outbits := if g then s.outbits else [], ph := .kchk }

/-- R159 (its phase), R160, R161: the key schedule's phases, one step each, where nothing else is presented. -/
def Obligations.KeySchedulePhases : Prop :=
  ∀ s : State, Inv s → s.todo = [] →
    (s.ph = .kchk → s.keybuf.length ≠ (if s.opt then 3 * s.cfg.kw else s.cfg.kw) →
      step s = .next { s with err := true, errcode := if s.err then s.errcode else 1#2, ph := .idle }) ∧
    (s.ph = .kchk → s.keybuf.length = (if s.opt then 3 * s.cfg.kw else s.cfg.kw) →
      step s = .next { s with bnk := 0, ph := .kload }) ∧
    (s.ph = .kload →
      let seg := slice s.keybuf (s.bnk.val * s.cfg.kw) ((s.bnk.val + 1) * s.cfg.kw)
      let w := if s.cfg.kw = s.cfg.pc1.length then seg else perm s.cfg.pc1 seg
      step s = .next { s with c := (split w).1, d := (split w).2, rc := 0, ph := .kround }) ∧
    (s.ph = .kround →
      let n := s.cfg.shifts.getD s.rc 0
      let c' := rotl s.c n
      let d' := rotl s.d n
      let sk' := s.sk.set s.bnk ((s.sk.get s.bnk).set s.rc (perm s.cfg.pc2 (c' ++ d')))
      (s.rc + 1 < s.cfg.rounds → step s = .next { s with c := c', d := d', sk := sk', rc := s.rc + 1 }) ∧
      (s.rc + 1 = s.cfg.rounds →
        (s.bnk.val + 1 < (if s.opt then 3 else 1) → step s = .next
          { s with c := c', d := d', sk := sk', skv := s.skv.set s.bnk true, rc := 0, bnk := s.bnk + 1, ph := .kload }) ∧
        (s.bnk.val + 1 = (if s.opt then 3 else 1) → s.kgo = true → step s = .next
          { s with c := c', d := d', sk := sk', skv := s.skv.set s.bnk true, rc := 0, ph := .fin }) ∧
        (s.bnk.val + 1 = (if s.opt then 3 else 1) → s.kgo = false → step s = .next
          { s with
            c := c', d := d', sk := sk', skv := s.skv.set s.bnk true, rc := 0, stg := 0, ph := .binit })))

/-- R203 to R207 and R209, and the step of R208: the block phases, one step each, where nothing else is presented. -/
def Obligations.BlockPhases : Prop :=
  ∀ s : State, Inv s → s.todo = [] →
    (s.ph = .binit → step s = .next
      { s with
        nb := ceilDiv s.inbits.length s.cfg.block, bi := 0, outbits := [],
        ph := if ceilDiv s.inbits.length s.cfg.block = 0 then .snext else .bfetch }) ∧
    (s.ph = .bfetch →
      let x := chunk s.cfg s.inbits s.bi
      let y := if s.cfg.useIp then perm s.cfg.ip x else x
      step s = .next { s with l := (split y).1, r := (split y).2, rc := 0, ph := .bround }) ∧
    (s.ph = .bround →
      let bank : Fin 3 := if s.opt then (if s.opd then 2 - s.stg else s.stg) else 0
      let idx := if s.opd then s.cfg.rounds - 1 - s.rc else s.rc
      let k := (s.sk.get bank).getD idx []
      ∃ (hk : k.length = s.cfg.e.length) (hl : s.l.length = (roundF s.cfg s.r k hk).length), step s = .next
        { s with
          l := s.r, r := xorBits s.l (roundF s.cfg s.r k hk) hl, rc := if s.rc + 1 < s.cfg.rounds then s.rc + 1 else s.rc,
          ph := if s.rc + 1 < s.cfg.rounds then .bround else .bstore }) ∧
    (s.ph = .bstore →
      let z := s.r ++ s.l
      let w := if s.cfg.useIp then perm s.cfg.ipinv z else z
      step s = .next
        { s with outbits := s.outbits ++ w, bi := s.bi + 1, ph := if s.bi + 1 < s.nb then .bfetch else .snext }) ∧
    (s.ph = .snext → s.opt = true → s.stg.val < 2 →
      step s = .next { s with inbits := s.outbits, stg := s.stg + 1, ph := .binit }) ∧
    (s.ph = .snext → ¬ (s.opt = true ∧ s.stg.val < 2) → step s = .next { s with ph := .fin }) ∧
    (s.ph = .fin → step s = .next { s with done := true, ph := .idle })

/-- The phase graph: without a reset, a step leads from a phase only to a phase the graph allows. Derived (10_state.md
section 5). -/
def Obligations.PhaseGraph : Prop :=
  ∀ s t : State, Inv s → step s = .next t → s.todo.head? ≠ some .reset →
    match s.ph with
    | .idle => t.ph = .idle ∨ t.ph = .kchk
    | .kchk => t.ph = .idle ∨ t.ph = .kload
    | .kload => t.ph = .kround
    | .kround => t.ph = .kround ∨ t.ph = .kload ∨ t.ph = .fin ∨ t.ph = .binit
    | .binit => t.ph = .bfetch ∨ t.ph = .snext
    | .bfetch => t.ph = .bround
    | .bround => t.ph = .bround ∨ t.ph = .bstore
    | .bstore => t.ph = .bfetch ∨ t.ph = .snext
    | .snext => t.ph = .binit ∨ t.ph = .fin
    | .fin => t.ph = .idle

/-- The sequencer run from acceptance to `IDLE` does what the command does as one transaction, in exactly the number of
steps the spec counts (acceptance is the first), and is not idle in between. Derived (42_key_schedule.md section 3,
44_block_pipeline.md section 3, 45_cascade.md section 2: the refinement rules, there marked derived; `start` is log
entry 3). -/
def Obligations.SequencerRefinesLongCommands : Prop :=
  ∀ (s : State) (i : Instr) (f : LongFields), Inv s → s.ph = .idle → longFieldsOf i = some f →
    s.todo = [.start (encode i)] →
    let n := s.cfg.rounds
    let blocks := ceilDiv s.inbits.length s.cfg.block
    let count :=
      if s.keybuf.length ≠ (if f.triple then 3 * s.cfg.kw else s.cfg.kw) then 2
      else match i with
        | .keygenS => 1 + (1 + 1 * (1 + n)) + 1
        | .keygenT => 1 + (1 + 3 * (1 + n)) + 1
        | .enc | .dec => 6 + n + blocks * (n + 2)
        | .tenc | .tdec => 3 + 3 * (n + 1) + 3 * (2 + blocks * (n + 2))
        | .nop | .clr _ | .kpush _ | .cpush _ | .bpush _ | .encode | .movo => 0
    core.run count s = step { s with todo := [.command (encode i)] } ∧
    ∀ m t, 0 < m → m < count → core.run m s = .next t → t.ph ≠ .idle

/-- The sequencer cannot run forever: while it runs, every step that no reset interrupts takes one from a number of
remaining steps, and that number is 0 in `IDLE` only. Derived (70_reset_and_hazards.md section 4). -/
def Obligations.SequencerCountsDownToIdle : Prop :=
  ∀ s : State, Inv s → s.todo.head? ≠ some .reset →
    (remainingSteps s = 0 ↔ s.ph = .idle) ∧
    (s.ph ≠ .idle → ∃ t, step s = .next t ∧ remainingSteps t + 1 = remainingSteps s)

/-! ## Whole machine -/

/-- The invariant of 10_state.md section 9 with the ranges of sections 2 to 6, at reset in every valid configuration; and
`State.reset` is that state in `CFG-DES64`, a valid configuration (the model's choice, log entry 1; its table values are
log entry 2). -/
def Obligations.InvariantAtReset : Prop :=
  (∀ cfg : Cfg, cfgValid cfg = true → Inv (resetState cfg)) ∧ State.reset = resetState cfgDes64 ∧
    cfgValid cfgDes64 = true

/-- Every step keeps the invariant, whatever the host does (10_state.md section 9, there derived). -/
def Obligations.StepKeepsInvariant : Prop :=
  ∀ s t : State, Inv s → step s = .next t → Inv t

/-- In a state that satisfies the invariant every step answers a next state: nothing in the core hangs or stops; and a
step is refused exactly where the configuration fails the validity check, so is no FCC. Derived (00_scope.md section 7,
41_constant_tables.md section 2, 70_reset_and_hazards.md sections 2 and 4). -/
def Obligations.StepStopsOnlyOutsideTheCore : Prop :=
  (∀ s : State, Inv s → ∃ t, step s = .next t) ∧
  (∀ s : State, step s = .refused .invalidConfiguration ↔ cfgValid s.cfg = false)

/-- Two states that differ only in what no port shows stay so under every transaction: the sequencer's registers cannot be
observed. Derived (10_state.md section 7, there marked derived; transactions only, log entry 3). -/
def Obligations.HiddenStateIsUnobservable : Prop :=
  ∀ s t s' : State, AgreeOnPorts s t → s.ph = .idle → (∀ w, HostAction.start w ∉ s.todo) → step s = .next s' →
    (∃ t', step t = .next t' ∧ AgreeOnPorts s' t') ∧ s'.ph = .idle ∧ ∀ w, HostAction.start w ∉ s'.todo

/-- What the machine encrypts it decrypts: `ENC`, `MOVO`, `DEC` leave the padded input in `OUTBITS`, and the host's
`Unpad` gives the input back; `TENC`, `MOVO`, `TDEC` likewise. Derived (44_block_pipeline.md sections 2 and 4, 45_cascade.md
sections 2 and 3, 46_host_commands.md, its `MOVO`). -/
def Obligations.MachineRoundTrip : Prop :=
  ∀ s : State, cfgValid s.cfg = true →
    (s.keybuf.length = s.cfg.kw → ∃ t u v, exec .enc s = .next t ∧ exec .movo t = .next u ∧ exec .dec u = .next v ∧
      v.outbits = pad s.cfg s.inbits ∧ unpad s.cfg v.outbits s.inbits.length = s.inbits) ∧
    (s.keybuf.length = 3 * s.cfg.kw → ∃ t u v, exec .tenc s = .next t ∧ exec .movo t = .next u ∧ exec .tdec u = .next v ∧
      v.outbits = pad s.cfg s.inbits ∧ unpad s.cfg v.outbits s.inbits.length = s.inbits)

/-! ## The functional layer -/

/-- R112, R113: the two rotations, position by position, on a non-empty sequence; the empty one stays empty. -/
def Obligations.RotationPositions : Prop :=
  ∀ (s : Bits) (n : Nat),
    (rotl s n).length = s.length ∧ (rotr s n).length = s.length ∧
    (∀ i, i < s.length → (rotl s n).getD i false = s.getD ((i + n) % s.length) false) ∧
    (∀ i, i < s.length → (rotr s n).getD ((i + n) % s.length) false = s.getD i false) ∧
    rotl [] n = [] ∧ rotr [] n = []

/-- Rotations add up, undo each other and depend on the amount modulo the length; a right rotation is the left rotation by
the complementary amount; so the rounds of the key schedule rotate by the running sum. Derived (40_bitseq_utilities.md
sections 2 and 6, each there marked derived). -/
def Obligations.RotationLaws : Prop :=
  (∀ (s : Bits) (a b : Nat), rotl (rotl s a) b = rotl s (a + b) ∧ rotr (rotl s a) a = s ∧
    rotl s (a % s.length) = rotl s a) ∧
  (∀ (s : Bits) (n : Nat), 0 < s.length → rotr s n = rotl s (s.length - n % s.length)) ∧
  (∀ (s : Bits) (ns : List Nat), ns.foldl rotl s = rotl s ns.sum)

/-- R119 with its laws (there marked derived), and R118 with its laws: a table reads its source positions; exclusive or
works position by position, on equal lengths only, and goes through a table; two tables compose. Derived
(40_bitseq_utilities.md sections 4 and 5). Clauses one and three also speak of table entries outside the source, where R119
defines nothing: there they rest on the model's choice of log entry 4. -/
def Obligations.PermutationLaws : Prop :=
  (∀ (t : List Nat) (s : Bits) (i : Nat), i < t.length →
    (perm t s).getD i false = s.getD (t.getD i 0 - 1) false) ∧
  (∀ (t : List Nat) (a b : Bits) (h : a.length = b.length), (∀ j ∈ t, 1 ≤ j ∧ j ≤ a.length) →
    perm t (xorBits a b h) = xorBits (perm t a) (perm t b) ((length_perm t a).trans (length_perm t b).symm)) ∧
  (∀ (t u : List Nat) (s : Bits), (∀ j ∈ u, 1 ≤ j ∧ j ≤ t.length) →
    perm u (perm t s) = perm (u.map fun j => t.getD (j - 1) 0) s) ∧
  (∀ (a b : Bits) (h : a.length = b.length),
    (xorBits a b h).length = a.length ∧
    (∀ i, (xorBits a b h).getD i false = Bool.xor (a.getD i false) (b.getD i false)) ∧
    xorBits a b h = xorBits b a h.symm ∧ xorBits (xorBits a b h) b (length_xorBits a b h) = a ∧
    xorBits a a rfl = zeros a.length ∧ xorBits a (zeros a.length) (length_zeros a.length).symm = a ∧
    ∀ (c : Bits) (h' : b.length = c.length),
      xorBits (xorBits a b h) c ((length_xorBits a b h).trans h') =
        xorBits a (xorBits b c h') ((h.trans h').trans (length_xorBits b c h').symm))

/-- R150, R151, R156: the key schedule fails exactly on a key of the wrong length, and otherwise gives `N` subkeys of 48
bits. -/
def Obligations.SubkeyListLength : Prop :=
  ∀ (cfg : Cfg) (k : Bits), cfgValid cfg = true →
    (k.length ≠ cfg.kw → genSubKeys cfg k = .error .invalidKey) ∧
    (k.length = cfg.kw → ∃ sk, genSubKeys cfg k = .ok sk ∧ sk.length = cfg.rounds ∧ ∀ x ∈ sk, x.length = 48)

/-- The subkey of round `i` comes from the two halves of the working key, both rotated left by the sum of the amounts up
to and including round `i`. Derived (42_key_schedule.md section 1, there marked derived). -/
def Obligations.SubkeysFromCumulativeRotation : Prop :=
  ∀ (cfg : Cfg) (k : Bits) (sk : List Bits) (i : Nat), cfgValid cfg = true → genSubKeys cfg k = .ok sk → i < cfg.rounds →
    let w := if cfg.kw = cfg.pc1.length then k else perm cfg.pc1 k
    let t := (cfg.shifts.take (i + 1)).sum
    sk.getD i [] = perm cfg.pc2 (rotl (slice w 0 (w.length / 2)) t ++ rotl (slice w (w.length / 2) w.length) t)

/-- Output bits `4*i .. 4*i+3` of the substitution are the cell of matrix `i` in the row of the outer two and the column of
the inner four of input bits `6*i .. 6*i+5`, most significant bit first; in a valid configuration that cell is below 16, so
these four bits are all of it. Derived (43_round_function.md section 1, R172 and R173). In a configuration that is no FCC, a
cell above 15 gives its low four bits and a cell that is missing counts as 0: the model's choice, log entry 15. -/
def Obligations.SubstitutionLanes : Prop :=
  ∀ (cfg : Cfg) (x : Bits) (i j : Nat), x.length = 48 → i < 8 → j < 4 →
    let c := fun n => (x.getD (6 * i + n) false).toNat
    (sbox cfg x).length = 32 ∧ 2 * c 0 + c 5 < 4 ∧ 8 * c 1 + 4 * c 2 + 2 * c 3 + c 4 < 16 ∧
    let cell := ((cfg.s.getD i []).getD (2 * c 0 + c 5) []).getD (8 * c 1 + 4 * c 2 + 2 * c 3 + c 4) 0
    (cfgValid cfg = true → cell < 16) ∧ (sbox cfg x).getD (4 * i + j) false = cell.testBit (3 - j)

/-- The widths of the round function and of a block in a valid configuration; and a round is undone by `ROUNDINV`, and by
the same round on exchanged halves, under the same subkey, whatever the round function. Derived (43_round_function.md
section 2, there marked derived; the width of a block, 44_block_pipeline.md section 1). -/
def Obligations.RoundWidthsAndInverse : Prop :=
  ∀ (cfg : Cfg) (h x k : Bits) (hv : cfgValid cfg = true) (hx : x.length = cfg.block) (hk : k.length = 48),
    let fits := subkey_fits hv hk
    ∃ (hy : (feistelRound cfg x k fits (block_fits hv hx)).length = cfg.block)
      (hs : (swapHalves (feistelRound cfg x k fits (block_fits hv hx))).length = cfg.block)
      (hm : (expand cfg h).length = k.length),
    let y := feistelRound cfg x k fits (block_fits hv hx)
    (expand cfg h).length = 48 ∧ (keymix (expand cfg h) k hm).length = 48 ∧
    (sbox cfg (keymix (expand cfg h) k hm)).length = 32 ∧ (roundF cfg h k fits).length = cfg.block / 2 ∧
    (∀ (ks : List Bits) (hks : SubkeysFit ks), (blockProcess cfg hv x hx ks hks).length = cfg.block) ∧
    feistelRoundInv cfg y k fits (block_fits hv hy) = x ∧
    swapHalves (feistelRound cfg (swapHalves y) k fits (block_fits hv hs)) = x

/-- R192, R193: the number of blocks, and each block: the chunk with zeros in front; only the last can be short. -/
def Obligations.ChunksAreFrontPadded : Prop :=
  ∀ (cfg : Cfg) (x : Bits), cfgValid cfg = true →
    numBlocks cfg 0 = 0 ∧ (∀ n, 1 ≤ n → n ≤ cfg.block → numBlocks cfg n = 1) ∧ numBlocks cfg (cfg.block + 1) = 2 ∧
    (∀ n, n ≤ numBlocks cfg n * cfg.block ∧ numBlocks cfg n * cfg.block < n + cfg.block) ∧
    ∀ j, j < numBlocks cfg x.length →
      let d := slice x (j * cfg.block) (min ((j + 1) * cfg.block) x.length)
      (chunk cfg x j).length = cfg.block ∧ 1 ≤ d.length ∧ d.length ≤ cfg.block ∧
      chunk cfg x j = List.replicate (cfg.block - d.length) false ++ d ∧
      (j + 1 < numBlocks cfg x.length → d.length = cfg.block) ∧
      (x.length % cfg.block = 0 → chunk cfg x j = slice x (j * cfg.block) ((j + 1) * cfg.block))

/-- R196, R198: the output is the processed blocks in order, `NB * B` bits, block `j` depending on chunk `j` alone; an
empty input gives an empty output, and no other input does. -/
def Obligations.OutputIsBlocksInOrder : Prop :=
  ∀ (cfg : Cfg) (x : Bits) (sk : List Bits) (fwd : Bool) (hv : cfgValid cfg = true) (hs : SubkeysFit sk),
    let out := processBits cfg hv x sk hs fwd
    out.length = numBlocks cfg x.length * cfg.block ∧
    (∀ j, j < numBlocks cfg x.length →
      ∃ (hc : (chunk cfg x j).length = cfg.block) (hu : SubkeysFit (if fwd then sk else sk.reverse)),
        slice out (j * cfg.block) ((j + 1) * cfg.block) =
          blockProcess cfg hv (chunk cfg x j) hc (if fwd then sk else sk.reverse) hu) ∧
    (out = [] ↔ x = []) ∧ (x ≠ [] → cfg.block ≤ out.length) ∧
    ∀ k, process cfg hv (.bits []) k fwd = if k.length = cfg.kw then .ok [] else .error .invalidKey

/-- Processing one way and then the other under the same subkeys gives the padded input, in both orders, and `Unpad` takes
the pad away; a whole number of blocks is padded with nothing. Derived (44_block_pipeline.md section 4, there marked
derived). -/
def Obligations.ProcessRoundTrip : Prop :=
  ∀ (cfg : Cfg) (k x : Bits) (sk : List Bits) (fwd : Bool) (hv : cfgValid cfg = true) (hk : genSubKeys cfg k = .ok sk),
    let hs := genSubKeys_fit hv hk
    processBits cfg hv (processBits cfg hv x sk hs fwd) sk hs (!fwd) = pad cfg x ∧ unpad cfg (pad cfg x) x.length = x ∧
    (x.length % cfg.block = 0 → pad cfg x = x)

/-- R231 to R233: the cascade is three single-key processings of bit sequences, with the segments in the order `k1, k2, k3`
forward and `k3, k2, k1` in reverse, all in one direction; it fails exactly on a key of another length. -/
def Obligations.CascadeIsThreeProcesses : Prop :=
  ∀ (cfg : Cfg) (hv : cfgValid cfg = true) (input : Input) (k : Bits),
    let k1 := slice k 0 cfg.kw
    let k2 := slice k cfg.kw (2 * cfg.kw)
    let k3 := slice k (2 * cfg.kw) (3 * cfg.kw)
    (∀ fwd, k.length ≠ 3 * cfg.kw → tripleProcess cfg hv input k fwd = .error .invalidKey) ∧
    (k.length = 3 * cfg.kw → ∃ s1 s2 s3, process cfg hv input k1 true = .ok s1 ∧ process cfg hv (.bits s1) k2 true = .ok s2 ∧
      process cfg hv (.bits s2) k3 true = .ok s3 ∧ tripleProcess cfg hv input k true = .ok s3) ∧
    (k.length = 3 * cfg.kw → ∃ d1 d2 d3, process cfg hv input k3 false = .ok d1 ∧ process cfg hv (.bits d1) k2 false = .ok d2 ∧
      process cfg hv (.bits d2) k1 false = .ok d3 ∧ tripleProcess cfg hv input k false = .ok d3)

/-- The cascade and its reverse give the padded input. Derived (45_cascade.md section 3, there marked derived). -/
def Obligations.CascadeRoundTrip : Prop :=
  ∀ (cfg : Cfg) (k x y : Bits) (hv : cfgValid cfg = true), tripleProcess cfg hv (.bits x) k true = .ok y →
    tripleProcess cfg hv (.bits y) k false = .ok (pad cfg x) ∧ unpad cfg (pad cfg x) x.length = x

/-- Three whole-message passes are three passes over each block. Derived (45_cascade.md section 3, there marked
derived). -/
def Obligations.CascadeIsPerBlock : Prop :=
  ∀ (cfg : Cfg) (x : Bits) (s1 s2 s3 : List Bits) (fwd : Bool) (hv : cfgValid cfg = true) (h1 : SubkeysFit s1)
    (h2 : SubkeysFit s2) (h3 : SubkeysFit s3),
    let out := processBits cfg hv (processBits cfg hv (processBits cfg hv x s1 h1 fwd) s2 h2 fwd) s3 h3 fwd
    out.length = numBlocks cfg x.length * cfg.block ∧
    ∀ j, j < numBlocks cfg x.length →
      ∃ b1 b2 b3, ∃ (w1 : b1.length = cfg.block) (w2 : b2.length = cfg.block),
        b1 = blockProcess cfg hv (chunk cfg x j) (length_chunk x j) (keyOrder s1 fwd) (keyOrder_fit h1 fwd) ∧
        b2 = blockProcess cfg hv b1 w1 (keyOrder s2 fwd) (keyOrder_fit h2 fwd) ∧
        b3 = blockProcess cfg hv b2 w2 (keyOrder s3 fwd) (keyOrder_fit h3 fwd) ∧
        slice out (j * cfg.block) ((j + 1) * cfg.block) = b3
end

