-- ==== Sys2Proof/Laws/BitSeq.lean ====
section
/-! SUPPORT. Lengths and laws of the bit-sequence utilities (40_bitseq_utilities.md). -/

namespace Sys2Proof.Machine

@[simp] theorem length_bitsN (v n : Nat) : (bitsN v n).length = n := by
  induction n with
  | zero => rfl
  | succ n ih => simp [bitsN, ih]

@[simp] theorem length_bitsOfByte (b : Byte) : (bitsOfByte b).length = 8 := by simp [bitsOfByte]

@[simp] theorem length_bitsOfBytes (bs : List Byte) : (bitsOfBytes bs).length = 8 * bs.length := by
  simp [bitsOfBytes, List.length_flatMap, Nat.mul_comm]

@[simp] theorem length_rotl (s : Bits) (n : Nat) : (rotl s n).length = s.length := by
  unfold rotl
  split
  · simp_all
  · rename_i h
    have := Nat.mod_lt n (Nat.pos_of_ne_zero h)
    simp
    omega

theorem length_swapHalves (s : Bits) (h : s.length % 2 = 0) : (swapHalves s).length = s.length := by
  simp [swapHalves]
  omega

/-- Splitting a concatenation of equally long halves gives them back (R115). -/
theorem split_append (a b : Bits) (h : a.length = b.length) : split (a ++ b) = (a, b) := by
  have hl : (a ++ b).length / 2 = a.length := by simp; omega
  simp only [split, hl, slice]
  have h2 : 2 * a.length - a.length = b.length := by omega
  simp [h2]

/-- For an even length the two halves make the sequence again (R115). -/
theorem split_join (s : Bits) (h : s.length % 2 = 0) : (split s).1 ++ (split s).2 = s := by
  simp only [split, slice, List.drop_zero, Nat.sub_zero]
  have : 2 * (s.length / 2) - s.length / 2 = s.length - s.length / 2 := by omega
  rw [this, List.take_of_length_le (by simp : (s.drop (s.length / 2)).length ≤ s.length - s.length / 2)]
  exact List.take_append_drop _ _

theorem swapHalves_append (a b : Bits) (h : a.length = b.length) : swapHalves (a ++ b) = b ++ a := by
  simp [swapHalves, split_append a b h]

/-- `XOR` without its proof of equal lengths, for the proofs: equal to `XOR` wherever `XOR` is defined (R118). -/
def rawXor (a b : Bits) : Bits := List.zipWith Bool.xor a b

@[simp] theorem xorBits_eq (a b : Bits) (h : a.length = b.length) : xorBits a b h = rawXor a b := rfl

@[simp] theorem length_rawXor (a b : Bits) : (rawXor a b).length = min a.length b.length := by simp [rawXor]

/-- `XOR(XOR(a, b), b) = a` (R118). -/
theorem rawXor_cancel (a b : Bits) (h : a.length = b.length) : rawXor (rawXor a b) b = a := by
  induction a generalizing b with
  | nil => simp [rawXor]
  | cons x a ih =>
    cases b with
    | nil => simp at h
    | cons y b =>
      simp only [rawXor, List.zipWith_cons_cons, List.cons.injEq]
      exact ⟨by cases x <;> cases y <;> rfl, ih b (by simpa using h)⟩

theorem getD_perm (t : List Nat) (s : Bits) (i : Nat) (h : i < t.length) :
    (perm t s).getD i false = s.getD (t.getD i 0 - 1) false := by
  simp [perm, h]

/-- `PERM(U, PERM(T, s)) = s` when `U` has one entry per bit of `s` and `T` undoes `U` (R119). -/
theorem perm_undo (t u : List Nat) (s : Bits) (hu : u.length = s.length)
    (hin : ∀ i, i < u.length → u.getD i 0 - 1 < t.length)
    (hund : ∀ i, i < u.length → t.getD (u.getD i 0 - 1) 0 = i + 1) : perm u (perm t s) = s := by
  apply List.ext_getElem
  · simp [hu]
  · intro i h1 h2
    have hi : i < u.length := by simpa using h1
    have e := getD_perm u (perm t s) i hi
    rw [getD_perm t s _ (hin i hi), hund i hi] at e
    rwa [List.getD_eq_getElem _ _ h1, show i + 1 - 1 = i from rfl, List.getD_eq_getElem _ _ h2] at e

@[simp] theorem rotl_nil (n : Nat) : rotl [] n = [] := by simp [rotl]

/-- `ROTL(s, n)` is the standard left rotation (R112). -/
theorem rotl_eq_rotate (s : Bits) (n : Nat) : rotl s n = s.rotate n := by
  by_cases h : s = []
  · simp [h]
  · have hl : s.length ≠ 0 := by simpa using h
    rw [List.rotate_eq_drop_append_take_mod, rotl, if_neg hl]
    simp [slice, List.take_of_length_le]

/-- Rotations add up (R120). -/
theorem rotl_rotl (s : Bits) (a b : Nat) : rotl (rotl s a) b = rotl s (a + b) := by
  simp [rotl_eq_rotate, List.rotate_rotate]

theorem natOf_append_bit (s : Bits) (b : Bool) : natOf (s ++ [b]) = 2 * natOf s + b.toNat := by simp [natOf]

/-- Bit `n` of the number a sequence spells is the sequence's bit `n` from its end (R8). -/
theorem natOf_testBit (s : Bits) (n : Nat) :
    (natOf s).testBit n = if n < s.length then s.getD (s.length - 1 - n) false else false := by
  induction s using List.reverseRecOn generalizing n with
  | nil => simp [natOf]
  | append_singleton s b ih =>
    rw [natOf_append_bit]
    cases n with
    | zero => cases b <;> simp [Nat.testBit_zero, Nat.add_mod]
    | succ n =>
      rw [Nat.testBit_succ, show (2 * natOf s + b.toNat) / 2 = natOf s by (cases b <;> simp); omega, ih]
      simp only [List.length_append, List.length_singleton]
      by_cases h : n < s.length
      · rw [if_pos h, if_pos (by omega), show s.length + 1 - 1 - (n + 1) = s.length - 1 - n by omega]
        simp only [List.getD_eq_getElem?_getD]
        rw [List.getElem?_append_left (by omega)]
      · rw [if_neg h, if_neg (by omega)]

theorem getD_zeros (m i : Nat) : (zeros m).getD i false = false := by
  by_cases h : i < m <;> simp [zeros, h]

theorem getD_slice (s : Bits) (a b i : Nat) (h : a + i < b) : (slice s a b).getD i false = s.getD (a + i) false := by
  simp only [slice, List.getD_eq_getElem?_getD]
  rw [List.getElem?_take_of_lt (by omega), List.getElem?_drop]

theorem getD_append (a b : Bits) (i : Nat) :
    (a ++ b).getD i false = if i < a.length then a.getD i false else b.getD (i - a.length) false := by
  simp only [List.getD_eq_getElem?_getD, List.getElem?_append]
  split <;> rfl

theorem getD_beyond (s : Bits) (i : Nat) (h : s.length ≤ i) : s.getD i false = false := by
  simp [List.getD_eq_getElem?_getD, h]

theorem getD_bitsN (v n i : Nat) (h : i < n) : (bitsN v n).getD i false = v.testBit (n - 1 - i) := by
  induction n generalizing i with
  | zero => omega
  | succ n ih =>
    cases i with
    | zero => rfl
    | succ i =>
      rw [bitsN, List.getD_cons_succ, ih i (by omega)]
      congr 1
      omega

/-- `bits_n(v, n)` spells `v` where it is defined, `v < 2^n` (R8), and the low `n` bits of `v` elsewhere. -/
theorem natOf_bitsN (v n : Nat) : natOf (bitsN v n) = v % 2 ^ n := by
  apply Nat.eq_of_testBit_eq
  intro i
  rw [natOf_testBit, length_bitsN, Nat.testBit_mod_two_pow]
  by_cases h : i < n
  · rw [if_pos h, getD_bitsN _ _ _ (by omega), show n - 1 - (n - 1 - i) = i by omega]
    simp [h]
  · simp [h]

/-- The window `a .. a+w-1` of a sequence, zeros beyond its end, bit by bit (R69, R70). -/
theorem getD_window (s : Bits) (a w i : Nat) (h : i < w) :
    (slice s (min a s.length) (min (a + w) s.length) ++ zeros (w - (min (a + w) s.length - min a s.length))).getD i false =
      s.getD (a + i) false := by
  rw [getD_append]
  have hl : (slice s (min a s.length) (min (a + w) s.length)).length = min (a + w) s.length - min a s.length := by
    rw [length_slice]; omega
  rw [hl]
  split
  · rw [getD_slice _ _ _ _ (by omega), show min a s.length = a by omega]
  · rw [getD_zeros, getD_beyond _ _ (by omega)]

theorem getD_rawXor (a b : Bits) (i : Nat) (h : a.length = b.length) :
    (rawXor a b).getD i false = Bool.xor (a.getD i false) (b.getD i false) := by
  by_cases hi : i < a.length
  · rw [List.getD_eq_getElem _ _ (by simp; omega), List.getD_eq_getElem _ _ hi, List.getD_eq_getElem _ _ (by omega)]
    simp [rawXor]
  · rw [getD_beyond _ _ (by simp; omega), getD_beyond _ _ (by omega), getD_beyond _ _ (by omega)]; rfl

/-- Two sequences are equal when they have the same length and the same bit at every index (R110). -/
theorem bits_ext {a b : Bits} (h : a.length = b.length) (hb : ∀ i, i < a.length → a.getD i false = b.getD i false) :
    a = b := by
  apply List.ext_getElem h
  intro i h1 h2
  have := hb i h1
  rwa [List.getD_eq_getElem _ _ h1, List.getD_eq_getElem _ _ h2] at this

end Sys2Proof.Machine
end

