-- ==== Sys2Proof/Laws/Config.lean ====
section
/-! SUPPORT. What a valid configuration gives (41_constant_tables.md R135), item by item, and the named configurations. -/

namespace Sys2Proof.Machine

/-- The shapes a valid configuration has (R135 (a) to (g), (j)). -/
structure CfgFacts (cfg : Cfg) : Prop where
  roundsPos : 1 ≤ cfg.rounds
  shiftsLen : cfg.shifts.length = cfg.rounds
  blockPos : 2 ≤ cfg.block
  blockEven : cfg.block % 2 = 0
  kwPos : 1 ≤ cfg.kw
  eLen : cfg.e.length = 48
  eIn : entriesIn cfg.e cfg.half = true
  sLen : cfg.s.length = 8
  pLen : cfg.p.length = cfg.half
  pIn : entriesIn cfg.p 32 = true
  pc2Len : cfg.pc2.length = 48
  pc2In : entriesIn cfg.pc2 cfg.ksw = true
  kswEven : cfg.ksw % 2 = 0
  kswMin : 4 ≤ cfg.ksw
  keycapMin : 3 * cfg.kw ≤ cfg.keycap
  keycapMul : cfg.keycap % 8 = 0
  charcapMin : 1 ≤ cfg.charcap
  bitcapMul : cfg.bitcap % cfg.block = 0
  bitcapMin : 8 * cfg.charcap ≤ cfg.bitcap
  bitcapMax : cfg.bitcap ≤ 131072
  roundsMax : cfg.rounds ≤ 256

theorem cfgFacts_of_valid {cfg : Cfg} (h : cfgValid cfg = true) : CfgFacts cfg := by
  simp only [cfgValid, roundsOk, widthsOk, expansionOk, sboxesOk, outputPermOk, subkeyTableOk, capacitiesOk,
    Bool.and_eq_true, decide_eq_true_eq] at h
  obtain ⟨⟨⟨⟨⟨⟨⟨⟨h1, h2⟩, h3⟩, h4⟩, h5⟩, h6⟩, -⟩, -⟩, h9⟩ := h
  constructor <;> simp_all

/-- A valid configuration that uses the initial permutation has two permutations of `B` bits that undo each other
(R135 (i)). -/
theorem initialPerm_facts {cfg : Cfg} (h : cfgValid cfg = true) (hu : cfg.useIp = true) :
    cfg.ip.length = cfg.block ∧ cfg.ipinv.length = cfg.block ∧ entriesIn cfg.ip cfg.block = true ∧
      entriesIn cfg.ipinv cfg.block = true ∧ undoes cfg.ipinv cfg.ip = true ∧ undoes cfg.ip cfg.ipinv = true := by
  simp only [cfgValid, Bool.and_eq_true] at h
  have := h.1.2
  simp only [initialPermOk, hu, Bool.not_true, Bool.false_or, Bool.and_eq_true, decide_eq_true_eq] at this
  tauto

/-- Every entry of a table whose entries lie in `1..m` does. -/
theorem entry_of_entriesIn {t : List Nat} {m i : Nat} (h : entriesIn t m = true) (hi : i < t.length) :
    1 ≤ t.getD i 0 ∧ t.getD i 0 ≤ m := by
  simp only [entriesIn, List.all_eq_true, Bool.and_eq_true, decide_eq_true_eq] at h
  rw [List.getD_eq_getElem _ _ hi]
  exact h _ (List.getElem_mem hi)

theorem undoes_apply {u t : List Nat} (h : undoes u t = true) {i : Nat} (hi : i < u.length) :
    t.getD (u.getD i 0 - 1) 0 = i + 1 := by
  simp only [undoes, List.all_eq_true, List.mem_range, beq_iff_eq] at h
  exact h i hi

theorem half_add_half {cfg : Cfg} (h : CfgFacts cfg) : cfg.half + cfg.half = cfg.block := by
  have := h.blockEven
  simp only [Cfg.half]
  omega

theorem cfgDes64_valid : cfgValid cfgDes64 = true := by decide +kernel
theorem cfgDes56_valid : cfgValid cfgDes56 = true := by decide +kernel
theorem cfgDes64NoIp_valid : cfgValid cfgDes64NoIp = true := by decide +kernel

end Sys2Proof.Machine
end

