-- ==== Sys2Proof/Laws/Datapath.lean ====
section
/-! SUPPORT. Widths of the datapath (43_round_function.md R179), the round as an operation on two halves, and the laws of
the key schedule, the block and the message in a valid configuration. -/

namespace Sys2Proof.Machine

variable {cfg : Cfg}

/-! ## Round function -/

/-- In a valid configuration every cell is a 4-bit value (R132, R135 (e)). -/
theorem sboxCell_lt (hv : cfgValid cfg = true) (i row col : Nat) : sboxCell cfg i row col < 16 := by
  simp only [cfgValid, sboxesOk, Bool.and_eq_true, List.all_eq_true, decide_eq_true_eq] at hv
  have h := hv.1.1.1.1.1.2.2
  unfold sboxCell
  by_cases h1 : i < cfg.s.length
  · rw [List.getD_eq_getElem _ _ h1]
    by_cases h2 : row < cfg.s[i].length
    · rw [List.getD_eq_getElem _ _ h2]
      by_cases h3 : col < cfg.s[i][row].length
      · rw [List.getD_eq_getElem _ _ h3]
        exact ((h _ (List.getElem_mem h1)).2 _ (List.getElem_mem h2)).2 _ (List.getElem_mem h3)
      · simp [h3]
    · simp [h2]
  · simp [h1]

@[simp] theorem length_sboxLane (i : Nat) (c : Bits) : (sboxLane cfg i c).length = 4 := by simp [sboxLane]

@[simp] theorem length_sbox (x : Bits) : (sbox cfg x).length = 32 := by
  simp [sbox, List.length_flatMap]

/-! The datapath without its proofs of width, for the proofs: in a valid configuration, under subkeys of 48 bits, it is
the datapath (`feistelRound_eq` to `tripleProcess_eq`). -/

/-- `F(h, k)` (R175). -/
def rawF (cfg : Cfg) (h k : Bits) : Bits := pperm cfg (sbox cfg (rawXor (expand cfg h) k))

@[simp] theorem roundF_eq (h k : Bits) (hk : k.length = cfg.e.length) : roundF cfg h k hk = rawF cfg h k := rfl

theorem length_rawF (hc : CfgFacts cfg) (h k : Bits) : (rawF cfg h k).length = cfg.half := by
  simp [rawF, pperm, hc.pLen]

/-- One Feistel step on a pair of halves: what phase `BROUND` does (R205). -/
def halvesRound (cfg : Cfg) (p : Bits × Bits) (k : Bits) : Bits × Bits := (p.2, rawXor p.1 (rawF cfg p.2 k))

/-- `ROUND(x, k)` (R176). -/
def rawRound (cfg : Cfg) (x k : Bits) : Bits := (split x).2 ++ rawXor (split x).1 (rawF cfg (split x).2 k)

theorem feistelRound_eq (x k : Bits) (hk : k.length = cfg.e.length) (hx : x.length / 2 = cfg.p.length) :
    feistelRound cfg x k hk hx = rawRound cfg x k := rfl

theorem rounds_eq (ks : List Bits) (x : Bits) (hks : ∀ k ∈ ks, k.length = cfg.e.length)
    (hx : x.length / 2 = cfg.p.length) : rounds cfg ks x hks hx = ks.foldl (rawRound cfg) x := by
  induction ks generalizing x with
  | nil => rfl
  | cons k ks ih => exact ih _ _ _

/-- `ROUND` on a concatenation of halves is the step on the pair (R176, R205). -/
theorem rawRound_append (l r k : Bits) (h : l.length = r.length) :
    rawRound cfg (l ++ r) k = (halvesRound cfg (l, r) k).1 ++ (halvesRound cfg (l, r) k).2 := by
  simp [rawRound, split_append l r h, halvesRound]

theorem halvesRound_length (hc : CfgFacts cfg) (p : Bits × Bits) (k : Bits) (h1 : p.1.length = cfg.half)
    (h2 : p.2.length = cfg.half) :
    (halvesRound cfg p k).1.length = cfg.half ∧ (halvesRound cfg p k).2.length = cfg.half := by
  simp [halvesRound, length_rawF hc, h1, h2]

theorem halvesFold_length (hc : CfgFacts cfg) (ks : List Bits) (p : Bits × Bits) (h1 : p.1.length = cfg.half)
    (h2 : p.2.length = cfg.half) :
    (ks.foldl (halvesRound cfg) p).1.length = cfg.half ∧ (ks.foldl (halvesRound cfg) p).2.length = cfg.half := by
  induction ks generalizing p with
  | nil => exact ⟨h1, h2⟩
  | cons k ks ih =>
    have := halvesRound_length hc p k h1 h2
    exact ih _ this.1 this.2

/-- The rounds of a block on its two halves (R195, R205). -/
theorem rawFold_append (hc : CfgFacts cfg) (ks : List Bits) (p : Bits × Bits) (h1 : p.1.length = cfg.half)
    (h2 : p.2.length = cfg.half) :
    ks.foldl (rawRound cfg) (p.1 ++ p.2) =
      (ks.foldl (halvesRound cfg) p).1 ++ (ks.foldl (halvesRound cfg) p).2 := by
  induction ks generalizing p with
  | nil => rfl
  | cons k ks ih =>
    have hl := halvesRound_length hc p k h1 h2
    rw [List.foldl_cons, rawRound_append p.1 p.2 k (h1.trans h2.symm), List.foldl_cons]
    exact ih _ hl.1 hl.2

/-- Undoing one step under the same subkey on exchanged halves (R177). -/
theorem halvesRound_swap (hc : CfgFacts cfg) (p : Bits × Bits) (k : Bits) (h1 : p.1.length = cfg.half) :
    halvesRound cfg (halvesRound cfg p k).swap k = p.swap := by
  simp [halvesRound, Prod.swap, rawXor_cancel _ _ (h1.trans (length_rawF hc p.2 k).symm)]

/-- Unwinding all rounds with the subkeys in reverse order (R177, R200). -/
theorem halvesFold_reverse (hc : CfgFacts cfg) (ks : List Bits) (p : Bits × Bits) (h1 : p.1.length = cfg.half)
    (h2 : p.2.length = cfg.half) :
    ks.reverse.foldl (halvesRound cfg) (ks.foldl (halvesRound cfg) p).swap = p.swap := by
  induction ks generalizing p with
  | nil => rfl
  | cons k ks ih =>
    have hl := halvesRound_length hc p k h1 h2
    rw [List.foldl_cons, List.reverse_cons, List.foldl_append, ih _ hl.1 hl.2]
    exact halvesRound_swap hc p k h1

/-! ## Key schedule -/

theorem length_roundKeys (ns : List Nat) (c d : Bits) : (roundKeys cfg ns c d).length = ns.length := by
  induction ns generalizing c d with
  | nil => rfl
  | cons n ns ih => simp [roundKeys, ih]

/-- `len(GenSubKeys(K)) = N` (R156). -/
theorem length_subkeysOf (hc : CfgFacts cfg) (k : Bits) : (subkeysOf cfg k).length = cfg.rounds := by
  simp [subkeysOf, length_roundKeys, hc.shiftsLen]

theorem length_workingKey (k : Bits) (h : k.length = cfg.kw) : (workingKey cfg k).length = cfg.ksw := by
  unfold workingKey
  split
  · simp [Cfg.ksw]
  · simp_all [Cfg.usePc1]

theorem length_keySegment (k : Bits) (b : Nat) (h : (b + 1) * cfg.kw ≤ k.length) :
    (keySegment cfg k b).length = cfg.kw := by
  simp only [keySegment, length_slice]
  have : (b + 1) * cfg.kw = b * cfg.kw + cfg.kw := by ring
  omega

/-- The first key segment of a key of one key width is the key (R163). -/
theorem keySegment_single (k : Bits) (h : k.length = cfg.kw) : keySegment cfg k 0 = k := by
  simp [keySegment, slice, ← h]

/-! ## Blocks -/

theorem length_finalPerm (hv : cfgValid cfg = true) (x : Bits) (h : x.length = cfg.block) :
    (finalPerm cfg x).length = cfg.block := by
  unfold finalPerm
  split
  · simp [(initialPerm_facts hv ‹_›).2.1]
  · exact h

/-- `PERM(IPINV, PERM(IP, x)) = x` (R135 (i)). -/
theorem finalPerm_initialPerm (hv : cfgValid cfg = true) (x : Bits) (h : x.length = cfg.block) :
    finalPerm cfg (initialPerm cfg x) = x := by
  unfold finalPerm initialPerm
  split
  · obtain ⟨h1, h2, h3, h4, h5, h6⟩ := initialPerm_facts hv ‹_›
    refine perm_undo _ _ _ (h2.trans h.symm) (fun i hi => ?_) (fun i hi => undoes_apply h5 hi)
    have := entry_of_entriesIn h4 hi
    omega
  · rfl

/-- `PERM(IP, PERM(IPINV, x)) = x` (R135 (i)). -/
theorem initialPerm_finalPerm (hv : cfgValid cfg = true) (x : Bits) (h : x.length = cfg.block) :
    initialPerm cfg (finalPerm cfg x) = x := by
  unfold finalPerm initialPerm
  split
  · obtain ⟨h1, h2, h3, h4, h5, h6⟩ := initialPerm_facts hv ‹_›
    refine perm_undo _ _ _ (h1.trans h.symm) (fun i hi => ?_) (fun i hi => undoes_apply h6 hi)
    have := entry_of_entriesIn h3 hi
    omega
  · rfl

/-- The two halves of a block after the initial permutation, as phase `BFETCH` loads them (R204). -/
def loadHalves (cfg : Cfg) (x : Bits) : Bits × Bits := split (initialPerm cfg x)

theorem loadHalves_length (hv : cfgValid cfg = true) (x : Bits) (h : x.length = cfg.block) :
    (loadHalves cfg x).1.length = cfg.half ∧ (loadHalves cfg x).2.length = cfg.half := by
  simp [loadHalves, length_initialPerm hv x h, Cfg.half]

/-- `BlockProcess(x, ks)` (R195). -/
def rawBlock (cfg : Cfg) (x : Bits) (ks : List Bits) : Bits :=
  finalPerm cfg (swapHalves (ks.foldl (rawRound cfg) (initialPerm cfg x)))

theorem blockProcess_eq (hv : cfgValid cfg = true) (x : Bits) (hx : x.length = cfg.block) (ks : List Bits)
    (hks : SubkeysFit ks) : blockProcess cfg hv x hx ks hks = rawBlock cfg x ks := by
  rw [blockProcess, rounds_eq, rawBlock]

/-- `ProcessBits(x, SK, forward)` (R196). -/
def rawProcess (cfg : Cfg) (x : Bits) (sk : List Bits) (forward : Bool) : Bits :=
  (List.range (numBlocks cfg x.length)).flatMap fun j => rawBlock cfg (chunk cfg x j) (keyOrder sk forward)

theorem processBits_eq (hv : cfgValid cfg = true) (x : Bits) (sk : List Bits) (hs : SubkeysFit sk) (fwd : Bool) :
    processBits cfg hv x sk hs fwd = rawProcess cfg x sk fwd := by
  simp only [processBits, blockProcess_eq, rawProcess]

/-- The three stages of the cascade (R231, R232). -/
def rawStages (cfg : Cfg) (x : Bits) (s1 s2 s3 : List Bits) (forward : Bool) : Bits × Bits × Bits :=
  let t1 := rawProcess cfg x s1 forward
  let t2 := rawProcess cfg t1 s2 forward
  (t1, t2, rawProcess cfg t2 s3 forward)

theorem cascadeStages_eq (hv : cfgValid cfg = true) (x : Bits) (s1 s2 s3 : List Bits) (h1 : SubkeysFit s1)
    (h2 : SubkeysFit s2) (h3 : SubkeysFit s3) (fwd : Bool) :
    cascadeStages cfg hv x s1 s2 s3 h1 h2 h3 fwd = rawStages cfg x s1 s2 s3 fwd := by
  simp only [cascadeStages, processBits_eq, rawStages]

/-- A block processed, in terms of its two halves: what phases `BFETCH`, `BROUND`, `BSTORE` compute (R204 to R206). -/
theorem rawBlock_eq (hv : cfgValid cfg = true) (x : Bits) (ks : List Bits) (h : x.length = cfg.block) :
    rawBlock cfg x ks =
      finalPerm cfg ((ks.foldl (halvesRound cfg) (loadHalves cfg x)).2 ++
        (ks.foldl (halvesRound cfg) (loadHalves cfg x)).1) := by
  have hc := cfgFacts_of_valid hv
  have hl := loadHalves_length hv x h
  have hj : (loadHalves cfg x).1 ++ (loadHalves cfg x).2 = initialPerm cfg x :=
    split_join _ (by rw [length_initialPerm hv x h]; exact hc.blockEven)
  have hf := halvesFold_length hc ks _ hl.1 hl.2
  rw [rawBlock, ← hj, rawFold_append hc ks _ hl.1 hl.2, swapHalves_append _ _ (hf.1.trans hf.2.symm)]

theorem length_rawBlock (hv : cfgValid cfg = true) (x : Bits) (ks : List Bits) (h : x.length = cfg.block) :
    (rawBlock cfg x ks).length = cfg.block := by
  have hc := cfgFacts_of_valid hv
  have hl := loadHalves_length hv x h
  have hf := halvesFold_length hc ks _ hl.1 hl.2
  rw [rawBlock_eq hv x ks h]
  apply length_finalPerm hv
  simp [hf.1, hf.2, half_add_half hc]

/-- A block processed with the subkeys and then with them reversed is the block again (R200). -/
theorem rawBlock_reverse (hv : cfgValid cfg = true) (x : Bits) (ks : List Bits) (h : x.length = cfg.block) :
    rawBlock cfg (rawBlock cfg x ks) ks.reverse = x := by
  have hc := cfgFacts_of_valid hv
  have hl := loadHalves_length hv x h
  have hf := halvesFold_length hc ks _ hl.1 hl.2
  have hlen : ((ks.foldl (halvesRound cfg) (loadHalves cfg x)).2 ++
      (ks.foldl (halvesRound cfg) (loadHalves cfg x)).1).length = cfg.block := by
    simp [hf.1, hf.2, half_add_half hc]
  have hload : loadHalves cfg (rawBlock cfg x ks) = (ks.foldl (halvesRound cfg) (loadHalves cfg x)).swap := by
    rw [loadHalves, rawBlock_eq hv x ks h, initialPerm_finalPerm hv _ hlen, split_append _ _ (hf.2.trans hf.1.symm)]
    rfl
  rw [rawBlock_eq hv _ _ (length_rawBlock hv x ks h), hload, halvesFold_reverse hc ks _ hl.1 hl.2]
  have hj : (loadHalves cfg x).1 ++ (loadHalves cfg x).2 = initialPerm cfg x :=
    split_join _ (by rw [length_initialPerm hv x h]; exact hc.blockEven)
  show finalPerm cfg ((loadHalves cfg x).1 ++ (loadHalves cfg x).2) = x
  rw [hj, finalPerm_initialPerm hv x h]

/-! ## Messages -/

/-- A list cut into equally long pieces: piece `j` of the concatenation. -/
theorem slice_flatMap_range (f : Nat → Bits) (m nb j : Nat) (hf : ∀ i, (f i).length = m) (hj : j < nb) :
    slice ((List.range nb).flatMap f) (j * m) ((j + 1) * m) = f j := by
  have hlen : ∀ n, ((List.range n).flatMap f).length = n * m := by
    intro n; simp [List.length_flatMap, hf]
  induction nb with
  | zero => omega
  | succ n ih =>
    rw [List.range_succ, List.flatMap_append]
    have hjm : (j + 1) * m - j * m = m := by
      rw [Nat.add_mul, Nat.one_mul, Nat.add_sub_cancel_left]
    rcases Nat.lt_succ_iff_lt_or_eq.1 hj with h | rfl
    · have hle : (j + 1) * m ≤ n * m := Nat.mul_le_mul_right _ h
      have hle' : j * m ≤ n * m := Nat.mul_le_mul_right _ h.le
      rw [← ih h]
      simp only [slice, hjm]
      rw [List.drop_append_of_le_length (by rw [hlen]; exact hle'), List.take_append_of_le_length]
      rw [List.length_drop, hlen]
      omega
    · simp only [slice, hjm]
      rw [List.drop_append, hlen, Nat.sub_self, List.drop_of_length_le (by rw [hlen])]
      simp [List.take_of_length_le, hf]

theorem ceilDiv_mul (n m : Nat) (h : 0 < m) : ceilDiv (n * m) m = n := by
  rw [ceilDiv, Nat.div_eq_of_lt_le]
  · omega
  · have : (n + 1) * m = n * m + m := by ring
    omega

theorem numBlocks_mul (hc : CfgFacts cfg) (n : Nat) : numBlocks cfg (n * cfg.block) = n :=
  ceilDiv_mul _ _ (by have := hc.blockPos; omega)

theorem length_pad (x : Bits) : (pad cfg x).length = numBlocks cfg x.length * cfg.block := by
  simp [pad, List.length_flatMap, length_chunk]

theorem length_rawProcess (hv : cfgValid cfg = true) (x : Bits) (sk : List Bits) (fwd : Bool) :
    (rawProcess cfg x sk fwd).length = numBlocks cfg x.length * cfg.block := by
  simp [rawProcess, List.length_flatMap, length_rawBlock hv _ _ (length_chunk _ _)]

/-- Chunks of a message that is a concatenation of whole blocks are those blocks. -/
theorem chunk_flatMap (f : Nat → Bits) (nb j : Nat) (hf : ∀ i, (f i).length = cfg.block) (hj : j < nb) :
    chunk cfg ((List.range nb).flatMap f) j = f j := by
  have hlen : ((List.range nb).flatMap f).length = nb * cfg.block := by simp [List.length_flatMap, hf]
  have hle : (j + 1) * cfg.block ≤ nb * cfg.block := Nat.mul_le_mul_right _ hj
  simp only [chunk, hlen, Nat.min_eq_left hle]
  rw [slice_flatMap_range f cfg.block nb j hf hj, hf]
  simp [zeros]

theorem flatMap_range_congr (f g : Nat → Bits) (n : Nat) (h : ∀ i, i < n → f i = g i) :
    (List.range n).flatMap f = (List.range n).flatMap g := by
  rw [List.flatMap_def, List.flatMap_def]
  congr 1
  exact List.map_congr_left fun i hi => h i (List.mem_range.1 hi)

/-- A message processed twice is processed block by block (R238). -/
theorem rawProcess_rawProcess (hv : cfgValid cfg = true) (x : Bits) (s1 s2 : List Bits) (d1 d2 : Bool) :
    rawProcess cfg (rawProcess cfg x s1 d1) s2 d2 =
      (List.range (numBlocks cfg x.length)).flatMap fun j =>
        rawBlock cfg (rawBlock cfg (chunk cfg x j) (keyOrder s1 d1)) (keyOrder s2 d2) := by
  have hc := cfgFacts_of_valid hv
  rw [rawProcess, length_rawProcess hv, numBlocks_mul hc]
  apply flatMap_range_congr
  intro j hj
  rw [rawProcess, chunk_flatMap _ _ j (fun i => length_rawBlock hv _ _ (length_chunk _ _)) hj]

theorem keyOrder_not (sk : List Bits) (d : Bool) : keyOrder sk (!d) = (keyOrder sk d).reverse := by
  cases d <;> simp [keyOrder]

/-- A single-key processing with a key of the right length (R197). -/
theorem process_eq (hv : cfgValid cfg = true) (i : Input) (k : Bits) (d : Bool) (h : k.length = cfg.kw) :
    process cfg hv i k d = .ok (rawProcess cfg (encodeInput i).1 (subkeysOf cfg k) d) := by
  unfold process
  split
  · rename_i he; simp [genSubKeys, h] at he
  · rename_i he
    rw [genSubKeys, if_pos h] at he
    cases he
    rw [processBits_eq]

/-- A single-key processing with a key of another length (R197). -/
theorem process_error (hv : cfgValid cfg = true) (i : Input) (k : Bits) (d : Bool) (h : k.length ≠ cfg.kw) :
    process cfg hv i k d = .error .invalidKey := by
  unfold process
  split
  · rename_i he
    rw [genSubKeys, if_neg h] at he
    cases he
    rfl
  · rename_i he; simp [genSubKeys, h] at he

/-- The cascade with a wide key of the right length (R231 to R233). -/
theorem tripleProcess_eq (hv : cfgValid cfg = true) (i : Input) (k : Bits) (fwd : Bool) (h : k.length = 3 * cfg.kw) :
    tripleProcess cfg hv i k fwd = .ok
      (if fwd then
        (rawStages cfg (encodeInput i).1 (subkeysOf cfg (keySegment cfg k 0)) (subkeysOf cfg (keySegment cfg k 1))
          (subkeysOf cfg (keySegment cfg k 2)) true).2.2
      else
        (rawStages cfg (encodeInput i).1 (subkeysOf cfg (keySegment cfg k 2)) (subkeysOf cfg (keySegment cfg k 1))
          (subkeysOf cfg (keySegment cfg k 0)) false).2.2) := by
  cases fwd <;> simp [tripleProcess, h, cascadeStages_eq]

/-- Entry `i` of the round recurrence: both halves rotated by the sum of the first amounts (R155). -/
theorem getD_roundKeys (ns : List Nat) (c d : Bits) (i : Nat) (hi : i < ns.length) :
    (roundKeys cfg ns c d).getD i [] =
      subkeyOf cfg (rotl c (ns.take (i + 1)).sum) (rotl d (ns.take (i + 1)).sum) := by
  induction ns generalizing c d i with
  | nil => simp at hi
  | cons n ns ih =>
    cases i with
    | zero => simp [roundKeys]
    | succ i =>
      rw [roundKeys, List.getD_cons_succ, ih _ _ _ (by simpa using hi)]
      simp [rotl_rotl]

end Sys2Proof.Machine
end

