-- ==== Sys2Proof/Laws/State.lean ====
section
/-! SUPPORT. One lemma per field per named update of the state, true by computation, so that no later proof unfolds a
record update; the laws of a bank triple; and what each shared operation can do. -/

namespace Sys2Proof.Machine

/-! ## Bank triples -/

@[simp] theorem Three.get_set_same {α : Type} (t : Three α) (b : Fin 3) (x : α) : (t.set b x).get b = x := by
  fin_cases b <;> rfl

theorem Three.get_set_ne {α : Type} (t : Three α) (b b' : Fin 3) (x : α) (h : b' ≠ b) :
    (t.set b x).get b' = t.get b' := by
  fin_cases b <;> fin_cases b' <;> first | rfl | exact absurd rfl h

@[simp] theorem Three.set_set {α : Type} (t : Three α) (b : Fin 3) (x y : α) : (t.set b x).set b y = t.set b y := by
  fin_cases b <;> rfl

theorem Three.get_const {α : Type} (x : α) (b : Fin 3) : (Three.mk x x x).get b = x := by
  fin_cases b <;> rfl

/-! ## `raise` -/

@[simp] theorem raise_cfg (x : CoreError) (s : State) : (raise x s).cfg = s.cfg := rfl
@[simp] theorem raise_keybuf (x : CoreError) (s : State) : (raise x s).keybuf = s.keybuf := rfl
@[simp] theorem raise_charbuf (x : CoreError) (s : State) : (raise x s).charbuf = s.charbuf := rfl
@[simp] theorem raise_inbits (x : CoreError) (s : State) : (raise x s).inbits = s.inbits := rfl
@[simp] theorem raise_outbits (x : CoreError) (s : State) : (raise x s).outbits = s.outbits := rfl
@[simp] theorem raise_sk (x : CoreError) (s : State) : (raise x s).sk = s.sk := rfl
@[simp] theorem raise_skv (x : CoreError) (s : State) : (raise x s).skv = s.skv := rfl
@[simp] theorem raise_done (x : CoreError) (s : State) : (raise x s).done = s.done := rfl
@[simp] theorem raise_err (x : CoreError) (s : State) : (raise x s).err = true := rfl
@[simp] theorem raise_lit (x : CoreError) (s : State) : (raise x s).lit = s.lit := rfl
@[simp] theorem raise_errcode (x : CoreError) (s : State) :
    (raise x s).errcode = if s.err then s.errcode else errorCode x := rfl
@[simp] theorem raise_c (x : CoreError) (s : State) : (raise x s).c = s.c := rfl
@[simp] theorem raise_d (x : CoreError) (s : State) : (raise x s).d = s.d := rfl
@[simp] theorem raise_l (x : CoreError) (s : State) : (raise x s).l = s.l := rfl
@[simp] theorem raise_r (x : CoreError) (s : State) : (raise x s).r = s.r := rfl
@[simp] theorem raise_rc (x : CoreError) (s : State) : (raise x s).rc = s.rc := rfl
@[simp] theorem raise_bi (x : CoreError) (s : State) : (raise x s).bi = s.bi := rfl
@[simp] theorem raise_nb (x : CoreError) (s : State) : (raise x s).nb = s.nb := rfl
@[simp] theorem raise_stg (x : CoreError) (s : State) : (raise x s).stg = s.stg := rfl
@[simp] theorem raise_bnk (x : CoreError) (s : State) : (raise x s).bnk = s.bnk := rfl
@[simp] theorem raise_ph (x : CoreError) (s : State) : (raise x s).ph = .idle := rfl
@[simp] theorem raise_opt (x : CoreError) (s : State) : (raise x s).opt = s.opt := rfl
@[simp] theorem raise_opd (x : CoreError) (s : State) : (raise x s).opd = s.opd := rfl
@[simp] theorem raise_kgo (x : CoreError) (s : State) : (raise x s).kgo = s.kgo := rfl
@[simp] theorem raise_todo (x : CoreError) (s : State) : (raise x s).todo = s.todo := rfl
@[simp] theorem raise_got (x : CoreError) (s : State) : (raise x s).got = s.got := rfl

/-! ## `clearFlags` -/

@[simp] theorem clearFlags_cfg (s : State) : (clearFlags s).cfg = s.cfg := rfl
@[simp] theorem clearFlags_keybuf (s : State) : (clearFlags s).keybuf = s.keybuf := rfl
@[simp] theorem clearFlags_charbuf (s : State) : (clearFlags s).charbuf = s.charbuf := rfl
@[simp] theorem clearFlags_inbits (s : State) : (clearFlags s).inbits = s.inbits := rfl
@[simp] theorem clearFlags_outbits (s : State) : (clearFlags s).outbits = s.outbits := rfl
@[simp] theorem clearFlags_sk (s : State) : (clearFlags s).sk = s.sk := rfl
@[simp] theorem clearFlags_skv (s : State) : (clearFlags s).skv = s.skv := rfl
@[simp] theorem clearFlags_done (s : State) : (clearFlags s).done = false := rfl
@[simp] theorem clearFlags_err (s : State) : (clearFlags s).err = false := rfl
@[simp] theorem clearFlags_lit (s : State) : (clearFlags s).lit = false := rfl
@[simp] theorem clearFlags_errcode (s : State) : (clearFlags s).errcode = 0#2 := rfl
@[simp] theorem clearFlags_c (s : State) : (clearFlags s).c = s.c := rfl
@[simp] theorem clearFlags_d (s : State) : (clearFlags s).d = s.d := rfl
@[simp] theorem clearFlags_l (s : State) : (clearFlags s).l = s.l := rfl
@[simp] theorem clearFlags_r (s : State) : (clearFlags s).r = s.r := rfl
@[simp] theorem clearFlags_rc (s : State) : (clearFlags s).rc = s.rc := rfl
@[simp] theorem clearFlags_bi (s : State) : (clearFlags s).bi = s.bi := rfl
@[simp] theorem clearFlags_nb (s : State) : (clearFlags s).nb = s.nb := rfl
@[simp] theorem clearFlags_stg (s : State) : (clearFlags s).stg = s.stg := rfl
@[simp] theorem clearFlags_bnk (s : State) : (clearFlags s).bnk = s.bnk := rfl
@[simp] theorem clearFlags_ph (s : State) : (clearFlags s).ph = s.ph := rfl
@[simp] theorem clearFlags_opt (s : State) : (clearFlags s).opt = s.opt := rfl
@[simp] theorem clearFlags_opd (s : State) : (clearFlags s).opd = s.opd := rfl
@[simp] theorem clearFlags_kgo (s : State) : (clearFlags s).kgo = s.kgo := rfl
@[simp] theorem clearFlags_todo (s : State) : (clearFlags s).todo = s.todo := rfl
@[simp] theorem clearFlags_got (s : State) : (clearFlags s).got = s.got := rfl

/-! ## `invalidateBanks` -/

@[simp] theorem invalidateBanks_cfg (s : State) : (invalidateBanks s).cfg = s.cfg := rfl
@[simp] theorem invalidateBanks_keybuf (s : State) : (invalidateBanks s).keybuf = s.keybuf := rfl
@[simp] theorem invalidateBanks_charbuf (s : State) : (invalidateBanks s).charbuf = s.charbuf := rfl
@[simp] theorem invalidateBanks_inbits (s : State) : (invalidateBanks s).inbits = s.inbits := rfl
@[simp] theorem invalidateBanks_outbits (s : State) : (invalidateBanks s).outbits = s.outbits := rfl
@[simp] theorem invalidateBanks_sk (s : State) :
    (invalidateBanks s).sk = ⟨zeroBank s.cfg, zeroBank s.cfg, zeroBank s.cfg⟩ := rfl
@[simp] theorem invalidateBanks_skv (s : State) : (invalidateBanks s).skv = ⟨false, false, false⟩ := rfl
@[simp] theorem invalidateBanks_done (s : State) : (invalidateBanks s).done = s.done := rfl
@[simp] theorem invalidateBanks_err (s : State) : (invalidateBanks s).err = s.err := rfl
@[simp] theorem invalidateBanks_lit (s : State) : (invalidateBanks s).lit = s.lit := rfl
@[simp] theorem invalidateBanks_errcode (s : State) : (invalidateBanks s).errcode = s.errcode := rfl
@[simp] theorem invalidateBanks_c (s : State) : (invalidateBanks s).c = s.c := rfl
@[simp] theorem invalidateBanks_d (s : State) : (invalidateBanks s).d = s.d := rfl
@[simp] theorem invalidateBanks_l (s : State) : (invalidateBanks s).l = s.l := rfl
@[simp] theorem invalidateBanks_r (s : State) : (invalidateBanks s).r = s.r := rfl
@[simp] theorem invalidateBanks_rc (s : State) : (invalidateBanks s).rc = s.rc := rfl
@[simp] theorem invalidateBanks_bi (s : State) : (invalidateBanks s).bi = s.bi := rfl
@[simp] theorem invalidateBanks_nb (s : State) : (invalidateBanks s).nb = s.nb := rfl
@[simp] theorem invalidateBanks_stg (s : State) : (invalidateBanks s).stg = s.stg := rfl
@[simp] theorem invalidateBanks_bnk (s : State) : (invalidateBanks s).bnk = s.bnk := rfl
@[simp] theorem invalidateBanks_ph (s : State) : (invalidateBanks s).ph = s.ph := rfl
@[simp] theorem invalidateBanks_opt (s : State) : (invalidateBanks s).opt = s.opt := rfl
@[simp] theorem invalidateBanks_opd (s : State) : (invalidateBanks s).opd = s.opd := rfl
@[simp] theorem invalidateBanks_kgo (s : State) : (invalidateBanks s).kgo = s.kgo := rfl
@[simp] theorem invalidateBanks_todo (s : State) : (invalidateBanks s).todo = s.todo := rfl
@[simp] theorem invalidateBanks_got (s : State) : (invalidateBanks s).got = s.got := rfl

/-! ## `acceptLong` -/

@[simp] theorem acceptLong_cfg (f : LongFields) (s : State) : (acceptLong f s).cfg = s.cfg := rfl
@[simp] theorem acceptLong_keybuf (f : LongFields) (s : State) : (acceptLong f s).keybuf = s.keybuf := rfl
@[simp] theorem acceptLong_charbuf (f : LongFields) (s : State) : (acceptLong f s).charbuf = s.charbuf := rfl
@[simp] theorem acceptLong_inbits (f : LongFields) (s : State) : (acceptLong f s).inbits = s.inbits := rfl
@[simp] theorem acceptLong_outbits (f : LongFields) (s : State) :
    (acceptLong f s).outbits = if f.keyOnly then s.outbits else [] := rfl
@[simp] theorem acceptLong_sk (f : LongFields) (s : State) :
    (acceptLong f s).sk = ⟨zeroBank s.cfg, zeroBank s.cfg, zeroBank s.cfg⟩ := rfl
@[simp] theorem acceptLong_skv (f : LongFields) (s : State) : (acceptLong f s).skv = ⟨false, false, false⟩ := rfl
@[simp] theorem acceptLong_done (f : LongFields) (s : State) : (acceptLong f s).done = false := rfl
@[simp] theorem acceptLong_err (f : LongFields) (s : State) : (acceptLong f s).err = s.err := rfl
@[simp] theorem acceptLong_lit (f : LongFields) (s : State) : (acceptLong f s).lit = s.lit := rfl
@[simp] theorem acceptLong_errcode (f : LongFields) (s : State) : (acceptLong f s).errcode = s.errcode := rfl
@[simp] theorem acceptLong_c (f : LongFields) (s : State) : (acceptLong f s).c = s.c := rfl
@[simp] theorem acceptLong_d (f : LongFields) (s : State) : (acceptLong f s).d = s.d := rfl
@[simp] theorem acceptLong_l (f : LongFields) (s : State) : (acceptLong f s).l = s.l := rfl
@[simp] theorem acceptLong_r (f : LongFields) (s : State) : (acceptLong f s).r = s.r := rfl
@[simp] theorem acceptLong_rc (f : LongFields) (s : State) : (acceptLong f s).rc = s.rc := rfl
@[simp] theorem acceptLong_bi (f : LongFields) (s : State) : (acceptLong f s).bi = s.bi := rfl
@[simp] theorem acceptLong_nb (f : LongFields) (s : State) : (acceptLong f s).nb = s.nb := rfl
@[simp] theorem acceptLong_stg (f : LongFields) (s : State) : (acceptLong f s).stg = s.stg := rfl
@[simp] theorem acceptLong_bnk (f : LongFields) (s : State) : (acceptLong f s).bnk = s.bnk := rfl
@[simp] theorem acceptLong_ph (f : LongFields) (s : State) : (acceptLong f s).ph = .kchk := rfl
@[simp] theorem acceptLong_opt (f : LongFields) (s : State) : (acceptLong f s).opt = f.triple := rfl
@[simp] theorem acceptLong_opd (f : LongFields) (s : State) : (acceptLong f s).opd = f.decrypt := rfl
@[simp] theorem acceptLong_kgo (f : LongFields) (s : State) : (acceptLong f s).kgo = f.keyOnly := rfl
@[simp] theorem acceptLong_todo (f : LongFields) (s : State) : (acceptLong f s).todo = s.todo := rfl
@[simp] theorem acceptLong_got (f : LongFields) (s : State) : (acceptLong f s).got = s.got := rfl

/-! ## `withTodo` -/

@[simp] theorem withTodo_cfg (q : List HostAction) (s : State) : (withTodo q s).cfg = s.cfg := rfl
@[simp] theorem withTodo_keybuf (q : List HostAction) (s : State) : (withTodo q s).keybuf = s.keybuf := rfl
@[simp] theorem withTodo_charbuf (q : List HostAction) (s : State) : (withTodo q s).charbuf = s.charbuf := rfl
@[simp] theorem withTodo_inbits (q : List HostAction) (s : State) : (withTodo q s).inbits = s.inbits := rfl
@[simp] theorem withTodo_outbits (q : List HostAction) (s : State) : (withTodo q s).outbits = s.outbits := rfl
@[simp] theorem withTodo_sk (q : List HostAction) (s : State) : (withTodo q s).sk = s.sk := rfl
@[simp] theorem withTodo_skv (q : List HostAction) (s : State) : (withTodo q s).skv = s.skv := rfl
@[simp] theorem withTodo_done (q : List HostAction) (s : State) : (withTodo q s).done = s.done := rfl
@[simp] theorem withTodo_err (q : List HostAction) (s : State) : (withTodo q s).err = s.err := rfl
@[simp] theorem withTodo_lit (q : List HostAction) (s : State) : (withTodo q s).lit = s.lit := rfl
@[simp] theorem withTodo_errcode (q : List HostAction) (s : State) : (withTodo q s).errcode = s.errcode := rfl
@[simp] theorem withTodo_c (q : List HostAction) (s : State) : (withTodo q s).c = s.c := rfl
@[simp] theorem withTodo_d (q : List HostAction) (s : State) : (withTodo q s).d = s.d := rfl
@[simp] theorem withTodo_l (q : List HostAction) (s : State) : (withTodo q s).l = s.l := rfl
@[simp] theorem withTodo_r (q : List HostAction) (s : State) : (withTodo q s).r = s.r := rfl
@[simp] theorem withTodo_rc (q : List HostAction) (s : State) : (withTodo q s).rc = s.rc := rfl
@[simp] theorem withTodo_bi (q : List HostAction) (s : State) : (withTodo q s).bi = s.bi := rfl
@[simp] theorem withTodo_nb (q : List HostAction) (s : State) : (withTodo q s).nb = s.nb := rfl
@[simp] theorem withTodo_stg (q : List HostAction) (s : State) : (withTodo q s).stg = s.stg := rfl
@[simp] theorem withTodo_bnk (q : List HostAction) (s : State) : (withTodo q s).bnk = s.bnk := rfl
@[simp] theorem withTodo_ph (q : List HostAction) (s : State) : (withTodo q s).ph = s.ph := rfl
@[simp] theorem withTodo_opt (q : List HostAction) (s : State) : (withTodo q s).opt = s.opt := rfl
@[simp] theorem withTodo_opd (q : List HostAction) (s : State) : (withTodo q s).opd = s.opd := rfl
@[simp] theorem withTodo_kgo (q : List HostAction) (s : State) : (withTodo q s).kgo = s.kgo := rfl
@[simp] theorem withTodo_todo (q : List HostAction) (s : State) : (withTodo q s).todo = q := rfl
@[simp] theorem withTodo_got (q : List HostAction) (s : State) : (withTodo q s).got = s.got := rfl

/-! ## `serveRead` -/

@[simp] theorem serveRead_cfg (a : ReadAddr) (s : State) : (serveRead a s).cfg = s.cfg := rfl
@[simp] theorem serveRead_keybuf (a : ReadAddr) (s : State) : (serveRead a s).keybuf = s.keybuf := rfl
@[simp] theorem serveRead_charbuf (a : ReadAddr) (s : State) : (serveRead a s).charbuf = s.charbuf := rfl
@[simp] theorem serveRead_inbits (a : ReadAddr) (s : State) : (serveRead a s).inbits = s.inbits := rfl
@[simp] theorem serveRead_outbits (a : ReadAddr) (s : State) : (serveRead a s).outbits = s.outbits := rfl
@[simp] theorem serveRead_sk (a : ReadAddr) (s : State) : (serveRead a s).sk = s.sk := rfl
@[simp] theorem serveRead_skv (a : ReadAddr) (s : State) : (serveRead a s).skv = s.skv := rfl
@[simp] theorem serveRead_done (a : ReadAddr) (s : State) : (serveRead a s).done = s.done := rfl
@[simp] theorem serveRead_err (a : ReadAddr) (s : State) : (serveRead a s).err = s.err := rfl
@[simp] theorem serveRead_lit (a : ReadAddr) (s : State) : (serveRead a s).lit = s.lit := rfl
@[simp] theorem serveRead_errcode (a : ReadAddr) (s : State) : (serveRead a s).errcode = s.errcode := rfl
@[simp] theorem serveRead_c (a : ReadAddr) (s : State) : (serveRead a s).c = s.c := rfl
@[simp] theorem serveRead_d (a : ReadAddr) (s : State) : (serveRead a s).d = s.d := rfl
@[simp] theorem serveRead_l (a : ReadAddr) (s : State) : (serveRead a s).l = s.l := rfl
@[simp] theorem serveRead_r (a : ReadAddr) (s : State) : (serveRead a s).r = s.r := rfl
@[simp] theorem serveRead_rc (a : ReadAddr) (s : State) : (serveRead a s).rc = s.rc := rfl
@[simp] theorem serveRead_bi (a : ReadAddr) (s : State) : (serveRead a s).bi = s.bi := rfl
@[simp] theorem serveRead_nb (a : ReadAddr) (s : State) : (serveRead a s).nb = s.nb := rfl
@[simp] theorem serveRead_stg (a : ReadAddr) (s : State) : (serveRead a s).stg = s.stg := rfl
@[simp] theorem serveRead_bnk (a : ReadAddr) (s : State) : (serveRead a s).bnk = s.bnk := rfl
@[simp] theorem serveRead_ph (a : ReadAddr) (s : State) : (serveRead a s).ph = s.ph := rfl
@[simp] theorem serveRead_opt (a : ReadAddr) (s : State) : (serveRead a s).opt = s.opt := rfl
@[simp] theorem serveRead_opd (a : ReadAddr) (s : State) : (serveRead a s).opd = s.opd := rfl
@[simp] theorem serveRead_kgo (a : ReadAddr) (s : State) : (serveRead a s).kgo = s.kgo := rfl
@[simp] theorem serveRead_todo (a : ReadAddr) (s : State) : (serveRead a s).todo = s.todo := rfl
@[simp] theorem serveRead_got (a : ReadAddr) (s : State) : (serveRead a s).got = s.got ++ [readPort s a] := rfl

/-! ## What the shared operations can do -/

/-- An append of key bits either raises `BufferOverflow` or appends and touches nothing else (R243). -/
theorem appendKey_cases (bs : Bits) (s : State) :
    (s.cfg.keycap < s.keybuf.length + bs.length ∧ appendKey bs s = raise .bufferOverflow s) ∨
      (s.keybuf.length + bs.length ≤ s.cfg.keycap ∧ appendKey bs s = { s with keybuf := s.keybuf ++ bs }) := by
  unfold appendKey
  split
  · exact .inl ⟨by omega, rfl⟩
  · exact .inr ⟨by omega, rfl⟩

/-- An append of a character either raises `BufferOverflow` or appends and touches nothing else (R244). -/
theorem appendChar_cases (b : Byte) (s : State) :
    (s.cfg.charcap < s.charbuf.length + 1 ∧ appendChar b s = raise .bufferOverflow s) ∨
      (s.charbuf.length + 1 ≤ s.cfg.charcap ∧ appendChar b s = { s with charbuf := s.charbuf ++ [b] }) := by
  unfold appendChar
  split
  · exact .inl ⟨by omega, rfl⟩
  · exact .inr ⟨by omega, rfl⟩

/-- An append of a bit either raises `BufferOverflow` or appends and touches nothing else (R245). -/
theorem appendBit_cases (v : Bool) (s : State) :
    (s.cfg.bitcap < s.inbits.length + 1 ∧ appendBit v s = raise .bufferOverflow s) ∨
      (s.inbits.length + 1 ≤ s.cfg.bitcap ∧ appendBit v s = { s with inbits := s.inbits ++ [v] }) := by
  unfold appendBit
  split
  · exact .inl ⟨by omega, rfl⟩
  · exact .inr ⟨by omega, rfl⟩

end Sys2Proof.Machine
end

