-- ==== Sys2Proof/Laws/Sequencer.lean ====
section
/-! SUPPORT. What the sequencer does: a bank, a block, a stage and a whole long command, each as one equation
(42_key_schedule.md R162, 44_block_pipeline.md R210, 45_cascade.md R236). -/

namespace Sys2Proof.Machine

theorem phaseStep_idle {s : State} (h : s.ph = .idle) : phaseStep s = s := by simp [phaseStep, h]

/-- Running the phases is iterating one phase: an idle sequencer stays. -/
theorem runPhases_eq (n : Nat) (s : State) : runPhases n s = phaseStep^[n] s := by
  induction n generalizing s with
  | zero => rfl
  | succ n ih =>
    rw [runPhases, Function.iterate_succ_apply]
    split
    · rename_i h
      have hfix : ∀ m, phaseStep^[m] s = s := fun m => Function.iterate_fixed (phaseStep_idle h) m
      rw [phaseStep_idle h, hfix]
    · exact ih _

/-! ## Key schedule -/

theorem bankDone_congr (s : State) (n : Nat) (p : Phase) : bankDone { s with rc := n, ph := p } = bankDone s := by
  simp only [bankDone, banksUsed]

/-- The remaining rounds of a bank (R161). -/
theorem kround_loop (ns : List Nat) (s : State) (hp : s.ph = .kround) (hd : s.cfg.shifts.drop s.rc = ns)
    (hn : ns ≠ []) (hl : s.cfg.shifts.length = s.cfg.rounds) (hb : (s.sk.get s.bnk).length = s.cfg.rounds) :
    phaseStep^[ns.length] s =
      bankDone { s with
        c := ns.foldl rotl s.c, d := ns.foldl rotl s.d,
        sk := s.sk.set s.bnk ((s.sk.get s.bnk).take s.rc ++ roundKeys s.cfg ns s.c s.d) } := by
  induction ns generalizing s with
  | nil => exact absurd rfl hn
  | cons n ns ih =>
    have hrc : s.rc < s.cfg.shifts.length := by
      by_contra h
      rw [List.drop_of_length_le (by omega)] at hd
      simp at hd
    have hget : s.cfg.shifts.getD s.rc 0 = n := by
      rw [List.drop_eq_getElem_cons hrc] at hd
      rw [List.getD_eq_getElem _ _ hrc]
      exact (List.cons.inj hd).1
    have hrest : s.cfg.shifts.drop (s.rc + 1) = ns := by
      rw [List.drop_eq_getElem_cons hrc] at hd
      exact (List.cons.inj hd).2
    have htake : ∀ k : Bits, ((s.sk.get s.bnk).set s.rc k).take (s.rc + 1) = (s.sk.get s.bnk).take s.rc ++ [k] := by
      intro k
      have hlt : s.rc < ((s.sk.get s.bnk).set s.rc k).length := by rw [List.length_set]; omega
      rw [← List.take_append_getElem hlt]
      simp [List.take_set_of_le]
    rw [List.length_cons, Function.iterate_succ_apply]
    have hstep : phaseStep s = phaseKround s := by simp [phaseStep, hp]
    cases ns with
    | nil =>
      have hlast : ¬ s.rc + 1 < s.cfg.rounds := by
        have := congrArg List.length hrest
        simp at this
        omega
      have hset : ∀ k : Bits, (s.sk.get s.bnk).set s.rc k = (s.sk.get s.bnk).take s.rc ++ [k] := by
        intro k
        rw [← htake k, List.take_of_length_le]
        rw [List.length_set]
        omega
      rw [hstep, phaseKround, if_neg hlast]
      simp [keyRound, hget, hset, roundKeys, -List.getD_eq_getElem?_getD]
    | cons n' ns' =>
      have hmore : s.rc + 1 < s.cfg.rounds := by
        have := congrArg List.length hrest
        simp at this
        omega
      rw [hstep, phaseKround, if_pos hmore]
      have := ih { keyRound s with rc := s.rc + 1 } hp hrest (by simp) hl (by simp [keyRound, hb])
      rw [this, ← bankDone_congr _ s.rc .kround, ← hp]
      simp [keyRound, hget, htake, roundKeys, -List.getD_eq_getElem?_getD]

/-- One bank: load and `N` rounds (R160, R161). -/
theorem bank_run (s : State) (hc : CfgFacts s.cfg) (hp : s.ph = .kload)
    (hb : (s.sk.get s.bnk).length = s.cfg.rounds) :
    ∃ c d, phaseStep^[1 + s.cfg.rounds] s =
      bankDone { s with
        c := c, d := d, sk := s.sk.set s.bnk (subkeysOf s.cfg (keySegment s.cfg s.keybuf s.bnk)) } := by
  have hstep : phaseStep s = phaseKload s := by simp [phaseStep, hp]
  have hne : s.cfg.shifts ≠ [] := by
    intro h
    have h1 := hc.shiftsLen
    have h2 := hc.roundsPos
    rw [h] at h1
    simp at h1
    omega
  have := kround_loop s.cfg.shifts (phaseKload s) rfl (by simp [phaseKload]) hne hc.shiftsLen (by simpa [phaseKload])
  rw [show (phaseKload s).cfg = s.cfg from rfl, hc.shiftsLen] at this
  rw [Nat.add_comm, Function.iterate_succ_apply, hstep, this]
  refine ⟨s.cfg.shifts.foldl rotl (phaseKload s).c, s.cfg.shifts.foldl rotl (phaseKload s).d, ?_⟩
  rw [← bankDone_congr { s with
    c := s.cfg.shifts.foldl rotl (phaseKload s).c, d := s.cfg.shifts.foldl rotl (phaseKload s).d,
    sk := s.sk.set s.bnk (subkeysOf s.cfg (keySegment s.cfg s.keybuf s.bnk)) } 0 .kround]
  simp [phaseKload, subkeysOf]

/-- A bank that is not the command's last (R161). -/
theorem bank_more (s : State) (hc : CfgFacts s.cfg) (hp : s.ph = .kload)
    (hb : (s.sk.get s.bnk).length = s.cfg.rounds) (hm : s.bnk.val + 1 < banksUsed s) :
    ∃ c d, phaseStep^[1 + s.cfg.rounds] s =
      { s with
        c := c, d := d, rc := 0, sk := s.sk.set s.bnk (subkeysOf s.cfg (keySegment s.cfg s.keybuf s.bnk)),
        skv := s.skv.set s.bnk true, bnk := s.bnk + 1, ph := .kload } := by
  obtain ⟨c, d, h⟩ := bank_run s hc hp hb
  refine ⟨c, d, h.trans ?_⟩
  have hm' : s.bnk.val + 1 < if s.opt then 3 else 1 := hm
  simp [bankDone, banksUsed, hm']

/-- The command's last bank (R161). -/
theorem bank_last (s : State) (hc : CfgFacts s.cfg) (hp : s.ph = .kload)
    (hb : (s.sk.get s.bnk).length = s.cfg.rounds) (hm : ¬ s.bnk.val + 1 < banksUsed s) :
    ∃ c d, phaseStep^[1 + s.cfg.rounds] s =
      { s with
        c := c, d := d, rc := 0, sk := s.sk.set s.bnk (subkeysOf s.cfg (keySegment s.cfg s.keybuf s.bnk)),
        skv := s.skv.set s.bnk true, stg := if s.kgo then s.stg else 0, ph := if s.kgo then .fin else .binit } := by
  obtain ⟨c, d, h⟩ := bank_run s hc hp hb
  refine ⟨c, d, h.trans ?_⟩
  have hm' : ¬ s.bnk.val + 1 < if s.opt then 3 else 1 := hm
  cases s.kgo <;> simp [bankDone, banksUsed, hm']

/-- The whole key schedule of a long command, from its first `KLOAD` (R162). -/
theorem schedule_run (f : LongFields) (s : State) (hc : CfgFacts s.cfg) (hp : s.ph = .kload) (h0 : s.bnk = 0)
    (ho : s.opt = f.triple) (hk : s.kgo = f.keyOnly)
    (hz : s.sk = ⟨zeroBank s.cfg, zeroBank s.cfg, zeroBank s.cfg⟩) (hv : s.skv = ⟨false, false, false⟩) :
    ∃ c d bnk, phaseStep^[(if f.triple then 3 else 1) * (1 + s.cfg.rounds)] s =
      { s with
        c := c, d := d, rc := 0, bnk := bnk, stg := if f.keyOnly then s.stg else 0,
        sk := keyBanks s.cfg f s.keybuf, skv := ⟨true, f.triple, f.triple⟩,
        ph := if f.keyOnly then .fin else .binit } := by
  have hzl : (zeroBank s.cfg).length = s.cfg.rounds := by simp [zeroBank]
  rcases ht : f.triple with _ | _
  · obtain ⟨c, d, h⟩ := bank_last s hc hp (by rw [hz, Three.get_const]; exact hzl) (by simp [h0, banksUsed, ho, ht])
    rw [if_neg (by simp), Nat.one_mul, h]
    exact ⟨c, d, 0, by simp [h0, hk, hz, hv, keyBanks, ht, Three.set]⟩
  · have hsplit : (if (true : Bool) = true then 3 else 1) * (1 + s.cfg.rounds) =
        (1 + s.cfg.rounds) + ((1 + s.cfg.rounds) + (1 + s.cfg.rounds)) := by
      rw [if_pos rfl]; ring
    obtain ⟨c1, d1, h1⟩ := bank_more s hc hp (by rw [hz, Three.get_const]; exact hzl)
      (by simp [h0, banksUsed, ho, ht])
    generalize hs1 : ({ s with
      c := c1, d := d1, rc := 0, sk := s.sk.set s.bnk (subkeysOf s.cfg (keySegment s.cfg s.keybuf s.bnk)),
      skv := s.skv.set s.bnk true, bnk := s.bnk + 1, ph := .kload } : State) = s1 at h1
    obtain ⟨c2, d2, h2⟩ := bank_more s1 (by rw [← hs1]; exact hc) (by rw [← hs1])
      (by simp [← hs1, h0, hz, Three.set, Three.get, hzl]) (by simp [← hs1, h0, banksUsed, ho, ht])
    generalize hs2 : ({ s1 with
      c := c2, d := d2, rc := 0, sk := s1.sk.set s1.bnk (subkeysOf s1.cfg (keySegment s1.cfg s1.keybuf s1.bnk)),
      skv := s1.skv.set s1.bnk true, bnk := s1.bnk + 1, ph := .kload } : State) = s2 at h2
    obtain ⟨c3, d3, h3⟩ := bank_last s2 (by rw [← hs2, ← hs1]; exact hc) (by rw [← hs2])
      (by simp [← hs2, ← hs1, h0, hz, Three.set, Three.get, hzl]) (by simp [← hs2, ← hs1, h0, banksUsed, ho, ht])
    have e1 : s1.cfg = s.cfg := by rw [← hs1]
    have e2 : s2.cfg = s.cfg := by rw [← hs2, ← hs1]
    rw [e1] at h2
    rw [e2] at h3
    rw [hsplit, Function.iterate_add_apply _ (1 + s.cfg.rounds) ((1 + s.cfg.rounds) + (1 + s.cfg.rounds)),
      Function.iterate_add_apply _ (1 + s.cfg.rounds) (1 + s.cfg.rounds), h1, h2, h3]
    refine ⟨c3, d3, 2, ?_⟩
    subst hs2 hs1
    simp [h0, hk, hz, hv, keyBanks, ht, Three.set]

/-! ## Blocks and stages -/

/-- The subkeys a stage uses, in the order of its rounds (R194, R209). -/
def stageKeys (s : State) : List Bits := keyOrder (s.sk.get (roundBank s)) (!s.opd)

theorem length_stageKeys (s : State) : (stageKeys s).length = (s.sk.get (roundBank s)).length := by
  cases h : s.opd <;> simp [stageKeys, keyOrder, h]

/-- Reading the bank at the index of R209 is reading the list in use order at the round counter (R194, R209). -/
theorem roundKey_eq (s : State) (hb : (s.sk.get (roundBank s)).length = s.cfg.rounds) (hr : s.rc < s.cfg.rounds) :
    roundKey s = (stageKeys s).getD s.rc [] := by
  cases h : s.opd
  · simp [roundKey, roundIndex, stageKeys, keyOrder, h]
  · have hr' : s.rc < (s.sk.get (roundBank s)).length := by omega
    simp [roundKey, roundIndex, stageKeys, keyOrder, h, List.getElem?_reverse hr', hb]

theorem bankShaped_iff {cfg : Cfg} {bank : List Bits} :
    bankShaped cfg bank = true ↔ bank.length = cfg.rounds ∧ SubkeysFit bank := by
  simp [bankShaped, SubkeysFit]

theorem bankShaped_zero (cfg : Cfg) : bankShaped cfg (zeroBank cfg) = true := by simp [bankShaped, zeroBank]

/-- Where the bank has its shape and the halves their width, so has the round (R179). -/
theorem roundFits_of_shaped {s : State} (hv : cfgValid s.cfg = true) (hr : s.rc < s.cfg.rounds)
    (hb : bankShaped s.cfg (s.sk.get (roundBank s)) = true) (hl : s.l.length = s.cfg.half) : RoundFits s := by
  obtain ⟨h1, h2⟩ := bankShaped_iff.1 hb
  have hi : roundIndex s < (s.sk.get (roundBank s)).length := by
    unfold roundIndex
    split <;> omega
  refine ⟨subkey_fits hv (h2 _ ?_), half_fits hv hl⟩
  rw [roundKey, List.getD_eq_getElem _ _ hi]
  exact List.getElem_mem hi

/-- What phase `BROUND` does where the widths are right (R205). -/
theorem phaseBround_eq {s : State} (h : RoundFits s) :
    phaseBround s =
      if s.rc + 1 < s.cfg.rounds then
        { s with l := s.r, r := rawXor s.l (rawF s.cfg s.r (roundKey s)), rc := s.rc + 1 }
      else { s with l := s.r, r := rawXor s.l (rawF s.cfg s.r (roundKey s)), ph := .bstore } := dif_pos h

/-- The remaining rounds of a block (R205). -/
theorem bround_loop (ks : List Bits) (s : State) (hv : cfgValid s.cfg = true) (hp : s.ph = .bround)
    (hd : (stageKeys s).drop s.rc = ks) (hn : ks ≠ []) (hl : s.l.length = s.cfg.half) (hr : s.r.length = s.cfg.half)
    (hb : bankShaped s.cfg (s.sk.get (roundBank s)) = true) :
    ∃ rc, phaseStep^[ks.length] s =
      { s with
        l := (ks.foldl (halvesRound s.cfg) (s.l, s.r)).1, r := (ks.foldl (halvesRound s.cfg) (s.l, s.r)).2,
        rc := rc, ph := .bstore } := by
  induction ks generalizing s with
  | nil => exact absurd rfl hn
  | cons k ks ih =>
    have hb' := (bankShaped_iff.1 hb).1
    have hlen : (stageKeys s).length = s.cfg.rounds := (length_stageKeys s).trans hb'
    have hrc : s.rc < (stageKeys s).length := by
      by_contra h
      rw [List.drop_of_length_le (by omega)] at hd
      simp at hd
    rw [List.drop_eq_getElem_cons hrc] at hd
    obtain ⟨hk, hrest⟩ := List.cons.inj hd
    have hkey : roundKey s = k := by
      rw [roundKey_eq s hb' (by omega), List.getD_eq_getElem _ _ hrc, hk]
    have hstep : phaseStep s = phaseBround s := by simp [phaseStep, hp]
    have hcount := congrArg List.length hrest
    rw [List.length_drop, hlen] at hcount
    rw [List.length_cons, Function.iterate_succ_apply, hstep,
      phaseBround_eq (roundFits_of_shaped hv (by omega) hb hl), hkey]
    cases ks with
    | nil =>
      rw [if_neg (by simp at hcount; omega)]
      exact ⟨s.rc, rfl⟩
    | cons k' ks' =>
      rw [if_pos (by simp at hcount; omega)]
      have hx : (rawXor s.l (rawF s.cfg s.r k)).length = s.cfg.half := by
        simp [length_rawF (cfgFacts_of_valid hv), hl]
      obtain ⟨rc, h⟩ := ih { s with l := s.r, r := rawXor s.l (rawF s.cfg s.r k), rc := s.rc + 1 } hv hp hrest (by simp)
        hr hx hb
      exact ⟨rc, h⟩

/-- One block: fetch, `N` rounds, store (R204 to R206). -/
theorem block_run (s : State) (hv : cfgValid s.cfg = true) (hp : s.ph = .bfetch)
    (hb : bankShaped s.cfg (s.sk.get (roundBank s)) = true) :
    ∃ l r rc, phaseStep^[s.cfg.rounds + 2] s =
      { s with
        l := l, r := r, rc := rc, bi := s.bi + 1,
        outbits := s.outbits ++ rawBlock s.cfg (chunk s.cfg s.inbits s.bi) (stageKeys s),
        ph := if s.bi + 1 < s.nb then .bfetch else .snext } := by
  have hc := cfgFacts_of_valid hv
  have hlen : (stageKeys s).length = s.cfg.rounds := (length_stageKeys s).trans (bankShaped_iff.1 hb).1
  have hl := loadHalves_length hv _ (length_chunk s.inbits s.bi)
  have hstep : phaseStep s = phaseBfetch s := by simp [phaseStep, hp]
  have hne : stageKeys s ≠ [] := by
    have := hc.roundsPos
    intro h
    rw [h] at hlen
    simp at hlen
    omega
  obtain ⟨rc, h⟩ := bround_loop (stageKeys s) (phaseBfetch s) hv rfl (by rfl) hne hl.1 hl.2 hb
  rw [hlen] at h
  rw [Function.iterate_succ_apply', Function.iterate_succ_apply, hstep, h]
  rw [rawBlock_eq hv _ _ (length_chunk _ _)]
  exact ⟨_, _, rc, rfl⟩

/-- The remaining blocks of a stage (R203 to R206). -/
theorem blocks_run (m : Nat) (s : State) (hv : cfgValid s.cfg = true) (hp : s.ph = .bfetch)
    (hb : bankShaped s.cfg (s.sk.get (roundBank s)) = true) (hm : s.bi + (m + 1) = s.nb) :
    ∃ l r rc, phaseStep^[(m + 1) * (s.cfg.rounds + 2)] s =
      { s with
        l := l, r := r, rc := rc, bi := s.nb,
        outbits := s.outbits ++
          (List.range (m + 1)).flatMap (fun i => rawBlock s.cfg (chunk s.cfg s.inbits (s.bi + i)) (stageKeys s)),
        ph := .snext } := by
  induction m generalizing s with
  | zero =>
    obtain ⟨l, r, rc, h⟩ := block_run s hv hp hb
    refine ⟨l, r, rc, ?_⟩
    rw [Nat.zero_add, Nat.one_mul, h]
    simp [← hm]
  | succ m ih =>
    obtain ⟨l, r, rc, h⟩ := block_run s hv hp hb
    generalize hs1 : ({ s with
      l := l, r := r, rc := rc, bi := s.bi + 1,
      outbits := s.outbits ++ rawBlock s.cfg (chunk s.cfg s.inbits s.bi) (stageKeys s),
      ph := if s.bi + 1 < s.nb then .bfetch else .snext } : State) = s1 at h
    obtain ⟨l', r', rc', h'⟩ := ih s1 (by rw [← hs1]; exact hv) (by rw [← hs1]; exact if_pos (by omega))
      (by rw [← hs1]; exact hb) (by rw [← hs1]; show s.bi + 1 + (m + 1) = s.nb; omega)
    have e1 : s1.cfg = s.cfg := by rw [← hs1]
    rw [e1] at h'
    rw [show (m + 1 + 1) * (s.cfg.rounds + 2) = (m + 1) * (s.cfg.rounds + 2) + (s.cfg.rounds + 2) by ring,
      Function.iterate_add_apply, h, h']
    refine ⟨l', r', rc', ?_⟩
    subst hs1
    have hk : ∀ (x : Nat) (l r : Bits) (n : Nat) (o : Bits) (p : Phase),
        stageKeys { s with l := l, r := r, rc := n, bi := x, outbits := o, ph := p } = stageKeys s := fun _ _ _ _ _ _ => rfl
    simp only [hk]
    rw [List.range_succ_eq_map (n := m + 1), List.flatMap_cons, List.flatMap_map]
    simp [Nat.add_assoc, Nat.add_comm 1]

/-- One stage from `BINIT` to `SNEXT` (R202, R203). -/
theorem stage_run (s : State) (hv : cfgValid s.cfg = true) (hp : s.ph = .binit)
    (hb : bankShaped s.cfg (s.sk.get (roundBank s)) = true) :
    ∃ l r rc nb bi, phaseStep^[1 + numBlocks s.cfg s.inbits.length * (s.cfg.rounds + 2)] s =
      { s with
        l := l, r := r, rc := rc, nb := nb, bi := bi,
        outbits := rawProcess s.cfg s.inbits (s.sk.get (roundBank s)) (!s.opd), ph := .snext } := by
  have hstep : phaseStep s = phaseBinit s := by simp [phaseStep, hp]
  rw [Nat.add_comm, Function.iterate_succ_apply, hstep]
  cases hnb : numBlocks s.cfg s.inbits.length with
  | zero =>
    refine ⟨s.l, s.r, s.rc, 0, 0, ?_⟩
    simp [phaseBinit, hnb, rawProcess]
  | succ m =>
    generalize hs1 : phaseBinit s = s1
    obtain ⟨l, r, rc, h⟩ := blocks_run m s1 (by rw [← hs1]; exact hv) (by rw [← hs1]; simp [phaseBinit, hnb])
      (by rw [← hs1]; exact hb) (by rw [← hs1]; simp [phaseBinit, hnb])
    have e1 : s1.cfg = s.cfg := by rw [← hs1]; rfl
    rw [e1] at h
    rw [h]
    refine ⟨l, r, rc, s1.nb, s1.nb, ?_⟩
    subst hs1
    have hk : stageKeys (phaseBinit s) = keyOrder (s.sk.get (roundBank s)) (!s.opd) := rfl
    rw [hk, rawProcess, hnb]
    simp [phaseBinit]

end Sys2Proof.Machine
end

