-- ==== Sys2Proof/Laws/LongCommand.lean ====
section
/-! SUPPORT. A long command as a whole: what the sequencer leaves after acceptance, with a key of the wrong length and
with a key of the right one (42_key_schedule.md R158, 44_block_pipeline.md R201, 45_cascade.md R235). -/

namespace Sys2Proof.Machine

/-- A stage and its `SNEXT`, where another stage follows (R207). -/
theorem stage_next (s : State) (hv : cfgValid s.cfg = true) (hp : s.ph = .binit)
    (hb : bankShaped s.cfg (s.sk.get (roundBank s)) = true) (ho : s.opt = true) (hs : s.stg.val < 2) :
    ∃ l r rc nb bi, phaseStep^[2 + numBlocks s.cfg s.inbits.length * (s.cfg.rounds + 2)] s =
      { s with
        l := l, r := r, rc := rc, nb := nb, bi := bi,
        inbits := rawProcess s.cfg s.inbits (s.sk.get (roundBank s)) (!s.opd),
        outbits := rawProcess s.cfg s.inbits (s.sk.get (roundBank s)) (!s.opd), stg := s.stg + 1, ph := .binit } := by
  obtain ⟨l, r, rc, nb, bi, h⟩ := stage_run s hv hp hb
  refine ⟨l, r, rc, nb, bi, ?_⟩
  rw [show 2 + numBlocks s.cfg s.inbits.length * (s.cfg.rounds + 2) =
      (1 + numBlocks s.cfg s.inbits.length * (s.cfg.rounds + 2)) + 1 by ring, Function.iterate_succ_apply', h]
  simp [phaseStep, phaseSnext, ho, hs]

/-- A stage and its `SNEXT`, where it is the last (R207). -/
theorem stage_last (s : State) (hv : cfgValid s.cfg = true) (hp : s.ph = .binit)
    (hb : bankShaped s.cfg (s.sk.get (roundBank s)) = true) (hl : ¬ (s.opt = true ∧ s.stg.val < 2)) :
    ∃ l r rc nb bi, phaseStep^[2 + numBlocks s.cfg s.inbits.length * (s.cfg.rounds + 2)] s =
      { s with
        l := l, r := r, rc := rc, nb := nb, bi := bi,
        outbits := rawProcess s.cfg s.inbits (s.sk.get (roundBank s)) (!s.opd), ph := .fin } := by
  obtain ⟨l, r, rc, nb, bi, h⟩ := stage_run s hv hp hb
  refine ⟨l, r, rc, nb, bi, ?_⟩
  rw [show 2 + numBlocks s.cfg s.inbits.length * (s.cfg.rounds + 2) =
      (1 + numBlocks s.cfg s.inbits.length * (s.cfg.rounds + 2)) + 1 by ring, Function.iterate_succ_apply', h]
  simp only [phaseStep, phaseSnext]
  rw [if_neg hl]

/-- The one stage of a single-key command (R202). -/
theorem stages_single (s : State) (hv : cfgValid s.cfg = true) (hp : s.ph = .binit) (ho : s.opt = false)
    (hb : bankShaped s.cfg s.sk.b0 = true) :
    ∃ l r rc nb bi, phaseStep^[2 + numBlocks s.cfg s.inbits.length * (s.cfg.rounds + 2)] s =
      { s with
        l := l, r := r, rc := rc, nb := nb, bi := bi,
        outbits := rawProcess s.cfg s.inbits s.sk.b0 (!s.opd), ph := .fin } := by
  have hbank : s.sk.get (roundBank s) = s.sk.b0 := by simp [roundBank, ho, Three.get]
  obtain ⟨l, r, rc, nb, bi, h⟩ := stage_last s hv hp (by rw [hbank]; exact hb) (by simp [ho])
  rw [hbank] at h
  exact ⟨l, r, rc, nb, bi, h⟩

/-- The outputs of the three stages, with the banks in stage order (R209, R235). -/
def stageOutputs (cfg : Cfg) (x : Bits) (b : Three (List Bits)) (decrypt : Bool) : Bits × Bits × Bits :=
  if decrypt then rawStages cfg x b.b2 b.b1 b.b0 false else rawStages cfg x b.b0 b.b1 b.b2 true

/-- The three stages of a cascade (R236). -/
theorem stages_triple (s : State) (hv : cfgValid s.cfg = true) (hp : s.ph = .binit) (ho : s.opt = true)
    (hst : s.stg = 0) (hb : ∀ b, bankShaped s.cfg (s.sk.get b) = true) :
    ∃ l r rc nb bi stg, phaseStep^[3 * (2 + numBlocks s.cfg s.inbits.length * (s.cfg.rounds + 2))] s =
      { s with
        l := l, r := r, rc := rc, nb := nb, bi := bi, stg := stg,
        inbits := (stageOutputs s.cfg s.inbits s.sk s.opd).2.1,
        outbits := (stageOutputs s.cfg s.inbits s.sk s.opd).2.2, ph := .fin } := by
  have hc := cfgFacts_of_valid hv
  have hn : ∀ x sk d, numBlocks s.cfg (rawProcess s.cfg x sk d).length = numBlocks s.cfg x.length := fun x sk d => by
    rw [length_rawProcess hv, numBlocks_mul hc]
  obtain ⟨l1, r1, rc1, nb1, bi1, h1⟩ := stage_next s hv hp (hb _) ho (by simp [hst])
  generalize hs1 : ({ s with
    l := l1, r := r1, rc := rc1, nb := nb1, bi := bi1,
    inbits := rawProcess s.cfg s.inbits (s.sk.get (roundBank s)) (!s.opd),
    outbits := rawProcess s.cfg s.inbits (s.sk.get (roundBank s)) (!s.opd),
    stg := s.stg + 1, ph := .binit } : State) = s1 at h1
  have c1 : s1.cfg = s.cfg := by rw [← hs1]
  have i1 : s1.inbits = rawProcess s.cfg s.inbits (s.sk.get (roundBank s)) (!s.opd) := by rw [← hs1]
  obtain ⟨l2, r2, rc2, nb2, bi2, h2⟩ := stage_next s1 (by rw [c1]; exact hv) (by rw [← hs1])
    (by rw [← hs1]; exact hb _) (by rw [← hs1]; exact ho) (by rw [← hs1]; simp [hst])
  generalize hs2 : ({ s1 with
    l := l2, r := r2, rc := rc2, nb := nb2, bi := bi2,
    inbits := rawProcess s1.cfg s1.inbits (s1.sk.get (roundBank s1)) (!s1.opd),
    outbits := rawProcess s1.cfg s1.inbits (s1.sk.get (roundBank s1)) (!s1.opd),
    stg := s1.stg + 1, ph := .binit } : State) = s2 at h2
  have c2 : s2.cfg = s.cfg := by rw [← hs2]; exact c1
  have i2 : s2.inbits = rawProcess s1.cfg s1.inbits (s1.sk.get (roundBank s1)) (!s1.opd) := by rw [← hs2]
  obtain ⟨l3, r3, rc3, nb3, bi3, h3⟩ := stage_last s2 (by rw [c2]; exact hv) (by rw [← hs2])
    (by rw [← hs2, ← hs1]; exact hb _) (by rw [← hs2, ← hs1]; simp [hst])
  have n1 : numBlocks s1.cfg s1.inbits.length = numBlocks s.cfg s.inbits.length := by rw [c1, i1, hn]
  have n2 : numBlocks s2.cfg s2.inbits.length = numBlocks s.cfg s.inbits.length := by
    rw [c2, i2, c1, hn, i1, hn]
  rw [n1, c1] at h2
  rw [n2, c2] at h3
  generalize hm : 2 + numBlocks s.cfg s.inbits.length * (s.cfg.rounds + 2) = m at h1 h2 h3
  rw [show 3 * m = m + (m + m) by ring, Function.iterate_add_apply _ m (m + m), Function.iterate_add_apply _ m m,
    h1, h2, h3]
  refine ⟨l3, r3, rc3, nb3, bi3, s2.stg, ?_⟩
  subst hs2 hs1
  cases hd : s.opd <;> simp [stageOutputs, rawStages, roundBank, ho, hst, hd, Three.get]

/-! ## The whole command -/

/-- `INBITS` after a successful long command (R201, R235). -/
def longInput (f : LongFields) (s : State) : Bits :=
  if f.keyOnly then s.inbits
  else if f.triple then (stageOutputs s.cfg s.inbits (keyBanks s.cfg f s.keybuf) f.decrypt).2.1
  else s.inbits

/-- `OUTBITS` after a successful long command (R158, R201, R235). -/
def longOutput (f : LongFields) (s : State) : Bits :=
  if f.keyOnly then s.outbits
  else if f.triple then (stageOutputs s.cfg s.inbits (keyBanks s.cfg f s.keybuf) f.decrypt).2.2
  else rawProcess s.cfg s.inbits (subkeysOf s.cfg (keySegment s.cfg s.keybuf 0)) (!f.decrypt)

theorem keyBanks_shaped {cfg : Cfg} (hv : cfgValid cfg = true) (f : LongFields) (k : Bits) (b : Fin 3) :
    bankShaped cfg ((keyBanks cfg f k).get b) = true := by
  have hs : ∀ j, bankShaped cfg (subkeysOf cfg (keySegment cfg k j)) = true := fun j =>
    bankShaped_iff.2 ⟨length_subkeysOf (cfgFacts_of_valid hv) _, subkeysOf_fit hv _⟩
  fin_cases b <;> cases hf : f.triple <;> simp [keyBanks, Three.get, hs, bankShaped_zero, hf]

/-- A key of the wrong length: the command ends at the check (R159, R261). -/
theorem runLong_invalid (f : LongFields) (s : State) (hk : s.keybuf.length ≠ needOf s.cfg f) :
    runLong f s = raise .invalidKey (acceptLong f s) := by
  have h1 : phaseStep (acceptLong f s) = raise .invalidKey (acceptLong f s) := by
    show phaseKchk (acceptLong f s) = _
    exact if_pos hk
  obtain ⟨m, hm⟩ : ∃ m, phaseCount s.cfg f s.inbits.length = m + 1 := ⟨_, rfl⟩
  rw [runLong, runPhases_eq, hm, Function.iterate_succ_apply, h1]
  exact Function.iterate_fixed (phaseStep_idle rfl) m

/-- A key of the right length: the banks are the key schedules of its segments, the message is processed and `DONE` is
set; the sequencer's registers and counters end somewhere (R158, R201, R235). -/
theorem runLong_valid (f : LongFields) (s : State) (hv : cfgValid s.cfg = true) (hk : s.keybuf.length = needOf s.cfg f) :
    ∃ c d l r rc nb bi stg bnk, runLong f s =
      { s with
        opt := f.triple, opd := f.decrypt, kgo := f.keyOnly, done := true, ph := .idle,
        sk := keyBanks s.cfg f s.keybuf, skv := ⟨true, f.triple, f.triple⟩,
        inbits := longInput f s, outbits := longOutput f s,
        c := c, d := d, l := l, r := r, rc := rc, nb := nb, bi := bi, stg := stg, bnk := bnk } := by
  have hc := cfgFacts_of_valid hv
  have h1 : phaseStep (acceptLong f s) = { acceptLong f s with bnk := 0, ph := .kload } := by
    show phaseKchk (acceptLong f s) = _
    exact if_neg (not_not.2 hk)
  generalize hs1 : ({ acceptLong f s with bnk := 0, ph := .kload } : State) = s1 at h1
  have e1 : s1.cfg = s.cfg := by rw [← hs1]; rfl
  obtain ⟨c, d, bnk, h2⟩ := schedule_run f s1 (by rw [e1]; exact hc) (by rw [← hs1]) (by rw [← hs1])
    (by rw [← hs1]; rfl) (by rw [← hs1]; rfl) (by rw [← hs1]; rfl) (by rw [← hs1]; rfl)
  rw [e1] at h2
  have hbank := fun b => keyBanks_shaped hv f s.keybuf b
  generalize hs2 : ({ s1 with
    cfg := s.cfg, c := c, d := d, rc := 0, bnk := bnk, stg := if f.keyOnly then s1.stg else 0,
    sk := keyBanks s.cfg f s1.keybuf, skv := ⟨true, f.triple, f.triple⟩,
    ph := if f.keyOnly then .fin else .binit } : State) = s2 at h2
  have hsteps : ∀ m, phaseStep^[1 + (if f.triple then 3 else 1) * (1 + s.cfg.rounds) + m + 1] (acceptLong f s) =
      phaseStep (phaseStep^[m] s2) := by
    intro m
    rw [Function.iterate_succ_apply', Nat.add_comm _ m, Nat.add_comm 1, Function.iterate_add_apply,
      Function.iterate_succ_apply, h1, h2]
  rw [runLong, runPhases_eq, phaseCount, hsteps]
  rcases hko : f.keyOnly with _ | _
  · have e2 : s2.cfg = s.cfg := by rw [← hs2]
    have p2 : s2.ph = .binit := by rw [← hs2]; simp [hko]
    have i2 : s2.inbits = s.inbits := by rw [← hs2, ← hs1]; rfl
    have k2 : s2.sk = keyBanks s.cfg f s.keybuf := by rw [← hs2, ← hs1]; rfl
    have o2 : s2.opt = f.triple := by rw [← hs2, ← hs1]; rfl
    have d2 : s2.opd = f.decrypt := by rw [← hs2, ← hs1]; rfl
    rcases ht : f.triple with _ | _
    · obtain ⟨l, r, rc, nb, bi, h3⟩ := stages_single s2 (by rw [e2]; exact hv) p2 (o2.trans ht)
        (by rw [k2, e2]; exact hbank 0)
      rw [e2, i2, k2, d2] at h3
      simp only [Bool.false_eq_true, if_false, Nat.one_mul]
      rw [h3]
      refine ⟨c, d, l, r, rc, nb, bi, s2.stg, bnk, ?_⟩
      subst hs2 hs1
      simp [phaseStep, phaseFin, longInput, longOutput, hko, ht, acceptLong, invalidateBanks, keyBanks]
    · obtain ⟨l, r, rc, nb, bi, stg, h3⟩ := stages_triple s2 (by rw [e2]; exact hv) p2 (o2.trans ht)
        (by rw [← hs2]; simp [hko]) (by rw [k2, e2]; exact hbank)
      rw [e2, i2, k2, d2] at h3
      simp only [Bool.false_eq_true, if_false, if_true]
      rw [h3]
      refine ⟨c, d, l, r, rc, nb, bi, stg, bnk, ?_⟩
      subst hs2 hs1
      simp [phaseStep, phaseFin, longInput, longOutput, hko, ht, acceptLong, invalidateBanks]
  · refine ⟨c, d, s.l, s.r, 0, s.nb, s.bi, s.stg, bnk, ?_⟩
    subst hs2 hs1
    simp [phaseStep, phaseFin, longInput, longOutput, hko, acceptLong, invalidateBanks]

end Sys2Proof.Machine
end

