-- ==== Sys2Proof/Laws/Invariant.lean ====
section
/-! SUPPORT. What keeps the invariant: one lemma per named operation and per phase rule (10_state.md R39). -/

namespace Sys2Proof.Machine

/-! ## Arithmetic of blocks and banks -/

theorem numBlocks_le {cfg : Cfg} (hc : CfgFacts cfg) {n : Nat} (h : n ≤ cfg.bitcap) :
    numBlocks cfg n ≤ cfg.bitcap / cfg.block := by
  have hb := hc.blockPos
  have hm := Nat.div_add_mod cfg.bitcap cfg.block
  rw [hc.bitcapMul, Nat.add_zero] at hm
  rw [numBlocks, ceilDiv, Nat.le_div_iff_mul_le (by omega)]
  by_contra hcon
  have h1 := Nat.div_mul_le_self (n + cfg.block - 1) cfg.block
  have h2 : cfg.bitcap / cfg.block < (n + cfg.block - 1) / cfg.block := by
    by_contra h3
    have := Nat.mul_le_mul_right cfg.block (Nat.le_of_not_lt h3)
    rw [Nat.mul_comm (cfg.bitcap / cfg.block), hm] at this
    omega
  have h4 := Nat.mul_le_mul_right cfg.block h2
  rw [Nat.succ_mul, Nat.mul_comm _ cfg.block, hm] at h4
  omega

theorem blocks_fit {cfg : Cfg} {m : Nat} (h : m ≤ cfg.bitcap / cfg.block) :
    m * cfg.block ≤ cfg.bitcap :=
  (Nat.mul_le_mul_right _ h).trans (Nat.div_mul_le_self _ _)

theorem segment_fits {s : State} {v : Fin 3 → Bool} (h : Scheduling s v) :
    (s.bnk.val + 1) * s.cfg.kw ≤ s.keybuf.length := by
  have h1 := h.2.1
  rw [h.1]
  unfold banksUsed at h1
  unfold keyNeed
  split at h1
  · rw [if_pos ‹_›]
    exact Nat.mul_le_mul_right _ h1
  · rw [if_neg ‹_›]
    have : s.bnk.val = 0 := by omega
    simp [this]

/-- What `phaseInv` asks of the valid flags, once the key schedule is over, gives what it asks in `IDLE` (R39 (g)). -/
theorem flags_idle {s : State} (h : Scheduling s (fun b => decide (b.val < banksUsed s))) :
    s.skv.b1 = s.skv.b2 ∧ (s.skv.b1 = true → s.skv.b0 = true) := by
  have h0 := h.2.2 0
  have h1 := h.2.2 1
  have h2 := h.2.2 2
  simp only [Three.get] at h0 h1 h2
  cases ho : s.opt <;> simp_all [banksUsed]

/-! ## The host's side and the errors -/

theorem inv_host {s : State} (h : Inv s) (q : List HostAction) (g : List ReadData) :
    Inv { s with todo := q, got := g } := { h with }

theorem raise_errcode_ne {s : State} (h : Inv s) (x : CoreError) :
    (raise x s).errcode = 0#2 ↔ (raise x s).err = false := by
  have := h.errCode
  cases he : s.err <;> cases x <;> simp_all [errorCode]

/-- An error ends a command in a state that satisfies the invariant, where the valid flags already do (R264). -/
theorem inv_raise {s : State} (h : Inv s) (x : CoreError)
    (hs : s.skv.b1 = s.skv.b2 ∧ (s.skv.b1 = true → s.skv.b0 = true)) (hk : s.ph ≠ .kround) : Inv (raise x s) :=
  { h with
    bankZero := fun b hb => by
      rcases h.bankZero b hb with ⟨hp, -⟩ | hz
      · exact absurd hp hk
      · exact .inr hz
    errCode := raise_errcode_ne h x
    doneIdle := fun _ => rfl
    phase := hs }

theorem phaseInv_of_idle {s : State} (hp : s.ph = .idle)
    (hs : s.skv.b1 = s.skv.b2 ∧ (s.skv.b1 = true → s.skv.b0 = true)) : phaseInv s := by
  rw [phaseInv, hp]
  exact hs

theorem inv_idle_flags {s : State} (h : Inv s) (hp : s.ph = .idle) :
    s.skv.b1 = s.skv.b2 ∧ (s.skv.b1 = true → s.skv.b0 = true) := by
  have := h.phase
  rwa [phaseInv, hp] at this

theorem inv_raise_idle {s : State} (h : Inv s) (hp : s.ph = .idle) (x : CoreError) : Inv (raise x s) :=
  inv_raise h x (inv_idle_flags h hp) (by simp [hp])

/-! ## Phase rules -/

theorem inv_acceptLong {s : State} (h : Inv s) (f : LongFields) : Inv (acceptLong f s) :=
  { h with
    outFits := by
      show (if f.keyOnly then s.outbits else []).length ≤ _
      split
      · exact h.outFits
      · exact Nat.zero_le _
    outBlocks := by
      show (if f.keyOnly then s.outbits else []).length % s.cfg.block = 0
      split
      · exact h.outBlocks
      · simp
    bankShape := fun b => by rw [acceptLong_sk, Three.get_const]; exact bankShaped_zero _
    bankZero := fun b _ => .inr (by rw [acceptLong_sk, Three.get_const]; rfl)
    bankKeys := fun b hb => by rw [acceptLong_skv, Three.get_const] at hb; simp at hb
    doneIdle := fun hd => by simp at hd
    phase := fun b => Three.get_const _ _ }

theorem inv_kchk {s : State} (h : Inv s) (hp : s.ph = .kchk) : Inv (phaseKchk s) := by
  have hph := h.phase
  rw [phaseInv, hp] at hph
  have h0 := hph 0
  have h1 := hph 1
  have h2 := hph 2
  simp only [Three.get] at h0 h1 h2
  unfold phaseKchk
  split
  · exact inv_raise h _ (by simp [h0, h1, h2]) (by simp [hp])
  · rename_i hk
    exact { h with
      bankZero := fun b hb => by
        rcases h.bankZero b hb with ⟨hr, -⟩ | hz
        · simp [hp] at hr
        · exact .inr hz
      doneIdle := fun hd => by have := h.doneIdle hd; simp [hp] at this
      phase := ⟨not_not.1 hk, by simp only [banksUsed]; split <;> decide, fun b => by simpa using hph b⟩ }

theorem notDone {s : State} (h : Inv s) (hp : s.ph ≠ .idle) : s.done = false := by
  cases hd : s.done
  · rfl
  · exact absurd (h.doneIdle hd) hp

theorem inv_kload {s : State} (h : Inv s) (hp : s.ph = .kload) : Inv (phaseKload s) := by
  have hph := h.phase
  rw [phaseInv, hp] at hph
  have hc := cfgFacts_of_valid h.valid
  have hw : (workingKey s.cfg (keySegment s.cfg s.keybuf s.bnk)).length = s.cfg.ksw :=
    length_workingKey _ (length_keySegment _ _ (segment_fits hph))
  exact { h with
    bankZero := fun b hb => by
      rcases h.bankZero b hb with ⟨hr, -⟩ | hz
      · simp [hp] at hr
      · exact .inr hz
    doneIdle := fun hd => by have := h.doneIdle hd; simp [hp] at this
    cWidth := by simp [phaseKload, hw]
    dWidth := by simp [phaseKload, hw]
    rcRange := hc.roundsPos
    phase := ⟨hph, rfl⟩ }

/-- The bank equation of `KROUND` moves one round on (R161). -/
theorem keyRound_bank {s : State} (hc : CfgFacts s.cfg) (hl : (s.sk.get s.bnk).length = s.cfg.rounds)
    (hr : s.rc < s.cfg.rounds) :
    (keyRound s).sk.get s.bnk = (s.sk.get s.bnk).set s.rc (subkeyOf s.cfg (keyRound s).c (keyRound s).d) ∧
      ((keyRound s).sk.get s.bnk).take (s.rc + 1) ++
          roundKeys s.cfg (s.cfg.shifts.drop (s.rc + 1)) (keyRound s).c (keyRound s).d =
        (s.sk.get s.bnk).take s.rc ++ roundKeys s.cfg (s.cfg.shifts.drop s.rc) s.c s.d := by
  have hrs : s.rc < s.cfg.shifts.length := by rw [hc.shiftsLen]; exact hr
  have hset : (keyRound s).sk.get s.bnk =
      (s.sk.get s.bnk).set s.rc (subkeyOf s.cfg (keyRound s).c (keyRound s).d) := by simp [keyRound]
  refine ⟨hset, ?_⟩
  have hlt : s.rc < ((s.sk.get s.bnk).set s.rc (subkeyOf s.cfg (keyRound s).c (keyRound s).d)).length := by
    rw [List.length_set]; omega
  rw [hset, ← List.take_append_getElem hlt,
    List.drop_eq_getElem_cons hrs, roundKeys]
  simp [keyRound, List.take_set_of_le, List.getElem?_eq_getElem hrs]

theorem inv_kround {s : State} (h : Inv s) (hp : s.ph = .kround) : Inv (phaseKround s) := by
  have hph := h.phase
  rw [phaseInv, hp] at hph
  obtain ⟨hs, heq⟩ := hph
  have hc := cfgFacts_of_valid h.valid
  have hl := (bankShaped_iff.1 (h.bankShape s.bnk)).1
  obtain ⟨hset, hmove⟩ := keyRound_bank hc hl h.rcRange
  have hshape : ∀ b, bankShaped s.cfg ((keyRound s).sk.get b) = true := by
    intro b
    by_cases hb : b = s.bnk
    · subst hb
      rw [hset, bankShaped_iff]
      refine ⟨by simpa using hl, fun k hk => ?_⟩
      rcases List.mem_or_eq_of_mem_set hk with hk | rfl
      · exact (bankShaped_iff.1 (h.bankShape s.bnk)).2 k hk
      · simp [subkeyOf, hc.pc2Len, skw]
    · rw [keyRound, Three.get_set_ne _ _ _ _ hb]
      exact h.bankShape b
  have hkeep : ∀ b, b ≠ s.bnk → (keyRound s).sk.get b = s.sk.get b := fun b hb => Three.get_set_ne _ _ _ _ hb
  have hnew : s.skv.get s.bnk = false := by rw [hs.2.2]; simp
  have hzero : ∀ b, s.skv.get b = false → b ≠ s.bnk → (keyRound s).sk.get b = zeroBank s.cfg := by
    intro b hb hne
    rw [hkeep b hne]
    rcases h.bankZero b hb with ⟨-, he⟩ | hz
    · exact absurd he hne
    · exact hz
  have hdone := notDone h (by simp [hp])
  unfold phaseKround
  split
  · rename_i hmore
    exact { h with
      bankShape := hshape
      bankZero := fun b hb => by
        by_cases he : b = s.bnk
        · exact .inl ⟨hp, he⟩
        · exact .inr (hzero b hb he)
      bankKeys := fun b hb => by
        have hne : b ≠ s.bnk := by
          rintro rfl
          exact absurd (hnew.symm.trans hb) (by simp)
        obtain ⟨k, hk⟩ := h.bankKeys b hb
        exact ⟨k, by rw [← hkeep b hne] at hk; exact hk⟩
      cWidth := by simpa [keyRound] using h.cWidth
      dWidth := by simpa [keyRound] using h.dWidth
      rcRange := hmore
      phase := by
        show phaseInv { keyRound s with rc := s.rc + 1 }
        rw [phaseInv, show ({ keyRound s with rc := s.rc + 1 } : State).ph = .kround from hp]
        exact ⟨hs, hmove.trans heq⟩ }
  · rename_i hlast
    have hfull : (keyRound s).sk.get s.bnk = subkeysOf s.cfg (keySegment s.cfg s.keybuf s.bnk) := by
      rw [← heq, ← hmove, List.drop_of_length_le (by rw [hc.shiftsLen]; have := h.rcRange; omega)]
      rw [roundKeys, List.append_nil, List.take_of_length_le]
      have := (bankShaped_iff.1 (hshape s.bnk)).1
      omega
    have hseg := length_keySegment (cfg := s.cfg) s.keybuf s.bnk.val (segment_fits hs)
    have hgen : genSubKeys s.cfg (keySegment s.cfg s.keybuf s.bnk) = .ok ((keyRound s).sk.get s.bnk) := by
      rw [genSubKeys, if_pos hseg, hfull]
    have hskv : ∀ b, (s.skv.set s.bnk true).get b = decide (b.val < s.bnk.val + 1) := by
      intro b
      by_cases he : b = s.bnk
      · subst he; simp
      · rw [Three.get_set_ne _ _ _ _ he, hs.2.2]
        have : b.val ≠ s.bnk.val := fun hv => he (Fin.ext hv)
        simp only [decide_eq_decide]
        omega
    -- the fields that do not depend on where the key schedule goes next
    have base : ∀ (bnk stg : Fin 3) (p : Phase), p ≠ .idle →
        phaseInv { keyRound s with skv := s.skv.set s.bnk true, rc := 0, bnk := bnk, stg := stg, ph := p } →
        Inv { keyRound s with skv := s.skv.set s.bnk true, rc := 0, bnk := bnk, stg := stg, ph := p } := by
      intro bnk stg p hpi hphase
      exact { h with
        bankShape := hshape
        bankZero := fun b hb => by
          have hne : b ≠ s.bnk := by
            rintro rfl
            simp at hb
          refine .inr (hzero b ?_ hne)
          rw [← Three.get_set_ne s.skv s.bnk b true hne]
          exact hb
        bankKeys := fun b hb => by
          by_cases he : b = s.bnk
          · subst he; exact ⟨_, hgen⟩
          · have hb' : s.skv.get b = true := by
              rw [← Three.get_set_ne s.skv s.bnk b true he]; exact hb
            obtain ⟨k, hk⟩ := h.bankKeys b hb'
            exact ⟨k, by rw [← hkeep b he] at hk; exact hk⟩
        doneIdle := fun hd => by
          have : s.done = true := hd
          simp [hdone] at this
        cWidth := by simpa [keyRound] using h.cWidth
        dWidth := by simpa [keyRound] using h.dWidth
        rcRange := hc.roundsPos
        phase := hphase }
    unfold bankDone
    simp only
    split
    · rename_i hmore
      have hmore' : s.bnk.val + 1 < banksUsed s := hmore
      have hb3 : banksUsed s ≤ 3 := by unfold banksUsed; split <;> omega
      have hval : (s.bnk + 1).val = s.bnk.val + 1 := by
        rw [Fin.val_add_one_of_lt]
        exact Fin.lt_def.2 (by simp; omega)
      refine base (s.bnk + 1) s.stg .kload (by simp) ⟨hs.1, ?_, fun b => ?_⟩
      · show (s.bnk + 1).val < banksUsed s
        omega
      · show (s.skv.set s.bnk true).get b = decide (b.val < (s.bnk + 1).val)
        rw [hval]; exact hskv b
    · rename_i hno
      have hno' : ¬ s.bnk.val + 1 < banksUsed s := hno
      have hused : s.bnk.val + 1 = banksUsed s := by have := hs.2.1; omega
      have hall : ∀ b, (s.skv.set s.bnk true).get b = decide (b.val < banksUsed s) := by
        intro b; rw [hskv, hused]
      split
      · exact base s.bnk s.stg .fin (by simp) ⟨hs.1, hs.2.1, hall⟩
      · exact base s.bnk 0 .binit (by simp) ⟨hs.1, hs.2.1, hall⟩

/-- Where no bank is being generated, every invalid bank is zero (R26). -/
theorem zeroOf {s : State} (h : Inv s) (hp : s.ph ≠ .kround) (b : Fin 3) (hb : s.skv.get b = false) :
    s.sk.get b = zeroBank s.cfg := by
  rcases h.bankZero b hb with ⟨hr, -⟩ | hz
  · exact absurd hr hp
  · exact hz

theorem inv_binit {s : State} (h : Inv s) (hp : s.ph = .binit) : Inv (phaseBinit s) := by
  have hph := h.phase
  rw [phaseInv, hp] at hph
  have hc := cfgFacts_of_valid h.valid
  have base : Inv { s with nb := numBlocks s.cfg s.inbits.length, bi := 0, outbits := [], ph := .snext } :=
    { h with
      outFits := Nat.zero_le _
      outBlocks := by simp
      bankZero := fun b hb => .inr (zeroOf h (by simp [hp]) b hb)
      doneIdle := fun hd => by
        have : s.done = true := hd
        simp [notDone h (by simp [hp])] at this
      biRange := Nat.zero_le _
      nbRange := numBlocks_le hc h.inFits
      phase := hph }
  unfold phaseBinit
  simp only
  split
  · exact base
  · exact { base with
      bankZero := fun b hb => .inr (zeroOf base (by simp) b hb)
      doneIdle := fun hd => by simpa using base.doneIdle hd
      phase := ⟨hph, rfl, Nat.pos_of_ne_zero ‹_›, by simp⟩ }

theorem inv_bfetch {s : State} (h : Inv s) (hp : s.ph = .bfetch) : Inv (phaseBfetch s) := by
  have hph := h.phase
  rw [phaseInv, hp] at hph
  have hc := cfgFacts_of_valid h.valid
  have hl := loadHalves_length h.valid _ (length_chunk s.inbits s.bi)
  exact { h with
    bankZero := fun b hb => .inr (zeroOf h (by simp [hp]) b hb)
    doneIdle := fun hd => by
      have : s.done = true := hd
      simp [notDone h (by simp [hp])] at this
    lWidth := hl.1
    rWidth := hl.2
    rcRange := hc.roundsPos
    phase := hph }

theorem inv_bround {s : State} (h : Inv s) (hp : s.ph = .bround) : Inv (phaseBround s) := by
  have hph := h.phase
  rw [phaseInv, hp] at hph
  have hc := cfgFacts_of_valid h.valid
  have hx : (rawXor s.l (rawF s.cfg s.r (roundKey s))).length = s.cfg.half := by
    simp [length_rawF hc, h.lWidth]
  have base : ∀ rc p, rc < s.cfg.rounds → p = .bround ∨ p = .bstore →
      Inv { s with l := s.r, r := rawXor s.l (rawF s.cfg s.r (roundKey s)), rc := rc, ph := p } := by
    intro rc p hr hpp
    exact { h with
      bankZero := fun b hb => .inr (zeroOf h (by simp [hp]) b hb)
      doneIdle := fun hd => by
        have : s.done = true := hd
        simp [notDone h (by simp [hp])] at this
      lWidth := h.rWidth
      rWidth := hx
      rcRange := hr
      phase := by rcases hpp with rfl | rfl <;> exact hph }
  rw [phaseBround_eq (roundFits_of_shaped h.valid h.rcRange (h.bankShape _) h.lWidth)]
  split
  · rename_i hmore
    have := base (s.rc + 1) .bround hmore (.inl rfl)
    rw [hp]
    exact this
  · exact base s.rc .bstore h.rcRange (.inr rfl)

theorem inv_bstore {s : State} (h : Inv s) (hp : s.ph = .bstore) : Inv (phaseBstore s) := by
  have hph := h.phase
  rw [phaseInv, hp] at hph
  obtain ⟨hs, hnb, hbi, hout⟩ := hph
  have hc := cfgFacts_of_valid h.valid
  have hb : (finalPerm s.cfg (s.r ++ s.l)).length = s.cfg.block :=
    length_finalPerm h.valid _ (by simp [h.lWidth, h.rWidth, half_add_half hc])
  have hlen : (s.outbits ++ finalPerm s.cfg (s.r ++ s.l)).length = (s.bi + 1) * s.cfg.block := by
    rw [List.length_append, hb, hout, Nat.add_mul, Nat.one_mul]
  have base : Inv { s with outbits := s.outbits ++ finalPerm s.cfg (s.r ++ s.l), bi := s.bi + 1, ph := .snext } :=
    { h with
      outFits := by
        show (s.outbits ++ finalPerm s.cfg (s.r ++ s.l)).length ≤ s.cfg.bitcap
        rw [hlen]
        exact blocks_fit (Nat.le_trans hbi h.nbRange)
      outBlocks := by
        show (s.outbits ++ finalPerm s.cfg (s.r ++ s.l)).length % s.cfg.block = 0
        rw [hlen, Nat.mul_mod_left]
      bankZero := fun b hb => .inr (zeroOf h (by simp [hp]) b hb)
      doneIdle := fun hd => by
        have : s.done = true := hd
        simp [notDone h (by simp [hp])] at this
      biRange := hbi
      phase := hs }
  unfold phaseBstore
  split
  · exact { base with
      bankZero := fun b hb => .inr (zeroOf base (by simp) b hb)
      doneIdle := fun hd => by simpa using base.doneIdle hd
      phase := ⟨hs, hnb, ‹_›, hlen⟩ }
  · exact base

theorem inv_snext {s : State} (h : Inv s) (hp : s.ph = .snext) : Inv (phaseSnext s) := by
  have hph := h.phase
  rw [phaseInv, hp] at hph
  have hd := notDone h (by simp [hp])
  unfold phaseSnext
  split
  · exact { h with
      inFits := h.outFits
      bankZero := fun b hb => .inr (zeroOf h (by simp [hp]) b hb)
      doneIdle := fun hd' => by
        have : s.done = true := hd'
        simp [hd] at this
      phase := hph }
  · exact { h with
      bankZero := fun b hb => .inr (zeroOf h (by simp [hp]) b hb)
      doneIdle := fun hd' => by
        have : s.done = true := hd'
        simp [hd] at this
      phase := hph }

theorem inv_fin {s : State} (h : Inv s) (hp : s.ph = .fin) : Inv (phaseFin s) := by
  have hph := h.phase
  rw [phaseInv, hp] at hph
  exact { h with
    bankZero := fun b hb => .inr (zeroOf h (by simp [hp]) b hb)
    doneIdle := fun _ => rfl
    phase := flags_idle hph }

/-- One phase rule keeps the invariant. -/
theorem inv_phaseStep {s : State} (h : Inv s) : Inv (phaseStep s) := by
  unfold phaseStep
  split
  · exact h
  · exact inv_kchk h ‹_›
  · exact inv_kload h ‹_›
  · exact inv_kround h ‹_›
  · exact inv_binit h ‹_›
  · exact inv_bfetch h ‹_›
  · exact inv_bround h ‹_›
  · exact inv_bstore h ‹_›
  · exact inv_snext h ‹_›
  · exact inv_fin h ‹_›

/-- A long command keeps the invariant. -/
theorem inv_runLong {s : State} (h : Inv s) (f : LongFields) : Inv (runLong f s) := by
  rw [runLong, runPhases_eq]
  generalize phaseCount s.cfg f s.inbits.length = n
  induction n with
  | zero => exact inv_acceptLong h f
  | succ n ih =>
    rw [Function.iterate_succ_apply']
    exact inv_phaseStep ih

/-- In a state that satisfies the invariant, what the next phase rule reads exists. -/
theorem phaseReady_of_inv {s : State} (h : Inv s) : phaseReady s = true := by
  have hph := h.phase
  unfold phaseInv at hph
  unfold phaseReady
  cases hp : s.ph <;> simp only [hp] at hph ⊢
  · exact decide_eq_true (segment_fits hph)
  · simp [h.rcRange, h.cWidth, h.dWidth, h.bankShape]
  · simp only [decide_eq_true_eq]
    rw [← hph.2.1]
    exact hph.2.2.1
  · simp [h.rcRange, h.lWidth, h.rWidth, h.bankShape]
  · simp [h.lWidth, h.rWidth, hph.2.2.1]

/-! ## Short commands and reset -/

theorem inv_appendKey {s : State} (h : Inv s) (hp : s.ph = .idle) (b : Byte) : Inv (appendKey (keyBits b) s) := by
  have hi := inv_idle_flags h hp
  have hb : (keyBits b).length = 8 := by simp [keyBits]
  rcases appendKey_cases (keyBits b) s with ⟨-, he⟩ | ⟨hf, he⟩
  · rw [he]; exact inv_raise_idle h hp _
  · rw [he]
    exact { h with
      keyBytes := by
        show (s.keybuf ++ keyBits b).length % 8 = 0
        rw [List.length_append, hb]
        have := h.keyBytes
        omega
      keyFits := by
        show (s.keybuf ++ keyBits b).length ≤ s.cfg.keycap
        rwa [List.length_append]
      phase := phaseInv_of_idle hp hi }

theorem inv_appendChar {s : State} (h : Inv s) (hp : s.ph = .idle) (b : Byte) : Inv (appendChar b s) := by
  have hi := inv_idle_flags h hp
  rcases appendChar_cases b s with ⟨-, he⟩ | ⟨hf, he⟩
  · rw [he]; exact inv_raise_idle h hp _
  · rw [he]
    exact { h with
      charsFit := by
        show (s.charbuf ++ [b]).length ≤ s.cfg.charcap
        rwa [List.length_append]
      phase := phaseInv_of_idle hp hi }

theorem inv_inbits {s : State} (h : Inv s) (hp : s.ph = .idle) (x : Bits) (l : Bool) (hx : x.length ≤ s.cfg.bitcap) :
    Inv { s with inbits := x, lit := l } :=
  have hi := inv_idle_flags h hp
  { h with
    inFits := hx
    phase := phaseInv_of_idle hp hi }

theorem inv_appendBit {s : State} (h : Inv s) (hp : s.ph = .idle) (v : Bool) : Inv (appendBit v s) := by
  rcases appendBit_cases v s with ⟨-, he⟩ | ⟨hf, he⟩
  · rw [he]; exact inv_raise_idle h hp _
  · rw [he]
    exact inv_inbits h hp _ s.lit (by rwa [List.length_append])

/-- `CLR` with every mask keeps the invariant of an idle core (R242). -/
theorem inv_clear {s : State} (h : Inv s) (hp : s.ph = .idle) (k c i o f b : Bool) :
    Inv (whenSet k clearKeybuf (whenSet c clearCharbuf (whenSet i clearInbits (whenSet o clearOutbits
      (whenSet f clearFlags (whenSet b invalidateBanks s)))))) := by
  have h1 : Inv (invalidateBanks s) :=
    { h with
      bankShape := fun b => by rw [invalidateBanks_sk, Three.get_const]; exact bankShaped_zero _
      bankZero := fun b _ => .inr (by rw [invalidateBanks_sk, Three.get_const]; rfl)
      bankKeys := fun b hb => by rw [invalidateBanks_skv, Three.get_const] at hb; simp at hb
      phase := phaseInv_of_idle hp ⟨rfl, id⟩ }
  have key : ∀ (t : State), Inv t → t.ph = .idle → ∀ (kb : Bool) (cb ib ob fb : Bool),
      Inv (whenSet kb clearKeybuf (whenSet cb clearCharbuf (whenSet ib clearInbits (whenSet ob clearOutbits
        (whenSet fb clearFlags t))))) := by
    intro t ht htp kb cb ib ob fb
    have hfl := inv_idle_flags ht htp
    cases kb <;> cases cb <;> cases ib <;> cases ob <;> cases fb <;>
      exact { ht with
        keyBytes := by first | exact ht.keyBytes | rfl
        keyFits := by first | exact ht.keyFits | exact Nat.zero_le _
        charsFit := by first | exact ht.charsFit | exact Nat.zero_le _
        inFits := by first | exact ht.inFits | exact Nat.zero_le _
        outFits := by first | exact ht.outFits | exact Nat.zero_le _
        outBlocks := by first | exact ht.outBlocks | exact Nat.zero_mod _
        errCode := by first | exact ht.errCode | exact iff_of_true rfl rfl
        doneIdle := fun _ => htp
        phase := phaseInv_of_idle htp hfl }
  cases b
  · exact key s h hp k c i o f
  · exact key _ h1 hp k c i o f

theorem length_encodeChars_le (cs : List Byte) : (encodeChars cs).length ≤ 8 * cs.length := by
  unfold encodeChars
  split
  · simp; omega
  · simp

/-- `ENCODE` cannot overflow in a valid configuration (R72, R191). -/
theorem encode_fits {s : State} (hc : CfgFacts s.cfg) (h : s.charbuf.length ≤ s.cfg.charcap) :
    (encodeChars s.charbuf).length ≤ s.cfg.bitcap := by
  have h1 := length_encodeChars_le s.charbuf
  have h2 := hc.bitcapMin
  omega

/-- The reset state of a valid configuration satisfies the invariant (R38, R39). -/
theorem inv_resetFields {cfg : Cfg} (hv : cfgValid cfg = true) : Inv (resetState cfg) := by
  have hc := cfgFacts_of_valid hv
  exact
    { valid := hv
      keyBytes := rfl
      keyFits := Nat.zero_le _
      charsFit := Nat.zero_le _
      inFits := Nat.zero_le _
      outFits := Nat.zero_le _
      outBlocks := Nat.zero_mod _
      bankShape := fun b => by simp only [resetState, Three.get_const]; exact bankShaped_zero _
      bankZero := fun b _ => .inr (by simp only [resetState, Three.get_const])
      bankKeys := fun b hb => by simp [resetState, Three.get_const] at hb
      errCode := iff_of_true rfl rfl
      doneIdle := fun _ => rfl
      cWidth := length_zeros _
      dWidth := length_zeros _
      lWidth := length_zeros _
      rWidth := length_zeros _
      rcRange := hc.roundsPos
      biRange := Nat.le_refl _
      nbRange := Nat.zero_le _
      phase := ⟨rfl, fun h => by simp [resetState] at h⟩ }

end Sys2Proof.Machine
end

