-- ==== Sys2Proof/Laws/Countdown.lean ====
section
/-! SUPPORT. How far the sequencer is from `IDLE`: every phase rule takes exactly one of the remaining steps
(42_key_schedule.md R162, 44_block_pipeline.md R210, 45_cascade.md R236, 70_reset_and_hazards.md R302). -/

namespace Sys2Proof.Machine

theorem passesLeft_pos (s : State) : 1 ≤ passesLeft s := by
  unfold passesLeft
  split
  · have := s.stg.isLt
    omega
  · exact Nat.le_refl _

theorem numBlocks_zero (cfg : Cfg) (hc : CfgFacts cfg) : numBlocks cfg 0 = 0 := by
  have := numBlocks_mul hc 0
  rwa [Nat.zero_mul] at this

/-- Only `IDLE` has no step left. -/
theorem remainingSteps_pos {s : State} (h : Inv s) (hp : s.ph ≠ .idle) : 0 < remainingSteps s := by
  have hr := h.rcRange
  unfold remainingSteps tailSteps
  cases hph : s.ph <;> simp only
  · exact absurd hph hp
  · split <;> omega
  all_goals omega

theorem countdown_keys {s : State} (h : Inv s) (hp : s.ph = .kchk ∨ s.ph = .kload ∨ s.ph = .kround) :
    remainingSteps (phaseStep s) + 1 = remainingSteps s := by
  have hph := h.phase
  have hr := h.rcRange
  rcases hp with hp | hp | hp <;> rw [phaseInv, hp] at hph
  · rw [show phaseStep s = phaseKchk s by simp [phaseStep, hp]]
    unfold phaseKchk
    split <;> rename_i hk
    · simp [remainingSteps, hp, hk]
    · simp only [remainingSteps, hp, not_not.1 hk, if_true]
      simp only [banksUsed, tailSteps]
      simp
      omega
  · rw [show phaseStep s = phaseKload s by simp [phaseStep, hp]]
    simp only [remainingSteps, hp, phaseKload]
    simp only [banksUsed, tailSteps]
    have := hph.2.1
    unfold banksUsed at this
    obtain ⟨k, hk⟩ : ∃ k, (if s.opt then 3 else 1) - s.bnk.val = k + 1 :=
      ⟨(if s.opt then 3 else 1) - s.bnk.val - 1, by omega⟩
    rw [hk]
    simp only [Nat.add_sub_cancel, Nat.add_mul]
    omega
  · rw [show phaseStep s = phaseKround s by simp [phaseStep, hp]]
    have hu := hph.1.2.1
    unfold phaseKround
    split
    · have e : remainingSteps { keyRound s with rc := s.rc + 1 } =
          (s.cfg.rounds - (s.rc + 1)) + (banksUsed s - s.bnk.val - 1) * (1 + s.cfg.rounds) +
            tailSteps s (banksUsed s) := by
        simp only [remainingSteps, show (keyRound s).ph = .kround from hp]
        rfl
      rw [e]
      simp only [remainingSteps, hp]
      omega
    · have hn : s.cfg.rounds - s.rc = 1 := by omega
      unfold bankDone
      simp only
      split <;> rename_i hm
      · have hm' : s.bnk.val + 1 < banksUsed s := hm
        have hb3 : banksUsed s ≤ 3 := by unfold banksUsed; split <;> omega
        have hval : (s.bnk + 1).val = s.bnk.val + 1 := by
          rw [Fin.val_add_one_of_lt]
          exact Fin.lt_def.2 (by simp; omega)
        show (banksUsed s - (s.bnk + 1).val) * (1 + s.cfg.rounds) + tailSteps s (banksUsed s) + 1 = _
        simp only [remainingSteps, hp, hn, hval, Nat.sub_sub]
        omega
      · have hu1 : banksUsed s - s.bnk.val - 1 = 0 := by
          have hm' : ¬ s.bnk.val + 1 < banksUsed s := hm
          omega
        have he : remainingSteps s = 1 + tailSteps s (banksUsed s) := by
          simp only [remainingSteps, hp, hn, hu1]
          omega
        split <;> rename_i hg
        · have hg' : s.kgo = true := hg
          rw [he, tailSteps, if_pos hg']
          rfl
        · have hg' : ¬ s.kgo = true := hg
          rw [he, tailSteps, if_neg hg']
          show (if s.opt then 3 - 0 else 1) * passSteps s.cfg (numBlocks s.cfg s.inbits.length) + 1 + 1 = _
          rw [Nat.sub_zero, banksUsed]
          omega

theorem countdown_blocks {s : State} (h : Inv s) (hp : s.ph = .bfetch ∨ s.ph = .bround ∨ s.ph = .bstore) :
    remainingSteps (phaseStep s) + 1 = remainingSteps s := by
  have hph := h.phase
  have hr := h.rcRange
  have hc := cfgFacts_of_valid h.valid
  rcases hp with hp | hp | hp <;> rw [phaseInv, hp] at hph <;> obtain ⟨hs, hnb, hbi, hout⟩ := hph
  · rw [show phaseStep s = phaseBfetch s by simp [phaseStep, hp]]
    show (s.cfg.rounds - 0) + 1 + (s.nb - s.bi - 1) * (s.cfg.rounds + 2) + 1 +
      (passesLeft s - 1) * passSteps s.cfg s.nb + 1 + 1 = _
    simp only [remainingSteps, hp]
    obtain ⟨k, hk⟩ : ∃ k, s.nb - s.bi = k + 1 := ⟨s.nb - s.bi - 1, by omega⟩
    rw [hk]
    simp only [Nat.add_sub_cancel, Nat.add_mul]
    omega
  · rw [show phaseStep s = phaseBround s by simp [phaseStep, hp]]
    rw [phaseBround_eq (roundFits_of_shaped h.valid h.rcRange (h.bankShape _) h.lWidth)]
    split
    · simp only [remainingSteps, hp, passesLeft]
      omega
    · have hn : s.cfg.rounds - s.rc = 1 := by omega
      simp only [remainingSteps, hp, passesLeft, hn]
      omega
  · rw [show phaseStep s = phaseBstore s by simp [phaseStep, hp]]
    unfold phaseBstore
    split
    · simp only [remainingSteps, hp, passesLeft, Nat.sub_sub]
      omega
    · have hb : (finalPerm s.cfg (s.r ++ s.l)).length = s.cfg.block :=
        length_finalPerm h.valid _ (by simp [h.lWidth, h.rWidth, half_add_half hc])
      have hlen : (s.outbits ++ finalPerm s.cfg (s.r ++ s.l)).length = s.nb * s.cfg.block := by
        rw [List.length_append, hb, hout, show s.nb = s.bi + 1 by omega, Nat.add_mul, Nat.one_mul]
      have hz : s.nb - s.bi - 1 = 0 := by omega
      simp only [remainingSteps, hp, passesLeft, hlen, numBlocks_mul hc, hz]
      omega

theorem countdown_ends {s : State} (h : Inv s) (hp : s.ph = .binit ∨ s.ph = .snext ∨ s.ph = .fin) :
    remainingSteps (phaseStep s) + 1 = remainingSteps s := by
  have hc := cfgFacts_of_valid h.valid
  have hpos := passesLeft_pos s
  rcases hp with hp | hp | hp
  · rw [show phaseStep s = phaseBinit s by simp [phaseStep, hp]]
    obtain ⟨k, hk⟩ : ∃ k, passesLeft s = k + 1 := ⟨passesLeft s - 1, by omega⟩
    unfold passesLeft at hk
    unfold phaseBinit
    simp only
    split <;> rename_i hn
    · simp [remainingSteps, hp, passesLeft, hn, numBlocks_zero _ hc, hk, passSteps]
      omega
    · simp only [remainingSteps, hp, passesLeft, hk, passSteps, Nat.add_sub_cancel, Nat.sub_zero, Nat.add_mul,
        Nat.one_mul]
      omega
  · rw [show phaseStep s = phaseSnext s by simp [phaseStep, hp]]
    unfold phaseSnext
    split <;> rename_i hm
    · have hval : (s.stg + 1).val = s.stg.val + 1 := by
        rw [Fin.val_add_one_of_lt]
        exact Fin.lt_def.2 (by simp; omega)
      simp only [remainingSteps, hp, passesLeft, hm.1, if_true, hval, Nat.sub_sub]
      omega
    · have hz : passesLeft s - 1 = 0 := by
        unfold passesLeft
        split <;> rename_i ho
        · have : ¬ s.stg.val < 2 := fun hl => hm ⟨ho, hl⟩
          omega
        · rfl
      simp only [remainingSteps, hp, hz]
      omega
  · simp [phaseStep, remainingSteps, phaseFin, hp]

/-- Every phase rule takes exactly one of the remaining steps. -/
theorem remainingSteps_phaseStep {s : State} (h : Inv s) (hp : s.ph ≠ .idle) :
    remainingSteps (phaseStep s) + 1 = remainingSteps s := by
  cases hph : s.ph
  · exact absurd hph hp
  · exact countdown_keys h (.inl hph)
  · exact countdown_keys h (.inr (.inl hph))
  · exact countdown_keys h (.inr (.inr hph))
  · exact countdown_ends h (.inl hph)
  · exact countdown_blocks h (.inl hph)
  · exact countdown_blocks h (.inr (.inl hph))
  · exact countdown_blocks h (.inr (.inr hph))
  · exact countdown_ends h (.inr (.inl hph))
  · exact countdown_ends h (.inr (.inr hph))

theorem inv_iterate {s : State} (h : Inv s) (n : Nat) : Inv (phaseStep^[n] s) := by
  induction n with
  | zero => exact h
  | succ n ih => rw [Function.iterate_succ_apply']; exact inv_phaseStep ih

/-- After `n` of the remaining steps, so many fewer remain. -/
theorem remainingSteps_iterate {s : State} (h : Inv s) (n : Nat) (hn : n ≤ remainingSteps s) :
    remainingSteps (phaseStep^[n] s) + n = remainingSteps s := by
  induction n with
  | zero => rfl
  | succ n ih =>
    have hi := ih (by omega)
    rw [Function.iterate_succ_apply']
    have hp : (phaseStep^[n] s).ph ≠ .idle := by
      intro hid
      have : remainingSteps (phaseStep^[n] s) = 0 := by simp [remainingSteps, hid]
      omega
    have := remainingSteps_phaseStep (inv_iterate h n) hp
    omega

/-- The steps a long command takes after its acceptance are the bound `runLong` runs for, when the key has the right
length (R162, R210, R236). -/
theorem remainingSteps_accept (f : LongFields) (s : State) (hk : s.keybuf.length = needOf s.cfg f) :
    remainingSteps (acceptLong f s) = phaseCount s.cfg f s.inbits.length := by
  have hk' : (acceptLong f s).keybuf.length = keyNeed (acceptLong f s) := hk
  simp only [remainingSteps, acceptLong_ph]
  rw [if_pos hk']
  show 1 + (if f.triple then 3 else 1) * (1 + s.cfg.rounds) +
    ((if f.keyOnly then 0 else (if f.triple then 3 else 1) * passSteps s.cfg (numBlocks s.cfg s.inbits.length)) + 1) = _
  unfold phaseCount passSteps
  rcases f with ⟨t, d, k⟩
  cases k <;> simp
  omega

end Sys2Proof.Machine
end

