-- ==== Sys2Proof/Laws/Encoding.lean ====
section
/-! SUPPORT. A command word as its three fields, and masks field by field (30_encoding.md R91, R93). -/

namespace Sys2Proof

/-- The bits of three fields put together. -/
theorem bits_join (a b : BitVec 4) (c : BitVec 8) (i : Nat) :
    BitVec.getLsbD (w := 16) (a ++ b ++ c) i =
      if i < 8 then c.getLsbD i else if i - 8 < 4 then b.getLsbD (i - 8) else a.getLsbD (i - 8 - 4) := by
  show BitVec.getLsbD (w := 4 + 4 + 8) (a ++ b ++ c) i = _
  rw [BitVec.getLsbD_append, BitVec.getLsbD_append]

/-- A word is its three fields put together (R91). -/
theorem word_fields (cw : CmdWord) : cw = fieldOp cw ++ fieldSub cw ++ fieldImm cw := by
  apply BitVec.eq_of_getLsbD_eq
  intro i hi
  rw [bits_join]
  simp only [fieldOp, fieldSub, fieldImm, BitVec.getLsbD_extractLsb']
  split
  · simp [*]
  · split
    · have : i - 8 < 4 := by omega
      simp [this, show 8 + (i - 8) = i by omega]
    · have : i - 8 - 4 < 4 := by omega
      simp [this, show 12 + (i - 8 - 4) = i by omega]

theorem fieldOp_join (a b : BitVec 4) (c : BitVec 8) : fieldOp (a ++ b ++ c) = a := by
  apply BitVec.eq_of_getLsbD_eq
  intro i hi
  rw [fieldOp, BitVec.getLsbD_extractLsb', bits_join]
  simp [hi, show ¬ 12 + i < 8 by omega, show ¬ 12 + i - 8 < 4 by omega, show 12 + i - 8 - 4 = i by omega]

theorem fieldSub_join (a b : BitVec 4) (c : BitVec 8) : fieldSub (a ++ b ++ c) = b := by
  apply BitVec.eq_of_getLsbD_eq
  intro i hi
  rw [fieldSub, BitVec.getLsbD_extractLsb', bits_join]
  simp [hi, show ¬ 8 + i < 8 by omega]

theorem fieldImm_join (a b : BitVec 4) (c : BitVec 8) : fieldImm (a ++ b ++ c) = c := by
  apply BitVec.eq_of_getLsbD_eq
  intro i hi
  rw [fieldImm, BitVec.getLsbD_extractLsb', bits_join]
  simp [hi]

/-- Two words are equal when their fields are. -/
theorem fields_inj {a b a' b' : BitVec 4} {c c' : BitVec 8} :
    a ++ b ++ c = a' ++ b' ++ c' ↔ a = a' ∧ b = b' ∧ c = c' := by
  constructor
  · intro h
    refine ⟨?_, ?_, ?_⟩
    · rw [← fieldOp_join a b c, h, fieldOp_join]
    · rw [← fieldSub_join a b c, h, fieldSub_join]
    · rw [← fieldImm_join a b c, h, fieldImm_join]
  · rintro ⟨rfl, rfl, rfl⟩
    rfl

/-- A mask acts field by field. -/
theorem mask_fields (cw : CmdWord) (ma mb pa pb : BitVec 4) (mc pc : BitVec 8) :
    cw &&& (ma ++ mb ++ mc) = pa ++ pb ++ pc ↔
      fieldOp cw &&& ma = pa ∧ fieldSub cw &&& mb = pb ∧ fieldImm cw &&& mc = pc := by
  conv_lhs => rw [word_fields cw, BitVec.and_append, BitVec.and_append]
  exact fields_inj

/-- A byte whose upper bits are zero is its lower bits. -/
theorem imm_low (c : BitVec 8) (n : Nat) (hn : n = 6 ∨ n = 1) (h : c.extractLsb' n (8 - n) = 0) :
    c = (c.extractLsb' 0 n).zeroExtend 8 := by
  revert h
  rcases hn with rfl | rfl <;> revert c <;> decide +kernel

end Sys2Proof
end

