-- ==== Sys2Proof/Laws/Frames.lean ====
section
/-! SUPPORT. What no phase rule touches, what a long command touches, and what the sequencer does not look at
(10_state.md R22 to R25, R31, R37; 60_exceptions.md R267). -/

namespace Sys2Proof.Machine

/-- What every phase rule leaves as it was. -/
theorem phaseStep_frame (s : State) :
    (phaseStep s).cfg = s.cfg ∧ (phaseStep s).keybuf = s.keybuf ∧ (phaseStep s).charbuf = s.charbuf ∧
      (phaseStep s).lit = s.lit ∧ (phaseStep s).opt = s.opt ∧ (phaseStep s).opd = s.opd ∧ (phaseStep s).kgo = s.kgo ∧
      (phaseStep s).todo = s.todo ∧ (phaseStep s).got = s.got := by
  unfold phaseStep phaseKchk phaseKload phaseKround phaseBinit phaseBfetch phaseBround phaseBstore phaseSnext phaseFin
    bankDone
  split <;> (try simp only) <;> repeat' split
  all_goals first | exact ⟨rfl, rfl, rfl, rfl, rfl, rfl, rfl, rfl, rfl⟩ | simp

/-- What a long command leaves as it was. -/
theorem runLong_frame (f : LongFields) (s : State) :
    (runLong f s).cfg = s.cfg ∧ (runLong f s).keybuf = s.keybuf ∧ (runLong f s).charbuf = s.charbuf ∧
      (runLong f s).lit = s.lit ∧ (runLong f s).todo = s.todo ∧ (runLong f s).got = s.got := by
  rw [runLong, runPhases_eq]
  generalize phaseCount s.cfg f s.inbits.length = n
  induction n with
  | zero => exact ⟨rfl, rfl, rfl, rfl, rfl, rfl⟩
  | succ n ih =>
    rw [Function.iterate_succ_apply']
    have := phaseStep_frame (phaseStep^[n] (acceptLong f s))
    obtain ⟨h1, h2, h3, h4, -, -, -, h8, h9⟩ := this
    rw [h1, h2, h3, h4, h8, h9]
    exact ih

theorem phaseBround_host (s : State) (q : List HostAction) (g : List ReadData) :
    phaseBround { s with todo := q, got := g } = { phaseBround s with todo := q, got := g } := by
  by_cases h : RoundFits s
  · rw [phaseBround_eq h, phaseBround_eq (show RoundFits { s with todo := q, got := g } from h)]
    show (if s.rc + 1 < s.cfg.rounds then _ else _) = _
    split <;> rfl
  · rw [phaseBround, dif_neg (show ¬ RoundFits { s with todo := q, got := g } from h), phaseBround, dif_neg h]

theorem phaseBround_err (s : State) (e : Bool) (c : BitVec 2) :
    phaseBround { s with err := e, errcode := c } = { phaseBround s with err := e, errcode := c } := by
  by_cases h : RoundFits s
  · rw [phaseBround_eq h, phaseBround_eq (show RoundFits { s with err := e, errcode := c } from h)]
    show (if s.rc + 1 < s.cfg.rounds then _ else _) = _
    split <;> rfl
  · rw [phaseBround, dif_neg (show ¬ RoundFits { s with err := e, errcode := c } from h), phaseBround, dif_neg h]

/-- The phase rules do not look at the host's side or at the recorded error. -/
theorem phaseStep_host (s : State) (q : List HostAction) (g : List ReadData) :
    phaseStep { s with todo := q, got := g } = { phaseStep s with todo := q, got := g } := by
  by_cases hp : s.ph = .bround
  · simp only [phaseStep, hp]
    exact hp ▸ phaseBround_host s q g
  unfold phaseStep phaseKchk phaseKload phaseKround phaseBinit phaseBfetch phaseBstore phaseSnext phaseFin
    bankDone keyNeed banksUsed
  split <;> (try simp only) <;> repeat' split
  all_goals first | (exact absurd ‹_› hp) | rfl | (exfalso; simp_all [keyRound]; done) | (exfalso; simp_all [keyRound]; omega)

theorem iterate_host (n : Nat) (s : State) (q : List HostAction) (g : List ReadData) :
    phaseStep^[n] { s with todo := q, got := g } = { phaseStep^[n] s with todo := q, got := g } := by
  induction n generalizing s with
  | zero => rfl
  | succ n ih => rw [Function.iterate_succ_apply, Function.iterate_succ_apply, phaseStep_host, ih]

theorem runLong_host (f : LongFields) (s : State) (q : List HostAction) (g : List ReadData) :
    runLong f { s with todo := q, got := g } = { runLong f s with todo := q, got := g } := by
  simp only [runLong, runPhases_eq]
  exact iterate_host _ (acceptLong f s) q g

/-- The recorded error is looked at by the key check alone, and there only to be kept (R264, R267). -/
theorem phaseStep_err_of_ne (s : State) (e : Bool) (c : BitVec 2) (hp : s.ph ≠ .kchk) :
    phaseStep { s with err := e, errcode := c } = { phaseStep s with err := e, errcode := c } := by
  by_cases hb : s.ph = .bround
  · simp only [phaseStep, hb]
    exact hb ▸ phaseBround_err s e c
  unfold phaseStep phaseKload phaseKround phaseBinit phaseBfetch phaseBstore phaseSnext phaseFin
    bankDone banksUsed
  split <;> (try simp only) <;> repeat' split
  all_goals first | (exact absurd ‹_› hb) | rfl | (exfalso; simp_all [keyRound]; done) | (exfalso; simp_all [keyRound]; omega)

theorem phaseStep_err (s : State) (e : Bool) (c : BitVec 2) :
    ∃ e' c', phaseStep { s with err := e, errcode := c } = { phaseStep s with err := e', errcode := c' } := by
  by_cases hp : s.ph = .kchk
  · have h1 : phaseStep { s with err := e, errcode := c } = phaseKchk { s with err := e, errcode := c } := by
      simp only [phaseStep, hp]
    have h2 : phaseStep s = phaseKchk s := by simp only [phaseStep, hp]
    rw [h1, h2]
    by_cases hk : s.keybuf.length ≠ keyNeed s
    · have h3 : phaseKchk { s with err := e, errcode := c } = raise .invalidKey { s with err := e, errcode := c } :=
        if_pos hk
      have h4 : phaseKchk s = raise .invalidKey s := if_pos hk
      rw [h3, h4]
      exact ⟨true, if e then c else 1#2, rfl⟩
    · have h3 : phaseKchk { s with err := e, errcode := c } =
          { s with err := e, errcode := c, bnk := 0, ph := .kload } := if_neg hk
      have h4 : phaseKchk s = { s with bnk := 0, ph := .kload } := if_neg hk
      rw [h3, h4]
      exact ⟨e, c, rfl⟩
  · exact ⟨e, c, phaseStep_err_of_ne s e c hp⟩

theorem iterate_err (n : Nat) (s : State) (e : Bool) (c : BitVec 2) :
    ∃ e' c', phaseStep^[n] { s with err := e, errcode := c } = { phaseStep^[n] s with err := e', errcode := c' } := by
  induction n generalizing s e c with
  | zero => exact ⟨e, c, rfl⟩
  | succ n ih =>
    obtain ⟨e1, c1, h⟩ := phaseStep_err s e c
    rw [Function.iterate_succ_apply, Function.iterate_succ_apply, h]
    exact ih _ _ _

theorem runLong_err (f : LongFields) (s : State) (e : Bool) (c : BitVec 2) :
    ∃ e' c', runLong f { s with err := e, errcode := c } = { runLong f s with err := e', errcode := c' } := by
  simp only [runLong, runPhases_eq]
  exact iterate_err _ (acceptLong f s) e c

/-- What the two outcomes of a long command are, for any fields (R158, R201, R235). -/
theorem runLong_cases (f : LongFields) (s : State) (hv : cfgValid s.cfg = true) :
    (s.keybuf.length ≠ needOf s.cfg f ∧ runLong f s = raise .invalidKey (acceptLong f s)) ∨
      (s.keybuf.length = needOf s.cfg f ∧ ∃ h, runLong f s = withHidden
        { s with
          opt := f.triple, opd := f.decrypt, kgo := f.keyOnly, done := true, ph := .idle,
          sk := keyBanks s.cfg f s.keybuf, skv := ⟨true, f.triple, f.triple⟩, inbits := longInput f s,
          outbits := longOutput f s } h) := by
  by_cases hk : s.keybuf.length = needOf s.cfg f
  · obtain ⟨c, d, l, r, rc, nb, bi, stg, bnk, h⟩ := runLong_valid f s hv hk
    exact .inr ⟨hk, { s with c := c, d := d, l := l, r := r, rc := rc, nb := nb, bi := bi, stg := stg, bnk := bnk }, h⟩
  · exact .inl ⟨hk, runLong_invalid f s hk⟩

/-- A command in terms of the fields it latches. -/
theorem exec_eq_execLong {i : Instr} {f : LongFields} (h : longFieldsOf i = some f) (s : State) :
    exec i s = execLong f s := by
  cases i <;> simp only [longFieldsOf, Option.some.injEq, reduceCtorEq] at h <;> subst h <;> rfl

/-- In a valid configuration a long command runs. -/
theorem exec_long {i : Instr} {f : LongFields} (h : longFieldsOf i = some f) (s : State) (hv : cfgValid s.cfg = true) :
    exec i s = .next (runLong f s) := (exec_eq_execLong h s).trans (if_pos hv)

/-- A long command that answers a next state ran, in a valid configuration. -/
theorem execLong_next {f : LongFields} {s t : State} (h : execLong f s = .next t) :
    cfgValid s.cfg = true ∧ t = runLong f s := by
  unfold execLong at h
  split at h
  · cases h; exact ⟨‹_›, rfl⟩
  · cases h

/-- The host's side is not looked at by any command (R36). -/
theorem exec_host (i : Instr) (s t : State) (q : List HostAction) (g : List ReadData) (h : exec i s = .next t) :
    exec i { s with todo := q, got := g } = .next { t with todo := q, got := g } := by
  cases i <;> simp only [exec, execNop, execClr, execKpush, execCpush, execBpush, execEncode, execMovo, execKeygenS,
    execKeygenT, execEnc, execTenc, execDec, execTdec, Host.Outcome.next.injEq] at h ⊢
  case nop => subst h; rfl
  case clr m =>
    subst h
    cases maskK m <;> cases maskC m <;> cases maskI m <;> cases maskO m <;> cases maskF m <;> cases maskS m <;> rfl
  case kpush b => subst h; unfold appendKey; split <;> rfl
  case cpush b => subst h; unfold appendChar; split <;> rfl
  case bpush v => subst h; unfold appendBit; split <;> rfl
  case encode =>
    split at h <;> rename_i hc <;> simp only [Host.Outcome.next.injEq] at h <;> subst h
    · rw [if_pos hc]; rfl
    · rw [if_neg hc]
  case movo => subst h; rfl
  all_goals
    obtain ⟨hv, rfl⟩ := execLong_next h
    rw [execLong, if_pos (show cfgValid s.cfg = true from hv), runLong_host]

end Sys2Proof.Machine
end

