-- ==== Sys2Proof/Laws/PerInstr.lean ====
section
/-! SUPPORT. One lemma per command about the command as syntax: its encoding selects its row of the opcode map, and no
other (30_encoding.md R93). -/

/-- The encoding of a command selects the row that carries the command's name, and only that row. -/
def Sys2Proof.Laws.TableRow.Statement (i : Sys2Proof.Instr) : Prop :=
  i.wf = true ∧
    ((Sys2Proof.opcodeMap.filter fun row => row.selects (Sys2Proof.encode i)).map fun row => row.mnemonic) =
      [Sys2Proof.mnemonicOf i]

namespace Sys2Proof.Laws.TableRow

theorem nop : Statement .nop := by unfold Statement; decide +kernel
theorem clr (m : BitVec 6) : Statement (.clr m) := by unfold Statement; revert m; decide +kernel
theorem kpush (b : Byte) : Statement (.kpush b) := by unfold Statement; revert b; decide +kernel
theorem cpush (b : Byte) : Statement (.cpush b) := by unfold Statement; revert b; decide +kernel
theorem bpush (v : BitVec 1) : Statement (.bpush v) := by unfold Statement; revert v; decide +kernel
theorem encode : Statement .encode := by unfold Statement; decide +kernel
theorem movo : Statement .movo := by unfold Statement; decide +kernel
theorem keygenS : Statement .keygenS := by unfold Statement; decide +kernel
theorem keygenT : Statement .keygenT := by unfold Statement; decide +kernel
theorem enc : Statement .enc := by unfold Statement; decide +kernel
theorem tenc : Statement .tenc := by unfold Statement; decide +kernel
theorem dec : Statement .dec := by unfold Statement; decide +kernel
theorem tdec : Statement .tdec := by unfold Statement; decide +kernel

end Sys2Proof.Laws.TableRow
end

