-- ==== Sys2Proof/Laws/Ports.lean ====
section
/-! SUPPORT. States that agree on everything a port shows keep agreeing under the parts a transaction is made of
(10_state.md R37). -/

namespace Sys2Proof.Machine

theorem agree_raise {s t : State} (h : AgreeOnPorts s t) (x : CoreError) : AgreeOnPorts (raise x s) (raise x t) := by
  obtain ⟨h1, h2, h3, h4, h5, h6, h7, h8, h9, h10, h11, h12, h13, h14⟩ := h
  constructor <;> simp_all [raise]

theorem agree_withTodo {s t : State} (h : AgreeOnPorts s t) (q : List HostAction) :
    AgreeOnPorts (withTodo q s) (withTodo q t) := by
  obtain ⟨h1, h2, h3, h4, h5, h6, h7, h8, h9, h10, h11, h12, h13, h14⟩ := h
  constructor <;> simp_all [withTodo]

/-- A read does not depend on what no port shows. -/
theorem agree_readPort {s t : State} (h : AgreeOnPorts s t) (ra : ReadAddr) : readPort s ra = readPort t ra := by
  simp only [readPort, statusWord, busy, skDebug, h.cfg, h.keybuf, h.charbuf, h.inbits, h.outbits, h.sk, h.skv, h.done,
    h.err, h.lit, h.errcode, h.ph]

end Sys2Proof.Machine
end

