-- ==== Sys2Proof/Laws/ReadPort.lean ====
section
/-! SUPPORT. The words of the two windows of the read port, bit by bit (20_memory.md R69, R70). -/

namespace Sys2Proof.Machine

/-- A word made of a window of `w` bits of a sequence: its bit `n` is the window's bit `w - 1 - n`. -/
theorem window_word (s : Bits) (a w n : Nat) (hw : w ≤ 32) :
    (zext32 (natOf (slice s (min a s.length) (min (a + w) s.length) ++
      zeros (w - (min (a + w) s.length - min a s.length))))).getLsbD n =
      if n < w then s.getD (a + (w - 1 - n)) false else false := by
  have hl : (slice s (min a s.length) (min (a + w) s.length) ++
      zeros (w - (min (a + w) s.length - min a s.length))).length = w := by
    rw [List.length_append, length_slice, length_zeros]
    omega
  rw [zext32, BitVec.getLsbD_ofNat, natOf_testBit, hl]
  by_cases hn : n < w
  · rw [if_pos hn, if_pos hn, getD_window _ _ _ _ (by omega), decide_eq_true (by omega), Bool.true_and]
  · rw [if_neg hn, if_neg hn, Bool.and_false]

/-- Bit `n` of `OUTBYTE[i]` (R69). -/
theorem outByte_bits (out : Bits) (i n : Nat) :
    (outByte out i).getLsbD n = if n < 8 then out.getD (8 * i + (7 - n)) false else false :=
  window_word out (8 * i) 8 n (by omega)

/-- Bit `n` of word `w` of a subkey (R70). -/
theorem subkeyWord_bits (k : Bits) (w n : Nat) (hk : k.length = 48) :
    (subkeyWord k w).getLsbD n = if n < 32 then k.getD (32 * w + (31 - n)) false else false := by
  have := window_word k (32 * w) 32 n (by omega)
  rw [hk] at this
  exact this

end Sys2Proof.Machine
end

