-- ==== Sys2Proof/Laws/Step.lean ====
section
/-! SUPPORT. Everything a step can do, said once, and what each command does to the host's side and the invariant. -/

namespace Sys2Proof.Machine

/-- Every command answers a next state in a valid configuration. -/
theorem exec_total (i : Instr) (s : State) (hv : cfgValid s.cfg = true) : ∃ t, exec i s = .next t := by
  cases i <;> simp only [exec, execNop, execClr, execKpush, execCpush, execBpush, execEncode, execMovo, execKeygenS,
    execKeygenT, execEnc, execTenc, execDec, execTdec, execLong, hv, if_true, Host.Outcome.next.injEq]
  case encode => split <;> exact ⟨_, rfl⟩
  all_goals exact ⟨_, rfl⟩

/-- No command touches the configuration or the host's side. -/
theorem exec_frame {i : Instr} {s t : State} (h : exec i s = .next t) :
    t.cfg = s.cfg ∧ t.todo = s.todo ∧ t.got = s.got := by
  cases i <;> simp only [exec, execNop, execClr, execKpush, execCpush, execBpush, execEncode, execMovo, execKeygenS,
    execKeygenT, execEnc, execTenc, execDec, execTdec, Host.Outcome.next.injEq] at h
  case nop => subst h; exact ⟨rfl, rfl, rfl⟩
  case clr m =>
    subst h
    cases maskK m <;> cases maskC m <;> cases maskI m <;> cases maskO m <;> cases maskF m <;> cases maskS m <;>
      exact ⟨rfl, rfl, rfl⟩
  case kpush b => subst h; unfold appendKey; split <;> exact ⟨rfl, rfl, rfl⟩
  case cpush b => subst h; unfold appendChar; split <;> exact ⟨rfl, rfl, rfl⟩
  case bpush v => subst h; unfold appendBit; split <;> exact ⟨rfl, rfl, rfl⟩
  case encode => split at h <;> cases h <;> exact ⟨rfl, rfl, rfl⟩
  case movo => subst h; exact ⟨rfl, rfl, rfl⟩
  all_goals
    obtain ⟨-, rfl⟩ := execLong_next h
    have := runLong_frame
    exact ⟨(this _ s).1, (this _ s).2.2.2.2.1, (this _ s).2.2.2.2.2⟩

/-- Every command leaves an idle core idle. -/
theorem exec_idle {i : Instr} {s t : State} (hv : cfgValid s.cfg = true) (hp : s.ph = .idle) (h : exec i s = .next t) :
    t.ph = .idle := by
  cases hf : longFieldsOf i with
  | some f =>
    rw [exec_long hf s hv] at h
    cases h
    rcases runLong_cases f s hv with ⟨-, he⟩ | ⟨-, h', he⟩ <;> rw [he] <;> rfl
  | none =>
    cases i <;> simp only [longFieldsOf, reduceCtorEq] at hf <;>
      simp only [exec, execNop, execClr, execKpush, execCpush, execBpush, execEncode, execMovo,
        Host.Outcome.next.injEq] at h
    case nop => subst h; exact hp
    case clr m =>
      subst h
      cases maskK m <;> cases maskC m <;> cases maskI m <;> cases maskO m <;> cases maskF m <;> cases maskS m <;>
        exact hp
    case kpush b => subst h; unfold appendKey; split <;> first | rfl | exact hp
    case cpush b => subst h; unfold appendChar; split <;> first | rfl | exact hp
    case bpush v => subst h; unfold appendBit; split <;> first | rfl | exact hp
    case encode => split at h <;> cases h <;> first | rfl | exact hp
    case movo => subst h; exact hp

/-- Every command keeps the invariant of an idle core. -/
theorem inv_exec {i : Instr} {s t : State} (hi : Inv s) (hp : s.ph = .idle) (h : exec i s = .next t) : Inv t := by
  have hc := cfgFacts_of_valid hi.valid
  cases hf : longFieldsOf i with
  | some f =>
    rw [exec_long hf s hi.valid] at h
    cases h
    exact inv_runLong hi f
  | none =>
    cases i <;> simp only [longFieldsOf, reduceCtorEq] at hf <;>
      simp only [exec, execNop, execClr, execKpush, execCpush, execBpush, execEncode, execMovo,
        Host.Outcome.next.injEq] at h
    case nop => subst h; exact hi
    case clr m => subst h; exact inv_clear hi hp _ _ _ _ _ _
    case kpush b => subst h; exact inv_appendKey hi hp b
    case cpush b => subst h; exact inv_appendChar hi hp b
    case bpush v => subst h; exact inv_appendBit hi hp _
    case encode =>
      rw [if_neg (by have := encode_fits hc hi.charsFit; omega)] at h
      cases h
      exact inv_inbits hi hp _ _ (encode_fits hc hi.charsFit)
    case movo =>
      subst h
      exact inv_inbits hi hp _ s.lit hi.outFits

/-- What an accepted word does (R95, R96). -/
theorem runWord_cases {w : CmdWord} {s t : State} (h : runWord w s = .next t) :
    (∃ i, decode w = .command i ∧ exec i s = .next t) ∨
      (∃ why, decode w = .illegal why ∧ t = raise .illegalCommand s) := by
  unfold runWord at h
  cases hd : decode w with
  | command i => rw [hd] at h; exact .inl ⟨i, rfl, h⟩
  | illegal why => rw [hd] at h; cases h; exact .inr ⟨why, rfl, rfl⟩

/-- What a word presented at the sequencer level does (R30, R159). -/
theorem startWord_cases {w : CmdWord} {s t : State} (h : startWord w s = .next t) :
    (∃ i f, decode w = .command i ∧ longFieldsOf i = some f ∧ t = acceptLong f s) ∨
      (∃ i, decode w = .command i ∧ longFieldsOf i = none ∧ exec i s = .next t) ∨
      (∃ why, decode w = .illegal why ∧ t = raise .illegalCommand s) := by
  unfold startWord at h
  cases hd : decode w with
  | command i =>
    rw [hd] at h
    cases hf : longFieldsOf i with
    | some f => simp only [hf] at h; cases h; exact .inl ⟨i, f, rfl, hf, rfl⟩
    | none => simp only [hf] at h; exact .inr (.inl ⟨i, rfl, hf, h⟩)
  | illegal why => rw [hd] at h; cases h; exact .inr (.inr ⟨why, rfl, rfl⟩)

/-- Everything a step can do (R11, R30, R76, R290). -/
theorem step_cases {s t : State} (h : step s = .next t) :
    cfgValid s.cfg = true ∧
      ((s.ph = .idle ∧ s.todo = [] ∧ t = s) ∨
        (s.ph = .idle ∧ ∃ rest, s.todo = .pause :: rest ∧ t = withTodo rest s) ∨
        (∃ rest, s.todo = .reset :: rest ∧ t = hostReset (withTodo rest s)) ∨
        (s.ph = .idle ∧ ∃ ra rest, s.todo = .read ra :: rest ∧ t = serveRead ra (withTodo rest s)) ∨
        (s.ph = .idle ∧ ∃ w rest, s.todo = .command w :: rest ∧ runWord w (withTodo rest s) = .next t) ∨
        (s.ph = .idle ∧ ∃ w rest, s.todo = .start w :: rest ∧ startWord w (withTodo rest s) = .next t) ∨
        (s.ph ≠ .idle ∧ phaseReady s = true ∧
          ∃ q, (q = s.todo ∨ s.todo = .pause :: q) ∧ t = phaseStep (withTodo q s))) := by
  unfold step at h
  split at h
  · rename_i hv
    refine ⟨hv, ?_⟩
    split at h
    · rename_i hp
      unfold idleStep at h
      split at h <;> rename_i ht
      · cases h; exact .inl ⟨hp, ht, rfl⟩
      · cases h; exact .inr (.inl ⟨hp, _, ht, rfl⟩)
      · cases h; exact .inr (.inr (.inl ⟨_, ht, rfl⟩))
      · cases h; exact .inr (.inr (.inr (.inl ⟨hp, _, _, ht, rfl⟩)))
      · exact .inr (.inr (.inr (.inr (.inl ⟨hp, _, _, ht, h⟩))))
      · exact .inr (.inr (.inr (.inr (.inr (.inl ⟨hp, _, _, ht, h⟩)))))
    · rename_i hp
      have seq : ∀ q, busyStep.sequencerStep (withTodo q s) = .next t →
          phaseReady s = true ∧ t = phaseStep (withTodo q s) := by
        intro q hq
        unfold busyStep.sequencerStep at hq
        split at hq
        · rename_i hr
          cases hq
          exact ⟨hr, rfl⟩
        · cases hq
      have same : busyStep.sequencerStep s = .next t →
          phaseReady s = true ∧ t = phaseStep (withTodo s.todo s) := seq s.todo
      unfold busyStep at h
      split at h <;> rename_i ht
      · cases h; exact .inr (.inr (.inl ⟨_, ht, rfl⟩))
      · have := seq _ h
        exact .inr (.inr (.inr (.inr (.inr (.inr ⟨hp, this.1, _, .inr ht, this.2⟩)))))
      all_goals
        have := same h
        exact .inr (.inr (.inr (.inr (.inr (.inr ⟨hp, this.1, _, .inl rfl, this.2⟩)))))
  · cases h

/-! ## The running sequencer -/

/-- A running core takes one phase rule, whatever transaction waits (R76). -/
theorem step_busy {s : State} (h : Inv s) (hp : s.ph ≠ .idle) (hr : ∀ a ∈ s.todo.head?, a ≠ .reset ∧ a ≠ .pause) :
    step s = .next (phaseStep s) := by
  rw [step, if_pos h.valid, if_neg hp, busyStep]
  split
  · rename_i e; rw [e] at hr; simp at hr
  · rename_i e; rw [e] at hr; simp at hr
  all_goals simp [busyStep.sequencerStep, phaseReady_of_inv h]

/-- With nothing presented, a run is the phase rules applied that often; an idle core stays as it is (R30). -/
theorem run_quiet (n : Nat) (s : State) (h : Inv s) (ht : s.todo = []) :
    core.run n s = .next (phaseStep^[n] s) := by
  induction n generalizing s with
  | zero => rfl
  | succ n ih =>
    have hs : core.step s = .next (phaseStep s) := by
      show step s = _
      by_cases hp : s.ph = .idle
      · rw [phaseStep_idle hp, step, if_pos h.valid, if_pos hp]
        simp only [idleStep, ht]
        rfl
      · exact step_busy h hp (by simp [ht])
    have hr : core.run (n + 1) s = core.run n (phaseStep s) := by
      simp only [Host.Core.run, hs]
    rw [hr, Function.iterate_succ_apply]
    obtain ⟨-, -, -, -, -, -, -, hq, -⟩ := phaseStep_frame s
    exact ih _ (inv_phaseStep h) (hq.trans ht)

end Sys2Proof.Machine
end

