-- ==== Sys2Proof/Tests/Slice0.lean ====
section
/-! SUPPORT. The model's own tests, each with its source in spec/, and for every statement that has hypotheses a witness
that they can be met together. -/

namespace Sys2Proof.Tests

set_option Elab.async false

open Sys2Proof Sys2Proof.Machine

/-! ## Helpers -/

/-- A bit sequence written in hexadecimal: `n` bits (00_scope.md R7). -/
def hex (v n : Nat) : Bits := bitsN v n

/-- An idle `CFG-DES64` core with a key and an input. -/
def core64 (key input : Bits) : State := { State.reset with keybuf := key, inbits := input }

/-- An idle `CFG-DES56` core with a key and an input. -/
def core56 (key input : Bits) : State := { resetState cfgDes56 with keybuf := key, inbits := input }

/-- What a test looks at in the state a command leaves. -/
def after {α : Type} (i : Instr) (s : State) (f : State → α) : Option α :=
  match exec i s with
  | .next t => some (f t)
  | .fault _ => none
  | .refused _ => none

/-- The key `sandvest` (95_test_vectors.md). -/
def sandvest : Bits := hex 0x73616E6476657374 64

/-- The bytes of `stian sandve` (95_test_vectors.md). -/
def stianSandve : List Byte :=
  [0x73#8, 0x74#8, 0x69#8, 0x61#8, 0x6E#8, 0x20#8, 0x73#8, 0x61#8, 0x6E#8, 0x64#8, 0x76#8, 0x65#8]

/-! ## Well-formedness: each check refuses an ill-formed line (30_encoding.md R97) -/

theorem test_wf_kpush : AsmLine.wf (.kpush 256) = false ∧ AsmLine.wf (.kpush 255) = true := by decide
theorem test_wf_cpush : AsmLine.wf (.cpush 256) = false ∧ AsmLine.wf (.cpush 255) = true := by decide
theorem test_wf_bpush : AsmLine.wf (.bpush 2) = false ∧ AsmLine.wf (.bpush 1) = true := by decide
theorem test_wf_clr : AsmLine.wf (.clr 64) = false ∧ AsmLine.wf (.clr 63) = true := by decide
theorem test_wf_clr_letters : AsmLine.wf (.clrLetters []) = false ∧ AsmLine.wf (.clrLetters [.S]) = true := by decide
theorem test_wf_assemble : assemble (.kpush 256) = none ∧ assemble (.clrLetters [.K, .I, .O]) = some (.clr 0x0D#6) ∧
    assemble .clrAll = some (.clr 0x3F#6) := by decide

/-! ## Decoding, from the patterns of 30_encoding.md R93 written out bit by bit -/

theorem test_decode_nop : decode 0b0000000000000000#16 = .command .nop := by decide
theorem test_decode_clr : decode 0b0001000000101111#16 = .command (.clr 0b101111#6) := by decide
theorem test_decode_kpush : decode 0b0010000001110011#16 = .command (.kpush 0b01110011#8) := by decide
theorem test_decode_cpush : decode 0b0011000000100000#16 = .command (.cpush 0b00100000#8) := by decide
theorem test_decode_bpush : decode 0b0100000000000001#16 = .command (.bpush 1#1) := by decide
theorem test_decode_encode : decode 0b0101000000000000#16 = .command .encode := by decide
theorem test_decode_movo : decode 0b0110000000000000#16 = .command .movo := by decide
theorem test_decode_keygenS : decode 0b1000000000000000#16 = .command .keygenS := by decide
theorem test_decode_keygenT : decode 0b1000000100000000#16 = .command .keygenT := by decide
theorem test_decode_enc : decode 0b1001000000000000#16 = .command .enc := by decide
theorem test_decode_tenc : decode 0b1001000100000000#16 = .command .tenc := by decide
theorem test_decode_dec : decode 0b1001001000000000#16 = .command .dec := by decide
theorem test_decode_tdec : decode 0b1001001100000000#16 = .command .tdec := by decide

/-- The illegal examples of R99 and one word on each side of a field's limit (R95). -/
theorem test_decode_illegal :
    [0x7000#16, 0x0001#16, 0x9400#16, 0x10FF#16, 0x4002#16, 0x8200#16, 0xA000#16, 0xFFFF#16, 0x1040#16, 0x2100#16,
      0x9001#16].all (fun w => decodeTableWord 16 w.toNat == none) = true := by decide
theorem test_decode_table_word : decodeTableWord 16 0x2073 = some (.kpush 0x73#8) := by decide

/-! ## Bit-sequence utilities, from the examples of 40_bitseq_utilities.md -/

theorem test_rotl : rotl (hex 0b10110010 8) 3 = hex 0b10010101 8 ∧ rotl (hex 0b10110010 8) 11 = hex 0b10010101 8 := by
  decide
theorem test_rotr : rotr (hex 0b10110010 8) 3 = hex 0b01010110 8 := by decide
theorem test_rot : rot (hex 0b10110010 8) 2 = hex 0b10101100 8 ∧ rot (hex 0b10110010 8) (-2) = hex 0b11001010 8 := by
  decide
theorem test_split_swap : split (hex 0b10110010 8) = (hex 0b1011 4, hex 0b0010 4) ∧
    swapHalves (hex 0b10110010 8) = hex 0b00101011 8 ∧ cat (hex 0b1011 4) (hex 0b0010 4) = hex 0b10110010 8 := by decide
theorem test_xor : xorBits (hex 0b10110010 8) (hex 0b11001010 8) rfl = hex 0b01111000 8 := by decide
theorem test_perm : perm [8, 1, 1, 3, 5, 2] (hex 0b10110010 8) = hex 0b011100 6 := by decide

/-! ## Datapath, from the examples of 42_key_schedule.md, 43_round_function.md and 44_block_pipeline.md -/

/-- R152: the working key of `sandvest`. -/
theorem test_working_key : workingKey cfgDes64 sandvest = hex 0x00FFFFD55BC041 56 := by decide +kernel
/-- R172: lane 0 of `011000` selects row 0, column 12. -/
theorem test_sbox_lane : sboxLane cfgDes64 0 (hex 0b011000 6) = hex 0b0101 4 := by decide +kernel
/-- R175. -/
theorem test_round_function : roundF cfgDes64 (hex 0xF0AAF0AA 32) (hex 0x1B02EFFC7072 48) rfl =
    hex 0x234AA9BB 32 := by decide +kernel
/-- R176. -/
theorem test_feistel_round : feistelRound cfgDes64 (hex 0xCC00CCFFF0AAF0AA 64) (hex 0x1B02EFFC7072 48) rfl rfl =
    hex 0xF0AAF0AAEF4A6544 64 := by decide +kernel
/-- R178: a round under the same subkey twice is no identity. -/
theorem test_round_twice :
    let k := hex 0x1B02EFFC7072 48
    feistelRound cfgDes64 (feistelRound cfgDes64 (hex 0xCC00CCFFF0AAF0AA 64) k rfl rfl) k rfl
        (feistelRound_fits ..) = hex 0xEF4A654443EF080C 64 := by
  decide +kernel
/-- R175: all zeros. -/
theorem test_round_function_zero : roundF cfgDes64 (zeros 32) (zeros 48) rfl = hex 0xD8D8DBBC 32 := by decide +kernel
/-- R193: the front pad of a short last chunk. -/
theorem test_chunk : chunk cfgDes64 (hex 0b1010010100101010100001 22) 0 = hex 0x0000000000294AA1 64 := by decide +kernel
/-- R199. -/
theorem test_unpad : unpad cfgDes64 (hex 0x737469616E207361000000006E647665 128) 96 =
    hex 0x737469616E2073616E647665 96 := by decide +kernel

/-! ## Commands: at most two tests each, one step on a small state -/

/-- R241, and R71's reading of an unmapped address in that state. -/
theorem test_nop : after .nop (core64 sandvest []) (fun t => (t.keybuf == sandvest, readPort t 0x0005#16)) =
    some (true, 0#32) := by decide +kernel

/-- R242's example: after a run with `STATUS` 0x12, `CLR 0x2F` leaves 0x02. -/
theorem test_clr_keeps_flags :
    after (.clr 0x2F#6) { core64 sandvest [true] with done := true, skv := ⟨true, false, false⟩ }
      (fun t => (readPort t 0x0000#16, readPort t 0x0002#16, readPort t 0x0004#16)) = some (0x02#32, 0#32, 0#32) := by
  decide +kernel
/-- R242's example continued: `CLR 0x10` leaves `STATUS` 0. -/
theorem test_clr_flags :
    after (.clr 0x10#6) { State.reset with done := true, err := true, lit := true, errcode := 3#2 }
      (fun t => (readPort t 0x0000#16, readPort t 0x0001#16)) = some (0#32, 0#32) := by decide +kernel

/-- R243's first word of `KEY "sandvest"`: `s` is 01110011. -/
theorem test_kpush : after (.kpush 0x73#8) State.reset (fun t => t.keybuf) =
    some [false, true, true, true, false, false, true, true] := by decide +kernel
/-- V-X3: the 33rd byte is dropped. -/
theorem test_kpush_overflow : after (.kpush 0#8) (core64 (zeros 256) [])
    (fun t => (t.keybuf.length, t.err, t.errcode, t.ph)) = some (256, true, 3#2, .idle) := by decide +kernel

/-- R244. -/
theorem test_cpush : after (.cpush 0x20#8) { State.reset with charbuf := [0x30#8] } (fun t => t.charbuf) =
    some [0x30#8, 0x20#8] := by decide +kernel
/-- R244's error, and R264: a second error keeps the first code. -/
theorem test_cpush_overflow :
    after (.cpush 1#8) { State.reset with charbuf := List.replicate 1024 0#8, err := true, errcode := 1#2 }
      (fun t => (t.charbuf.length, t.err, t.errcode)) = some (1024, true, 1#2) := by decide +kernel

/-- R245's example: 0x4001 on an empty input. -/
theorem test_bpush : after (.bpush 1#1) State.reset (fun t => (t.inbits, readPort t 0x0004#16)) = some ([true], 1#32) := by
  decide +kernel
/-- R245: the bit goes to the end. -/
theorem test_bpush_appends : after (.bpush 0#1) (core64 [] [true]) (fun t => t.inbits) = some [true, false] := by
  decide +kernel

/-- P1: `stian sandve` gives 96 bits and `LIT` 0. -/
theorem test_encode_text : after .encode { State.reset with charbuf := stianSandve, lit := true }
    (fun t => (t.inbits, t.lit)) = some (hex 0x737469616E2073616E647665 96, false) := by decide +kernel
/-- P15: `0110` is a literal of four bits. -/
theorem test_encode_literal :
    after .encode { State.reset with charbuf := [0x30#8, 0x31#8, 0x31#8, 0x30#8], inbits := [true] }
      (fun t => (t.inbits, t.lit)) = some (hex 0b0110 4, true) := by decide +kernel

/-- R246. -/
theorem test_movo : after .movo { core64 [] [true] with outbits := hex 0x09B3 64, lit := true }
    (fun t => (t.inbits, t.outbits, t.lit)) = some (hex 0x09B3 64, hex 0x09B3 64, true) := by decide +kernel

/-- P7: the subkeys of `sandvest`, read through the window, and `STATUS` (R158). -/
theorem test_keygenS : after .keygenS (core64 sandvest [])
    (fun t => (readPort t 0x0000#16, readPort t 0x8000#16, readPort t 0x8001#16, readPort t 0x803C#16, readPort t 0x8040#16,
      readPort t 0x8400#16)) = some (0x12#32, 0xF0BE6EA5#32, 0x26060000#32, 0xF1BEA693#32, 0#32, 0#32) := by decide +kernel
/-- R158: a wide key is not a single key. -/
theorem test_keygenS_wide : after .keygenS (core56 (zeros 168) []) (fun t => (t.err, t.errcode, t.done)) =
    some (true, 1#2, false) := by decide +kernel

/-- P17: the three banks of `sandvestsandvestsandv`, and `STATUS`. -/
theorem test_keygenT : after .keygenT (core56 (hex 0x73616E647665737473616E647665737473616E6476 168) [])
    (fun t => (readPort t 0x0000#16, readPort t 0x8000#16, readPort t 0x8400#16, readPort t 0x8800#16, readPort t 0x883D#16)) =
    some (0x72#32, 0x4AF0959C#32, 0xEE988196#32, 0x6A5C93B0#32, 0x82B90000#32) := by decide +kernel
/-- V-X8. -/
theorem test_keygenT_single : after .keygenT (core64 sandvest []) (fun t => readPort t 0x0000#16) = some 0x04#32 := by
  decide +kernel

/-- The published block of R137 and R195. -/
theorem test_enc : after .enc (core64 (hex 0x133457799BBCDFF1 64) (hex 0x0123456789ABCDEF 64)) (fun t => t.outbits) =
    some (hex 0x85E813540F0AB405 64) := by decide +kernel
/-- P9: no key, though the input is empty; the old output is gone. -/
theorem test_enc_invalid : after .enc { State.reset with outbits := zeros 64, done := true, lit := true }
    (fun t => (readPort t 0x0000#16, readPort t 0x0001#16, t.outbits)) = some (0x0C#32, 1#32, []) := by decide +kernel

/-- The same block back (44_block_pipeline.md R200). -/
theorem test_dec : after .dec (core64 (hex 0x133457799BBCDFF1 64) (hex 0x85E813540F0AB405 64)) (fun t => t.outbits) =
    some (hex 0x0123456789ABCDEF 64) := by decide +kernel
/-- P8's shape for `DEC`: an empty input with a valid key. -/
theorem test_dec_empty : after .dec (core64 sandvest []) (fun t => (readPort t 0x0000#16, t.outbits)) =
    some (0x12#32, []) := by decide +kernel

/-- P4, the first block of the cascade: `INBITS` keeps the second stage's output (R235). -/
theorem test_tenc : after .tenc (core56 (hex 0x73616E647665737473616E647665737473616E6476 168) (hex 0x737469616E207361 64))
    (fun t => (t.inbits, t.outbits)) = some (hex 0xEA66CA740F972B09 64, hex 0x6B6170C1015C9045 64) := by decide +kernel
/-- P16: a single key is no wide key; the input stays. -/
theorem test_tenc_invalid : after .tenc (core64 sandvest (hex 0x61 8)) (fun t => (readPort t 0x0000#16, t.inbits)) =
    some (0x04#32, hex 0x61 8) := by decide +kernel

/-- R235: an empty input with a valid wide key; all three banks are valid. -/
theorem test_tdec_empty : after .tdec (core56 (hex 0x73616E647665737473616E647665737473616E6476 168) [])
    (fun t => (readPort t 0x0000#16, t.outbits)) = some (0x72#32, []) := by decide +kernel
/-- P4 backwards, its first block: the cascade undone (R237), `INBITS` as in P4. -/
theorem test_tdec : after .tdec (core56 (hex 0x73616E647665737473616E647665737473616E6476 168) (hex 0x6B6170C1015C9045 64))
    (fun t => (t.inbits, t.outbits)) = some (hex 0xE33458BEE03C5EC3 64, hex 0x737469616E207361 64) := by decide +kernel

/-- R69's example, and the byte beyond the output. -/
theorem test_out_bytes : let s := { State.reset with outbits := hex 0x09B3C93702E4B2A5 64 }
    (readPort s 0x4000#16, readPort s 0x4001#16, readPort s 0x4008#16) = (0x09#32, 0xB3#32, 0#32) := by decide +kernel

/-- 95_test_vectors.md section 7.3: the configuration words of `CFG-DES64` and the flags of the other two. -/
theorem test_config_words :
    [0x0006#16, 0x0007#16, 0x0008#16, 0x0009#16, 0x000A#16, 0x000B#16, 0x000C#16, 0x000D#16, 0x000E#16].map
        (readPort State.reset) =
      [0x10#32, 0x40#32, 0x40#32, 0x3#32, 0x38#32, 0x30#32, 0x100#32, 0x400#32, 0x2000#32] ∧
    readPort (resetState cfgDes56) 0x0009#16 = 0x1#32 ∧ readPort (resetState cfgDes64NoIp) 0x0009#16 = 0x2#32 := by
  decide +kernel

/-- One step of the whole machine: an illegal word is recorded (V-X2). -/
theorem test_step_illegal : (match step { State.reset with todo := [.command 0x7000#16] } with
    | .next t => some (t.err, t.errcode, t.todo)
    | _ => none) = some (true, 2#2, []) := by decide +kernel

/-! ## Witnesses: the hypotheses of every statement can be met together

One theorem per statement that has hypotheses, on concrete states and operands; boundary values of each range. The states
of a running sequencer are those of a small valid configuration. -/

/-- A valid configuration of two rounds on blocks of two bits, with an 8-bit key. -/
def cfgTiny : Cfg where
  rounds := 2
  block := 2
  kw := 8
  useIp := false
  ip := []
  ipinv := []
  e := List.replicate 48 1
  p := [32]
  s := List.replicate 8 (List.replicate 4 (List.replicate 16 5))
  pc1 := [8, 1, 3, 5]
  pc2 := List.replicate 24 1 ++ List.replicate 24 4
  shifts := [1, 1]
  keycap := 24
  charcap := 1
  bitcap := 8

theorem cfgTiny_valid : cfgValid cfgTiny = true := by decide +kernel

/-- An idle core of `cfgTiny` with a three-byte key, or with a one-byte key. -/
def key1 : State := appendKey (keyBits 0x5A#8) (resetState cfgTiny)
def key3 : State := appendKey (keyBits 0x0F#8) (appendKey (keyBits 0x33#8) key1)
/-- The same with a three-bit input: two blocks, the last one short. -/
def load1 : State := { key1 with inbits := [true, false, true], lit := false }
def load3 : State := { key3 with inbits := [true, false, true], lit := false }

theorem inv_key1 : Inv key1 := inv_appendKey (inv_resetFields cfgTiny_valid) rfl _
theorem inv_key3 : Inv key3 :=
  inv_appendKey (inv_appendKey inv_key1 (by decide +kernel) _) (by decide +kernel) _
theorem inv_load1 : Inv load1 := inv_inbits inv_key1 (by decide +kernel) _ _ (by decide +kernel)
theorem inv_load3 : Inv load3 := inv_inbits inv_key3 (by decide +kernel) _ _ (by decide +kernel)

/-- The core `n` steps after it accepted a long command. -/
def running (f : LongFields) (s : State) (n : Nat) : State := phaseStep^[n] (acceptLong f s)

theorem inv_running (f : LongFields) {s : State} (h : Inv s) (n : Nat) : Inv (running f s n) :=
  inv_iterate (inv_acceptLong h f) n

/-- A state with something for the host to do. -/
def offering (s : State) (q : List HostAction) : State := { s with todo := q, got := s.got }

theorem inv_offering {s : State} (h : Inv s) (q : List HostAction) : Inv (offering s q) := inv_host h q s.got

/-! ### Encoding -/

theorem witness_OpcodeMapSelectsTheCommand :
    decode 0x2000#16 = .command (.kpush 0#8) ∧ decode 0x103F#16 = .command (.clr 0x3F#6) ∧
      (⟨"KPUSH", 0x2000#16, 0xFF00#16⟩ ∈ opcodeMap) ∧ 0x20FF#16 &&& 0xFF00#16 = 0x2000#16 := by decide

theorem witness_AssemblerLinesAndPseudoInstructions :
    assemble (.kpush 255) = some (.kpush 0xFF#8) ∧ assemble (.cpush 0) = some (.cpush 0#8) ∧
      assemble (.bpush 1) = some (.bpush 1#1) ∧ assemble (.clr 63) = some (.clr 0x3F#6) := by decide

/-! ### The step -/

theorem witness_StepRunsTheDecodedCommand :
    let s := offering State.reset [.command 0x20FF#16]
    cfgValid s.cfg = true ∧ s.ph = .idle ∧ s.todo = .command 0x20FF#16 :: [] ∧ decode 0x20FF#16 = .command (.kpush 0xFF#8) :=
  ⟨cfgDes64_valid, rfl, rfl, by decide⟩

theorem witness_IllegalWordOnlyRaises :
    let s := offering State.reset [.command 0xFFFF#16]
    let u := offering State.reset [.start 0x0001#16]
    cfgValid s.cfg = true ∧ s.ph = .idle ∧ s.todo = .command 0xFFFF#16 :: [] ∧
      decode 0xFFFF#16 = .illegal .reservedOpcode ∧ cfgValid u.cfg = true ∧ u.ph = .idle ∧
      u.todo = .start 0x0001#16 :: [] ∧ decode 0x0001#16 = .illegal .reservedImm :=
  ⟨cfgDes64_valid, rfl, rfl, by decide, cfgDes64_valid, rfl, rfl, by decide⟩

theorem witness_ResetInAnyPhase :
    let s := offering (running fieldsEnc load1 3) [.reset]
    cfgValid s.cfg = true ∧ s.todo = .reset :: [] ∧ s.ph = .kround :=
  ⟨(inv_offering (inv_running _ inv_load1 3) _).valid, rfl, by decide +kernel⟩

theorem witness_TransactionsWaitForIdle :
    (cfgValid State.reset.cfg = true ∧ State.reset.ph = .idle ∧ State.reset.todo = []) ∧
      (let s := offering (running fieldsEnc load1 0) [.read 0#16]
       Inv s ∧ s.ph ≠ .idle ∧ ∀ a ∈ s.todo.head?, a ≠ .reset ∧ a ≠ .pause) ∧
      ∃ t, step (offering State.reset [.read 0x0006#16]) = .next t ∧ t.got ≠ State.reset.got := by
  refine ⟨⟨cfgDes64_valid, rfl, rfl⟩, ⟨inv_offering (inv_running _ inv_load1 0) _, by decide +kernel, ?_⟩, ?_⟩
  · intro a ha
    cases ha
    decide
  · refine ⟨serveRead 0x0006#16 State.reset, ?_, by decide +kernel⟩
    rw [step, if_pos (show cfgValid (offering State.reset [.read 0x0006#16]).cfg = true from cfgDes64_valid)]
    rfl

theorem witness_StepKeepsConfiguration : ∃ t, step State.reset = .next t := by
  refine ⟨State.reset, ?_⟩
  rw [step, if_pos (show cfgValid State.reset.cfg = true from cfgDes64_valid)]
  rfl

/-! ### The read port -/

theorem witness_ReadHasNoSideEffect :
    let s := offering State.reset [.read 0xFFFF#16]
    cfgValid s.cfg = true ∧ s.ph = .idle ∧ s.todo = .read 0xFFFF#16 :: [] := ⟨cfgDes64_valid, rfl, rfl⟩

theorem witness_RegisterWords : Inv State.reset ∧ Inv load3 := ⟨inv_resetFields cfgDes64_valid, inv_load3⟩

theorem witness_UnmappedReadsZero :
    let s := offering State.reset [.read 0x3FFF#16]
    cfgValid s.cfg = true ∧ s.ph = .idle ∧ s.todo = .read 0x3FFF#16 :: [] ∧
      (∀ ra ∈ [0x000F#16, 0x3FFF#16, 0x8C00#16, 0xFFFF#16],
        (0x000F ≤ ra.toNat ∧ ra.toNat ≤ 0x3FFF) ∨ 0x8C00 ≤ ra.toNat) :=
  ⟨cfgDes64_valid, rfl, rfl, by simp⟩

theorem witness_StatusWordBits : 7 ≤ 7 := by decide

theorem witness_OutputByteBits : 0x3FFF < 0x4000 ∧ 7 < 8 ∧ 8 ≤ 8 := by decide

theorem witness_SubkeyWindowBits :
    Inv State.reset ∧ State.reset.ph = .idle ∧ State.reset.skv.get 2 = false ∧ State.reset.cfg.rounds ≤ 255 ∧
      15 < State.reset.cfg.rounds ∧ (0x8000 + 1024 * 2 + 4 * 255 + 3 : Nat) = 0x8BFF ∧
      (running fieldsTenc load3 10).skv.get 2 = true :=
  ⟨inv_resetFields cfgDes64_valid, rfl, rfl, by decide, by decide, rfl, by decide +kernel⟩

/-! ### Short commands -/

theorem witness_NopChangesNothing : fieldOp 0x0FFF#16 = 0#4 ∧ (0x0FFF#16 : CmdWord) ≠ 0#16 := by decide

theorem witness_ClrAllIsArchitecturalReset : load3.ph = .idle := by decide +kernel

theorem witness_KpushAppendsByte :
    key3.keybuf.length + 8 > key3.cfg.keycap ∧
      (appendKey (keyBits 0#8) key1).keybuf.length + 8 = (appendKey (keyBits 0#8) key1).cfg.keycap := by decide +kernel

theorem witness_CpushAppendsCharacter :
    (resetState cfgTiny).charbuf.length + 1 = (resetState cfgTiny).cfg.charcap ∧
      (appendChar 0#8 (resetState cfgTiny)).charbuf.length + 1 > (appendChar 0#8 (resetState cfgTiny)).cfg.charcap := by
  decide +kernel

theorem witness_BpushAppendsBit :
    let full := { resetState cfgTiny with inbits := zeros 8 }
    let room := { resetState cfgTiny with inbits := zeros 7 }
    full.inbits.length + 1 > full.cfg.bitcap ∧ room.inbits.length + 1 = room.cfg.bitcap := by decide +kernel

theorem witness_InputClassification :
    (∀ c ∈ ([] : List Byte), c = 0x30#8 ∨ c = 0x31#8) ∧ (∀ c ∈ [0x30#8, 0x31#8], c = 0x30#8 ∨ c = 0x31#8) ∧
      ∃ c ∈ [0x30#8, 0x20#8, 0x31#8], c ≠ 0x30#8 ∧ c ≠ 0x31#8 := by decide

/-- The text clause at a full buffer, the literal clause, and an invalid configuration for the overflow. -/
theorem witness_EncodeReplacesInput :
    let s := { resetState cfgTiny with charbuf := [0xFF#8] }
    let u := { resetState { cfgTiny with bitcap := 7 } with charbuf := [0xFF#8] }
    encodeInput (.chars s.charbuf) = (List.replicate 8 true, some false) ∧ 8 = s.cfg.bitcap ∧
      encodeInput (.chars u.charbuf) = (List.replicate 8 true, some false) ∧ 8 > u.cfg.bitcap ∧
      cfgValid s.cfg = true ∧ s.charbuf.length ≤ s.cfg.charcap := by decide +kernel

/-- An error raised with `ERR` 0 before it and with `ERR` 1 before it. -/
theorem witness_ShortCommandsFrame :
    longFieldsOf .movo = none ∧ load1.ph = .idle ∧ (∃ t, exec .movo load1 = .next t) ∧ key3.err = false ∧
      ∀ e, ∃ t u, exec (.kpush 0#8) { key3 with err := e } = .next t ∧
        exec (.kpush 0#8) { { key3 with err := e } with err := false } = .next u ∧ u.err = true :=
  ⟨rfl, by decide +kernel, ⟨_, rfl⟩, by decide +kernel, fun e => ⟨_, _, rfl, rfl, by cases e <;> decide +kernel⟩⟩

/-! ### Long commands -/

theorem witness_KeygenCommands :
    cfgValid load1.cfg = true ∧ load1.keybuf.length = load1.cfg.kw ∧ load1.keybuf.length ≠ 3 * load1.cfg.kw ∧
      cfgValid load3.cfg = true ∧ load3.keybuf.length = 3 * load3.cfg.kw ∧ load3.keybuf.length ≠ load3.cfg.kw := by
  decide +kernel

theorem witness_CryptCommands :
    cfgValid load1.cfg = true ∧ load1.keybuf.length = load1.cfg.kw ∧ load3.keybuf.length ≠ load3.cfg.kw ∧
      { load1 with inbits := List.replicate 8 true }.inbits = (encodeInput (.chars [0xFF#8])).1 := by decide +kernel

theorem witness_CascadeCommands :
    cfgValid load3.cfg = true ∧ load3.keybuf.length = 3 * load3.cfg.kw ∧ cfgValid load1.cfg = true ∧
      load1.keybuf.length ≠ 3 * load1.cfg.kw := by decide +kernel

theorem witness_EncodeThenCryptIsProcess :
    let s := { key1 with charbuf := [0x61#8] }
    let u := { key3 with charbuf := [0x30#8] }
    cfgValid s.cfg = true ∧ s.charbuf.length ≤ s.cfg.charcap ∧ s.keybuf.length = s.cfg.kw ∧ cfgValid u.cfg = true ∧
      u.charbuf.length ≤ u.cfg.charcap ∧ u.keybuf.length = 3 * u.cfg.kw := by decide +kernel

theorem witness_InvalidKeyExactlyOnLength :
    longFieldsOf .enc = some fieldsEnc ∧ cfgValid load1.cfg = true ∧ (runLong fieldsEnc load1).done = true ∧
      longFieldsOf .keygenT = some fieldsKeygenT ∧ (runLong fieldsKeygenT load1).done = false := by decide +kernel

/-- Each change the statement speaks of happens. -/
theorem witness_OnlyNamedCommandsWrite :
    cfgValid load1.cfg = true ∧ cfgValid load3.cfg = true ∧
      (∃ t, exec (.kpush 0#8) load1 = .next t ∧ t.keybuf ≠ load1.keybuf) ∧
      (∃ t, exec (.cpush 0#8) load1 = .next t ∧ t.charbuf ≠ load1.charbuf) ∧
      (∃ t, exec (.bpush 0#1) load1 = .next t ∧ t.inbits ≠ load1.inbits) ∧
      (∃ t, exec .tenc load3 = .next t ∧ t.inbits ≠ load3.inbits ∧ t.outbits ≠ load3.outbits ∧ t.done ≠ load3.done ∧
        t.sk ≠ load3.sk ∧ t.skv ≠ load3.skv) ∧
      (∃ t, exec .tenc load1 = .next t ∧ t.err ≠ load1.err ∧ t.errcode ≠ load1.errcode) ∧
      (∃ t, exec .encode load1 = .next t ∧ t.lit ≠ load1.lit) :=
  ⟨by decide +kernel, by decide +kernel, ⟨_, rfl, by decide +kernel⟩, ⟨_, rfl, by decide +kernel⟩,
    ⟨_, rfl, by decide +kernel⟩,
    ⟨_, rfl, by decide +kernel, by decide +kernel, by decide +kernel, by decide +kernel, by decide +kernel⟩,
    ⟨_, rfl, by decide +kernel, by decide +kernel⟩,
    ⟨{ load1 with inbits := [], lit := true }, by
      simp only [exec, execEncode]
      rw [if_neg (show ¬ (encodeChars load1.charbuf).length > load1.cfg.bitcap by decide +kernel)]
      rfl, by decide +kernel⟩⟩

theorem witness_FirstErrorIsKept :
    let s := { key3 with err := true, errcode := 2#2 }
    cfgValid s.cfg = true ∧ s.err = true ∧ (∃ t, exec (.kpush 0#8) s = .next t) ∧ (∃ t, exec (.clr 0x2F#6) s = .next t) ∧
      (0x2F#6).getLsbD 4 = false := ⟨cfgTiny_valid, rfl, ⟨_, rfl⟩, ⟨_, rfl⟩, by decide⟩

theorem witness_ErrorDoesNotAlterCommands : cfgValid load1.cfg = true ∧ ∃ t, exec .enc load1 = .next t :=
  ⟨by decide +kernel, ⟨_, rfl⟩⟩

theorem witness_BanksDoNotDependOnDirection :
    cfgValid load3.cfg = true ∧ ∃ t1 t2 t3 u1 u2 u3, exec .enc load3 = .next t1 ∧ exec .dec load3 = .next t2 ∧
      exec .keygenS load3 = .next t3 ∧ exec .tenc load3 = .next u1 ∧ exec .tdec load3 = .next u2 ∧
      exec .keygenT load3 = .next u3 :=
  ⟨by decide +kernel, _, _, _, _, _, _, rfl, rfl, rfl, rfl, rfl, rfl⟩

/-! ### The sequencer -/

theorem witness_AcceptanceLatchesTheCommand :
    let s := offering load1 [.start (encode .tdec)]
    cfgValid s.cfg = true ∧ s.ph = .idle ∧ s.todo = .start (encode .tdec) :: [] ∧
      (Instr.tdec, true, true, false) ∈ [(Instr.keygenS, false, false, true), (.keygenT, true, false, true),
        (.enc, false, false, false), (.tenc, true, false, false), (.dec, false, true, false), (.tdec, true, true, false)] :=
  ⟨cfgTiny_valid, by decide +kernel, rfl, by decide⟩

/-- A state of every clause of the key schedule's phases: `KCHK` with each outcome, `KLOAD`, `KROUND` before and at the last
round, with a further bank, and with none for `KEYGEN` and for `ENC`. -/
theorem witness_KeySchedulePhases :
    (∀ n, Inv (running fieldsTenc load1 n) ∧ Inv (running fieldsKeygenT load3 n) ∧ Inv (running fieldsEnc load1 n)) ∧
      (let s := running fieldsTenc load1 0
       s.todo = [] ∧ s.ph = .kchk ∧ s.keybuf.length ≠ (if s.opt then 3 * s.cfg.kw else s.cfg.kw)) ∧
      (let s := running fieldsKeygenT load3 0
       s.todo = [] ∧ s.ph = .kchk ∧ s.keybuf.length = (if s.opt then 3 * s.cfg.kw else s.cfg.kw)) ∧
      (running fieldsKeygenT load3 1).ph = .kload ∧ (running fieldsKeygenT load3 1).todo = [] ∧
      (let s := running fieldsKeygenT load3 2
       s.todo = [] ∧ s.ph = .kround ∧ s.rc + 1 < s.cfg.rounds) ∧
      (let s := running fieldsKeygenT load3 3
       s.todo = [] ∧ s.ph = .kround ∧ s.rc + 1 = s.cfg.rounds ∧ s.bnk.val + 1 < (if s.opt then 3 else 1)) ∧
      (let s := running fieldsKeygenT load3 9
       s.todo = [] ∧ s.ph = .kround ∧ s.rc + 1 = s.cfg.rounds ∧ s.bnk.val + 1 = (if s.opt then 3 else 1) ∧ s.kgo = true) ∧
      (let s := running fieldsEnc load1 3
       s.todo = [] ∧ s.ph = .kround ∧ s.rc + 1 = s.cfg.rounds ∧ s.bnk.val + 1 = (if s.opt then 3 else 1) ∧
         s.kgo = false) :=
  ⟨fun n => ⟨inv_running _ inv_load1 n, inv_running _ inv_load3 n, inv_running _ inv_load1 n⟩, by decide +kernel⟩

/-- A state of every clause of the block phases. -/
theorem witness_BlockPhases :
    (∀ n, Inv (running fieldsTdec load3 n) ∧ Inv (running fieldsEnc key1 n)) ∧
      (running fieldsTdec load3 10).ph = .binit ∧ (running fieldsTdec load3 10).todo = [] ∧
      (running fieldsEnc key1 4).ph = .binit ∧ (running fieldsEnc key1 4).todo = [] ∧
      (running fieldsEnc key1 4).inbits = [] ∧ (running fieldsTdec load3 11).ph = .bfetch ∧
      (running fieldsTdec load3 11).todo = [] ∧
      (let s := running fieldsTdec load3 12
       s.todo = [] ∧ s.ph = .bround ∧ s.rc + 1 < s.cfg.rounds ∧ s.opd = true ∧ s.opt = true) ∧
      (let s := running fieldsTdec load3 13
       s.todo = [] ∧ s.ph = .bround ∧ s.rc + 1 = s.cfg.rounds) ∧
      (let s := running fieldsTdec load3 14
       s.todo = [] ∧ s.ph = .bstore ∧ s.bi + 1 < s.nb) ∧
      (let s := running fieldsTdec load3 18
       s.todo = [] ∧ s.ph = .bstore ∧ s.bi + 1 = s.nb) ∧
      (let s := running fieldsTdec load3 19
       s.todo = [] ∧ s.ph = .snext ∧ s.opt = true ∧ s.stg.val < 2) ∧
      (let s := running fieldsTdec load3 39
       s.todo = [] ∧ s.ph = .snext ∧ ¬ (s.opt = true ∧ s.stg.val < 2)) ∧
      (running fieldsEnc key1 5).ph = .snext ∧ (running fieldsEnc key1 5).todo = [] ∧ (running fieldsEnc key1 6).ph = .fin ∧ (running fieldsEnc key1 6).todo = [] :=
  ⟨fun n => ⟨inv_running _ inv_load3 n, inv_running _ inv_key1 n⟩, by decide +kernel⟩

/-- Every phase is reached, and from each of these states a step answers a next state. -/
theorem witness_PhaseGraph : ∀ p : Phase, ∃ s t, Inv s ∧ s.ph = p ∧ step s = .next t ∧ s.todo.head? ≠ some .reset := by
  have hb : ∀ n p, p ≠ Phase.idle → (running fieldsTdec load3 n).ph = p → (running fieldsTdec load3 n).todo = [] →
      ∃ s t, Inv s ∧ s.ph = p ∧ step s = .next t ∧ s.todo.head? ≠ some .reset := fun n p hp h ht =>
    ⟨running fieldsTdec load3 n, _, inv_running _ inv_load3 n, h,
      step_busy (inv_running _ inv_load3 n) (h ▸ hp) (by simp [ht]), by simp [ht]⟩
  intro p
  cases p
  case idle =>
    obtain ⟨t, ht⟩ := witness_StepKeepsConfiguration
    exact ⟨State.reset, t, inv_resetFields cfgDes64_valid, rfl, ht, by decide⟩
  case kchk => exact hb 0 _ (by decide) (by decide +kernel) (by decide +kernel)
  case kload => exact hb 1 _ (by decide) (by decide +kernel) (by decide +kernel)
  case kround => exact hb 2 _ (by decide) (by decide +kernel) (by decide +kernel)
  case binit => exact hb 10 _ (by decide) (by decide +kernel) (by decide +kernel)
  case bfetch => exact hb 11 _ (by decide) (by decide +kernel) (by decide +kernel)
  case bround => exact hb 12 _ (by decide) (by decide +kernel) (by decide +kernel)
  case bstore => exact hb 14 _ (by decide) (by decide +kernel) (by decide +kernel)
  case snext => exact hb 19 _ (by decide) (by decide +kernel) (by decide +kernel)
  case fin => exact hb 40 _ (by decide) (by decide +kernel) (by decide +kernel)

/-- Every row of the count: a wrong key, each `KEYGEN`, a single pass, the cascade. -/
theorem witness_SequencerRefinesLongCommands :
    (∀ i, let s := offering load1 [.start (encode i)]
      Inv s ∧ s.ph = .idle ∧ s.todo = [.start (encode i)]) ∧
    (∀ i, let s := offering load3 [.start (encode i)]
      Inv s ∧ s.ph = .idle ∧ s.todo = [.start (encode i)]) ∧
    longFieldsOf .keygenS = some fieldsKeygenS ∧ longFieldsOf .enc = some fieldsEnc ∧
    longFieldsOf .dec = some fieldsDec ∧ load1.keybuf.length = load1.cfg.kw ∧ load3.keybuf.length ≠ load3.cfg.kw ∧
    longFieldsOf .keygenT = some fieldsKeygenT ∧ longFieldsOf .tenc = some fieldsTenc ∧
    longFieldsOf .tdec = some fieldsTdec ∧ load3.keybuf.length = 3 * load3.cfg.kw ∧
    load1.keybuf.length ≠ 3 * load1.cfg.kw := by
  have h1 : load1.ph = .idle := by decide +kernel
  have h3 : load3.ph = .idle := by decide +kernel
  exact ⟨fun i => ⟨inv_offering inv_load1 _, h1, rfl⟩, fun i => ⟨inv_offering inv_load3 _, h3, rfl⟩, rfl, rfl, rfl,
    by decide +kernel, by decide +kernel, rfl, rfl, rfl, by decide +kernel, by decide +kernel⟩

theorem witness_SequencerCountsDownToIdle :
    let s := offering (running fieldsTdec load3 40) [.pause]
    Inv s ∧ s.todo.head? ≠ some .reset ∧ s.ph ≠ .idle ∧ remainingSteps s = 1 :=
  ⟨inv_offering (inv_running _ inv_load3 40) _, by decide, by decide +kernel, by decide +kernel⟩

/-! ### Whole machine -/

theorem witness_InvariantAtReset : cfgValid cfgTiny = true ∧ cfgValid cfgDes56 = true ∧ cfgValid cfgDes64NoIp = true :=
  ⟨cfgTiny_valid, cfgDes56_valid, cfgDes64NoIp_valid⟩

theorem witness_StepKeepsInvariant : ∃ s t, Inv s ∧ s.ph = .bround ∧ step s = .next t := by
  obtain ⟨s, t, h, hp, hs, -⟩ := witness_PhaseGraph .bround
  exact ⟨s, t, h, hp, hs⟩

theorem witness_StepStopsOnlyOutsideTheCore :
    Inv load3 ∧ cfgValid ({ State.reset with cfg := { cfgTiny with rounds := 0 } } : State).cfg = false :=
  ⟨inv_load3, by decide +kernel⟩

theorem witness_HiddenStateIsUnobservable :
    let s := offering load1 [.command (encode .enc)]
    let t := { s with rc := 1, stg := 2, bnk := 1, opt := true, c := [true, true], l := [true] }
    AgreeOnPorts s t ∧ s ≠ t ∧ s.ph = .idle ∧ (∀ w, HostAction.start w ∉ s.todo) ∧ ∃ s', step s = .next s' := by
  refine ⟨⟨rfl, rfl, rfl, rfl, rfl, rfl, rfl, rfl, rfl, rfl, rfl, rfl, rfl, rfl⟩, by decide +kernel, by decide +kernel,
    fun w => by simp [offering], runLong fieldsEnc load1, ?_⟩
  rw [step, if_pos (show cfgValid (offering load1 _).cfg = true from by decide +kernel),
    if_pos (show (offering load1 _).ph = .idle from by decide +kernel)]
  rfl

theorem witness_MachineRoundTrip :
    cfgValid load1.cfg = true ∧ load1.keybuf.length = load1.cfg.kw ∧ cfgValid load3.cfg = true ∧
      load3.keybuf.length = 3 * load3.cfg.kw := by decide +kernel

/-! ### The functional layer -/

theorem witness_RotationPositions : 0 < [true].length ∧ 3 < [true, false, true, true].length := by decide

theorem witness_RotationLaws : 0 < [true].length ∧ 0 < [true, false, true].length := by decide

theorem witness_PermutationLaws :
    0 < [1, 2, 2].length ∧ [true, false].length = [false, false].length ∧
      [false, false].length = [true, true].length ∧ (∀ j ∈ [1, 2, 2], 1 ≤ j ∧ j ≤ [true, false].length) ∧
      ∀ j ∈ [3, 1], 1 ≤ j ∧ j ≤ [1, 2, 2].length := by decide

theorem witness_SubkeyListLength :
    cfgValid cfgTiny = true ∧ (zeros 8).length = cfgTiny.kw ∧ (zeros 7).length ≠ cfgTiny.kw := by decide +kernel

theorem witness_SubkeysFromCumulativeRotation :
    cfgValid cfgTiny = true ∧ genSubKeys cfgTiny (zeros 8) = .ok (subkeysOf cfgTiny (zeros 8)) ∧ 0 < cfgTiny.rounds ∧
      1 < cfgTiny.rounds ∧ cfgTiny.kw ≠ cfgTiny.pc1.length ∧ cfgDes56.kw = cfgDes56.pc1.length :=
  ⟨cfgTiny_valid, rfl, by decide, by decide, by decide, by decide⟩

theorem witness_SubstitutionLanes : (zeros 48).length = 48 ∧ 0 < 8 ∧ 7 < 8 ∧ 3 < 4 ∧ cfgValid cfgDes64 = true :=
  ⟨by decide, by decide, by decide, by decide, cfgDes64_valid⟩

theorem witness_RoundWidthsAndInverse :
    cfgValid cfgTiny = true ∧ (zeros 2).length = cfgTiny.block ∧ (zeros 48).length = 48 ∧
      SubkeysFit [zeros 48, zeros 48] := by decide +kernel

theorem witness_ChunksAreFrontPadded :
    cfgValid cfgTiny = true ∧ 1 ≤ cfgTiny.block ∧ 1 < numBlocks cfgTiny (zeros 3).length ∧
      0 + 1 < numBlocks cfgTiny (zeros 3).length ∧ (zeros 4).length % cfgTiny.block = 0 ∧
      1 < numBlocks cfgTiny (zeros 4).length := by decide +kernel

theorem witness_OutputIsBlocksInOrder :
    cfgValid cfgTiny = true ∧ SubkeysFit (subkeysOf cfgTiny (zeros 8)) ∧ 1 < numBlocks cfgTiny (zeros 3).length ∧
      zeros 1 ≠ [] := by decide +kernel

theorem witness_ProcessRoundTrip :
    cfgValid cfgTiny = true ∧ genSubKeys cfgTiny (zeros 8) = .ok (subkeysOf cfgTiny (zeros 8)) ∧
      (zeros 4).length % cfgTiny.block = 0 := ⟨cfgTiny_valid, rfl, by decide⟩

theorem witness_CascadeIsThreeProcesses :
    cfgValid cfgTiny = true ∧ (zeros 24).length = 3 * cfgTiny.kw ∧ (zeros 8).length ≠ 3 * cfgTiny.kw := by
  decide +kernel

theorem witness_CascadeRoundTrip :
    cfgValid cfgTiny = true ∧ ∃ y, tripleProcess cfgTiny cfgTiny_valid (.bits [true, false, true]) (zeros 24) true = .ok y :=
  ⟨cfgTiny_valid, _, rfl⟩

theorem witness_CascadeIsPerBlock :
    cfgValid cfgTiny = true ∧ (∀ k, SubkeysFit (subkeysOf cfgTiny k)) ∧ 1 < numBlocks cfgTiny (zeros 3).length :=
  ⟨cfgTiny_valid, subkeysOf_fit cfgTiny_valid, by decide +kernel⟩

end Sys2Proof.Tests
end

section
/-! The reset state (10_state.md R38): its banks by index, and the table of its values. -/

namespace Sys2Proof.Machine

@[simp] theorem length_zeroBank (cfg : Cfg) : (zeroBank cfg).length = cfg.rounds := List.length_replicate

theorem eq_zeros_of_mem_zeroBank {cfg : Cfg} {k : Bits} (hk : k ∈ zeroBank cfg) : k = zeros skw :=
  List.eq_of_mem_replicate hk

@[simp] theorem resetState_sk_get (cfg : Cfg) (b : Fin 3) : (resetState cfg).sk.get b = zeroBank cfg :=
  Three.get_const _ b

@[simp] theorem resetState_skv_get (cfg : Cfg) (b : Fin 3) : (resetState cfg).skv.get b = false :=
  Three.get_const _ b

/-- Every bank of the reset state is `N` zero subkeys of 48 bits (R26, R38). -/
theorem resetState_bank_zero (cfg : Cfg) (b : Fin 3) :
    ((resetState cfg).sk.get b).length = cfg.rounds ∧ ∀ k ∈ (resetState cfg).sk.get b, k = zeros 48 := by
  rw [resetState_sk_get]
  exact ⟨length_zeroBank cfg, fun _ => eq_zeros_of_mem_zeroBank⟩

/-- Settles O9: the banks and their valid flags by index, every other row of R38 by computation. -/
theorem resetStateValues : Obligations.ResetStateValues := by
  intro cfg
  have hbanks := resetState_bank_zero cfg
  have hinvalid := resetState_skv_get cfg
  exact ⟨rfl, rfl, rfl, rfl, rfl, hbanks, hinvalid, rfl, rfl, rfl, rfl, rfl, rfl, rfl, rfl, rfl, rfl, rfl, rfl, rfl, rfl,
    rfl, rfl, rfl⟩

end Sys2Proof.Machine
end

section
/-! The read port (20_memory.md): the map's windows and unmapped ranges, the step that performs a read, and the reserved
bits of its words. -/

namespace Sys2Proof.Machine

/-! ## The map above the register words (R67) -/

/-- From 0x000F up the map has the two windows, and nothing between and beyond them. -/
theorem readPort_above_registers (s : State) (ra : ReadAddr) (h : 0x000F ≤ ra.toNat) :
    readPort s ra =
      if ra.toNat < 0x4000 then 0#32
      else if ra.toNat < 0x8000 then outByte s.outbits (ra.toNat - 0x4000)
      else if ra.toNat < 0x8C00 then skDebug s (ra.toNat - 0x8000)
      else 0#32 := by
  have notRegister : ∀ k, k < 0x000F → ra.toNat ≠ k := by omega
  simp [readPort, notRegister]

theorem readPort_unmapped (s : State) (ra : ReadAddr)
    (h : (0x000F ≤ ra.toNat ∧ ra.toNat ≤ 0x3FFF) ∨ 0x8C00 ≤ ra.toNat) : readPort s ra = 0#32 := by
  rcases h with ⟨hlo, hhi⟩ | hlo
  · rw [readPort_above_registers s ra hlo, if_pos (by omega)]
  · rw [readPort_above_registers s ra (by omega), if_neg (by omega), if_neg (by omega), if_neg (by omega)]

theorem readPort_outByte (s : State) (i : Nat) (h : i < 0x4000) :
    readPort s (BitVec.ofNat 16 (0x4000 + i)) = outByte s.outbits i := by
  have ha : (BitVec.ofNat 16 (0x4000 + i)).toNat = 0x4000 + i := Nat.mod_eq_of_lt (by omega)
  rw [readPort_above_registers _ _ (by omega), ha, if_neg (by omega), if_pos (by omega), Nat.add_sub_cancel_left]

theorem readPort_skDebug (s : State) (o : Nat) (h : o < 0x0C00) :
    readPort s (BitVec.ofNat 16 (0x8000 + o)) = skDebug s o := by
  have ha : (BitVec.ofNat 16 (0x8000 + o)).toNat = 0x8000 + o := Nat.mod_eq_of_lt (by omega)
  rw [readPort_above_registers _ _ (by omega), ha, if_neg (by omega), if_neg (by omega), if_pos (by omega),
    Nat.add_sub_cancel_left]

/-! ## The step that performs a read (R66) -/

/-- What a read returns does not depend on what the host presents next. -/
@[simp] theorem readPort_withTodo (q : List HostAction) (s : State) (ra : ReadAddr) :
    readPort (withTodo q s) ra = readPort s ra := rfl

theorem step_read {s : State} {ra : ReadAddr} {rest : List HostAction} (hv : cfgValid s.cfg = true) (hp : s.ph = .idle)
    (ht : s.todo = .read ra :: rest) :
    step s = .next { s with todo := rest, got := s.got ++ [readPort s ra] } := by
  have hstep : step s = .next (serveRead ra (withTodo rest s)) := by
    rw [step, if_pos hv, if_pos hp, idleStep, ht]
  rw [hstep, serveRead, readPort_withTodo, withTodo]

/-- Settles O12: the step of an idle core that is given a read is `serveRead`, which writes the host's side only. -/
theorem readHasNoSideEffect : Obligations.ReadHasNoSideEffect :=
  fun _ _ _ => step_read

/-! ## Output bytes (R69) -/

/-- Settles O16: the byte at `0x4000 + i` is `OUTBYTE[i]`, whose bits `outByte_bits` gives. -/
theorem outputByteBits : Obligations.OutputByteBits := by
  intro s i hi
  rw [readPort_outByte s i hi]
  constructor
  · intro j hj
    rw [outByte_bits, if_pos (by omega), show 7 - (7 - j) = j by omega]
  · intro n hn
    rw [outByte_bits, if_neg (by omega)]

/-! ## The subkey window (R70) -/

theorem bankOf_val (b : Fin 3) : bankOf b.val = b := by
  fin_cases b <;> rfl

/-- The offset of bank `b`, round `r`, word `w` selects that word of that subkey, or 0 where the round does not exist. -/
theorem skDebug_offset (s : State) (b : Fin 3) (r w : Nat) (hr : r < 256) (hw : w < 4) :
    skDebug s (1024 * b.val + 4 * r + w) =
      if s.cfg.rounds ≤ r then 0#32 else subkeyWord ((s.sk.get b).getD r []) w := by
  have hbank : (1024 * b.val + 4 * r + w) / 1024 = b.val := by omega
  have hround : (1024 * b.val + 4 * r + w) / 4 % 256 = r := by omega
  have hword : (1024 * b.val + 4 * r + w) % 4 = w := by omega
  simp only [skDebug, hbank, hround, hword, bankOf_val]

/-- Every subkey that a bank has is 48 bits wide (R26). -/
theorem length_bankSubkey {s : State} (h : Inv s) (b : Fin 3) {r : Nat} (hr : r < s.cfg.rounds) :
    ((s.sk.get b).getD r []).length = 48 := by
  obtain ⟨hlen, hfit⟩ := bankShaped_iff.mp (h.bankShape b)
  rw [List.getD_eq_getElem _ _ (by omega)]
  exact hfit _ (List.getElem_mem _)

theorem getD_zeroBank (cfg : Cfg) {r : Nat} (hr : r < cfg.rounds) : (zeroBank cfg).getD r [] = zeros skw := by
  rw [List.getD_eq_getElem _ _ (by simpa using hr)]
  exact eq_zeros_of_mem_zeroBank (List.getElem_mem _)

theorem subkeyWord_zeros (w : Nat) : subkeyWord (zeros skw) w = 0#32 := by
  apply BitVec.eq_of_getLsbD_eq
  intro n hn
  rw [subkeyWord_bits _ _ _ (length_zeros skw), if_pos hn, getD_zeros, BitVec.getLsbD_zero]

/-- Settles O17: the window shows `subkeyWord` of the addressed subkey, which the invariant makes 48 bits wide, and zero in
an invalid bank of an idle core. -/
theorem subkeyWindowBits : Obligations.SubkeyWindowBits := by
  intro s b r w hi hr hw rd
  have hrd : rd = if s.cfg.rounds ≤ r then 0#32 else subkeyWord ((s.sk.get b).getD r []) w := by
    rw [← skDebug_offset s b r w hr hw, ← readPort_skDebug s _ (by omega)]
    simp only [rd, Nat.add_assoc]
  refine ⟨fun hout => ?_, fun hin j hj => ?_, fun hp hb => ?_⟩
  · rw [hrd, if_pos hout]
  · rw [hrd, if_neg (by omega), subkeyWord_bits _ _ _ (length_bankSubkey hi b hin), if_pos (by omega),
      show 31 - (31 - j) = j by omega]
  · rw [hrd, zeroOf hi (by simp [hp]) b hb]
    split
    · rfl
    · rw [getD_zeroBank _ (by omega), subkeyWord_zeros]

/-! ## Reserved bits (R32, R34, R35, R71) -/

/-- A word below `2^k` has no bit at or above `k`. -/
theorem getLsbD_of_toNat_lt {x : ReadData} {k n : Nat} (hx : x.toNat < 2 ^ k) (hn : k ≤ n) : x.getLsbD n = false :=
  Nat.testBit_lt_two_pow (hx.trans_le (Nat.pow_le_pow_right (by omega) hn))

theorem statusWord_lt (s : State) : (statusWord s).toNat < 2 ^ 7 := by
  have := (busy s).toNat_lt
  have := s.done.toNat_lt
  have := s.err.toNat_lt
  have := s.lit.toNat_lt
  have := s.skv.b0.toNat_lt
  have := s.skv.b1.toNat_lt
  have := s.skv.b2.toNat_lt
  rw [statusWord, BitVec.toNat_ofNat]
  omega

theorem errcodeWord_lt (s : State) : (readPort s 0x0001#16).toNat < 2 ^ 2 := by
  have hword : readPort s 0x0001#16 = s.errcode.zeroExtend 32 := rfl
  rw [hword, BitVec.toNat_setWidth]
  omega

theorem cfgFlags_lt (cfg : Cfg) : (cfgFlags cfg).toNat < 2 ^ 2 := by
  have := cfg.useIp.toNat_lt
  have := cfg.usePc1.toNat_lt
  rw [cfgFlags, BitVec.toNat_ofNat]
  omega

/-- Settles O15: an unmapped address falls through the map to 0, a read of it is a read like any other, and each word with
reserved bits is below the power of two where they begin. -/
theorem unmappedReadsZero : Obligations.UnmappedReadsZero := by
  refine ⟨fun s ra ha => ?_, fun s n => ⟨?_, ?_, ?_, ?_⟩⟩
  · have hzero := readPort_unmapped s ra ha
    refine ⟨hzero, fun rest hv hp ht => ?_⟩
    rw [step_read hv hp ht, hzero]
  · exact getLsbD_of_toNat_lt (statusWord_lt s)
  · exact getLsbD_of_toNat_lt (errcodeWord_lt s)
  · exact getLsbD_of_toNat_lt (cfgFlags_lt s.cfg)
  · exact fun i hi => (outputByteBits s i hi).2 n

end Sys2Proof.Machine
end

section
/-! The assembler (30_encoding.md R97, R98): when a line assembles, and the number of the word it assembles to. -/

namespace Sys2Proof

/-! ## Lines (R97) -/

theorem assemble_eq_some_iff {line : AsmLine} {i : Instr} :
    assemble line = some i ↔ line.wf = true ∧ lineCommand line = i := by
  rw [assemble, Option.ite_none_right_eq_some, Option.some.injEq]

theorem exists_assemble_iff_wf (line : AsmLine) : (∃ i, assemble line = some i) ↔ line.wf = true := by
  simp [assemble_eq_some_iff]

theorem wf_kpush_iff (n : Nat) : (AsmLine.kpush n).wf = true ↔ n < 256 := decide_eq_true_iff

theorem wf_cpush_iff (n : Nat) : (AsmLine.cpush n).wf = true ↔ n < 256 := decide_eq_true_iff

theorem wf_bpush_iff (n : Nat) : (AsmLine.bpush n).wf = true ↔ n < 2 := decide_eq_true_iff

theorem wf_clr_iff (n : Nat) : (AsmLine.clr n).wf = true ↔ n < 64 := decide_eq_true_iff

/-! ## The number of a command's word (R91, R92) -/

/-- Two fields put together, as a number: the lower one takes up `n` bits. -/
theorem toNat_append_eq_mul_add {m n : Nat} (x : BitVec m) (y : BitVec n) :
    (x ++ y).toNat = x.toNat * 2 ^ n + y.toNat := by
  rw [BitVec.toNat_append, ← Nat.shiftLeft_add_eq_or_of_lt y.isLt, Nat.shiftLeft_eq]

theorem toNat_zero_append {n : Nat} (m : Nat) (y : BitVec n) : (0#m ++ y).toNat = y.toNat := by simp

theorem toNat_encode_kpush (b : Byte) : (encode (.kpush b)).toNat = 0x2000 + b.toNat :=
  toNat_append_eq_mul_add (0x2#4 ++ 0#4) b

theorem toNat_encode_cpush (b : Byte) : (encode (.cpush b)).toNat = 0x3000 + b.toNat :=
  toNat_append_eq_mul_add (0x3#4 ++ 0#4) b

theorem toNat_encode_bpush (v : BitVec 1) : (encode (.bpush v)).toNat = 0x4000 + v.toNat := by
  rw [← toNat_zero_append 7 v]
  exact toNat_append_eq_mul_add (0x4#4 ++ 0#4) (0#7 ++ v)

theorem toNat_encode_clr (m : BitVec 6) : (encode (.clr m)).toNat = 0x1000 + m.toNat := by
  rw [← toNat_zero_append 2 m]
  exact toNat_append_eq_mul_add (0x1#4 ++ 0#4) (0#2 ++ m)

/-! ## The word of an assembled line (R94, R97) -/

/-- A line whose operand `n` goes into a field of `k` bits, and is in range when it fits there, assembles to a word that
carries `n` itself. -/
theorem toNat_encode_of_assemble {k : Nat} {line : AsmLine} {command : BitVec k → Instr} {n base : Nat} {i : Instr}
    (hline : lineCommand line = command (BitVec.ofNat k n))
    (hword : ∀ b, (encode (command b)).toNat = base + b.toNat) (hrange : line.wf = true ↔ n < 2 ^ k)
    (h : assemble line = some i) : (encode i).toNat = base + n := by
  obtain ⟨hwf, rfl⟩ := assemble_eq_some_iff.mp h
  rw [hline, hword, BitVec.toNat_ofNat, Nat.mod_eq_of_lt (hrange.mp hwf)]

/-! ## Pseudo-instructions (R98) -/

theorem encode_expand_newmsg : (expandPseudo .newmsg).map encode = [0x101E#16] := by decide

theorem encode_expand_newkey : (expandPseudo .newkey).map encode = [0x1021#16] := by decide

/-- Settles O5: a line assembles when it is well formed, an operand in range is the number its field carries, and the
expansions are `expandPseudo`'s own rows. -/
theorem assemblerLinesAndPseudoInstructions : Obligations.AssemblerLinesAndPseudoInstructions := by
  refine ⟨fun n => ?kpush, fun n => ?cpush, fun n => ?bpush, fun n => ?clr,
    fun n _ => toNat_encode_of_assemble rfl toNat_encode_kpush (wf_kpush_iff n),
    fun n _ => toNat_encode_of_assemble rfl toNat_encode_cpush (wf_cpush_iff n),
    fun n _ => toNat_encode_of_assemble rfl toNat_encode_bpush (wf_bpush_iff n),
    fun n _ => toNat_encode_of_assemble rfl toNat_encode_clr (wf_clr_iff n),
    fun _ => rfl, fun _ => rfl, fun _ => rfl, rfl, rfl, rfl, rfl, encode_expand_newmsg, encode_expand_newkey⟩
  case kpush => rw [exists_assemble_iff_wf, wf_kpush_iff]; omega
  case cpush => rw [exists_assemble_iff_wf, wf_cpush_iff]; omega
  case bpush => rw [exists_assemble_iff_wf, wf_bpush_iff]; omega
  case clr => rw [exists_assemble_iff_wf, wf_clr_iff]; omega

end Sys2Proof
end

section
/-! The two rotations (40_bitseq_utilities.md): the right one as a left one, and where each of them moves a bit. -/

namespace Sys2Proof.Machine

/-- A right rotation is the left rotation by the complementary amount (R113). -/
theorem rotr_eq_rotl (s : Bits) (n : Nat) : rotr s n = rotl s (s.length - n % s.length) := by
  by_cases h : s = []
  · simp [h, rotr]
  · have hl : s.length ≠ 0 := by simpa using h
    rw [rotl_eq_rotate, List.rotate_eq_drop_append_take (Nat.sub_le _ _), rotr, if_neg hl]
    simp [slice, List.take_of_length_le]

@[simp] theorem rotr_nil (n : Nat) : rotr [] n = [] := by rw [rotr_eq_rotl, rotl_nil]

@[simp] theorem length_rotr (s : Bits) (n : Nat) : (rotr s n).length = s.length := by rw [rotr_eq_rotl, length_rotl]

/-- A left rotation by a multiple of the length changes nothing (R112). -/
theorem rotl_length_mul (s : Bits) (q : Nat) : rotl s (s.length * q) = s := by
  rw [rotl_eq_rotate, List.rotate_length_mul]

/-- A left rotation undoes the right rotation by the same amount: together they rotate by a multiple of the length. -/
theorem rotl_rotr (s : Bits) (n : Nat) : rotl (rotr s n) n = s := by
  by_cases h : s = []
  · simp [h]
  · have hmod : n % s.length < s.length := Nat.mod_lt n (List.length_pos_of_ne_nil h)
    have hsum : s.length - n % s.length + n = s.length * (n / s.length + 1) := by
      have hn := Nat.div_add_mod n s.length
      rw [Nat.mul_add_one]
      omega
    rw [rotr_eq_rotl, rotl_rotl, hsum, rotl_length_mul]

theorem getD_rotl (s : Bits) (n : Nat) {i : Nat} (hi : i < s.length) :
    (rotl s n).getD i false = s.getD ((i + n) % s.length) false := by
  rw [rotl_eq_rotate, List.getD_eq_getElem?_getD, List.getElem?_rotate hi, ← List.getD_eq_getElem?_getD]

theorem getD_rotr (s : Bits) (n : Nat) {i : Nat} (hi : i < s.length) :
    (rotr s n).getD ((i + n) % s.length) false = s.getD i false := by
  have hread := getD_rotl (rotr s n) n (i := i) (by rwa [length_rotr])
  rwa [rotl_rotr, length_rotr, eq_comm] at hread

/-- Settles O48: the left rotation reads its source at the shifted position, and the right one is read through the left one
that undoes it. -/
theorem rotationPositions : Obligations.RotationPositions :=
  fun s n => ⟨length_rotl s n, length_rotr s n, fun _ => getD_rotl s n, fun _ => getD_rotr s n, rotl_nil n, rotr_nil n⟩

end Sys2Proof.Machine
end

section
/-! The key schedule (42_key_schedule.md): the list `GenSubKeys` gives, the banks `KEYGEN` leaves, and the three phases that
fill them. -/

namespace Sys2Proof.Machine

/-! ## `GenSubKeys` (R150, R151, R156) -/

theorem genSubKeys_of_length {cfg : Cfg} {k : Bits} (h : k.length = cfg.kw) : genSubKeys cfg k = .ok (subkeysOf cfg k) :=
  if_pos h

theorem genSubKeys_of_length_ne {cfg : Cfg} {k : Bits} (h : k.length ≠ cfg.kw) : genSubKeys cfg k = .error .invalidKey :=
  if_neg h

/-- Settles O51: the length check decides between the error and `subkeysOf`, which gives one subkey per round, each as
wide as `PC2` is long. -/
theorem subkeyListLength : Obligations.SubkeyListLength :=
  fun _ k hv => ⟨genSubKeys_of_length_ne, fun hk =>
    ⟨_, genSubKeys_of_length hk, length_subkeysOf (cfgFacts_of_valid hv) k, subkeysOf_fit hv k⟩⟩

/-! ## The banks of a key (R158, R163) -/

/-- Any window of `KW` bits inside a key buffer is a key of the right length. -/
theorem genSubKeys_slice {cfg : Cfg} {k : Bits} {a b : Nat} (hw : b = a + cfg.kw) (hb : b ≤ k.length) :
    genSubKeys cfg (slice k a b) = .ok (subkeysOf cfg (slice k a b)) := by
  apply genSubKeys_of_length
  rw [length_slice]
  omega

theorem keyBanks_single {cfg : Cfg} {f : LongFields} {k : Bits} (hf : f.triple = false) (hk : k.length = cfg.kw) :
    keyBanks cfg f k = ⟨subkeysOf cfg k, zeroBank cfg, zeroBank cfg⟩ := by
  simp [keyBanks, hf, keySegment_single k hk]

theorem keyBanks_triple {cfg : Cfg} {f : LongFields} (hf : f.triple = true) (k : Bits) :
    keyBanks cfg f k =
      ⟨subkeysOf cfg (slice k 0 cfg.kw), subkeysOf cfg (slice k cfg.kw (2 * cfg.kw)),
        subkeysOf cfg (slice k (2 * cfg.kw) (3 * cfg.kw))⟩ := by
  simp [keyBanks, hf, keySegment]

/-! ## `KEYGEN` as one transaction (R158) -/

theorem execLong_of_valid (f : LongFields) {s : State} (hv : cfgValid s.cfg = true) : execLong f s = .next (runLong f s) :=
  if_pos hv

/-- With a key of the right length, a command that only runs the key schedule leaves its banks and `DONE`, and no buffer
changes. -/
theorem runLong_keyOnly {f : LongFields} {s : State} (hf : f.keyOnly = true) (hv : cfgValid s.cfg = true)
    (hk : s.keybuf.length = needOf s.cfg f) :
    ∃ h, runLong f s = withHidden
      { s with
        done := true, sk := keyBanks s.cfg f s.keybuf, skv := ⟨true, f.triple, f.triple⟩, opt := f.triple,
        opd := f.decrypt, kgo := true, ph := .idle } h := by
  obtain ⟨c, d, l, r, rc, nb, bi, stg, bnk, hrun⟩ := runLong_valid f s hv hk
  refine ⟨{ s with c := c, d := d, l := l, r := r, rc := rc, nb := nb, bi := bi, stg := stg, bnk := bnk }, ?_⟩
  rw [hrun]
  simp only [withHidden, longInput, longOutput, hf, if_true]

/-- Settles O28: the run of the sequencer is known whole for a key of the right length (`runLong_keyOnly`) and for any other
(`runLong_invalid`); what is left is which banks each command's segments fill. -/
theorem keygenCommands : Obligations.KeygenCommands := by
  intro s hv
  have hS : exec .keygenS s = .next (runLong fieldsKeygenS s) := execLong_of_valid _ hv
  have hT : exec .keygenT s = .next (runLong fieldsKeygenT s) := execLong_of_valid _ hv
  rw [hS, hT]
  refine ⟨fun hk => ?single, fun hk => ?triple, fun hk => ?singleInvalid, fun hk => ?tripleInvalid⟩
  case single =>
    obtain ⟨h, hrun⟩ := runLong_keyOnly (f := fieldsKeygenS) rfl hv hk
    rw [keyBanks_single rfl hk] at hrun
    exact ⟨_, h, genSubKeys_of_length hk, congrArg _ hrun⟩
  case triple =>
    obtain ⟨h, hrun⟩ := runLong_keyOnly (f := fieldsKeygenT) rfl hv hk
    rw [keyBanks_triple rfl] at hrun
    exact ⟨_, _, _, h, genSubKeys_slice (by omega) (by omega), genSubKeys_slice (by omega) (by omega),
      genSubKeys_slice (by omega) (by omega), congrArg _ hrun⟩
  case singleInvalid => exact congrArg _ (runLong_invalid fieldsKeygenS s hk)
  case tripleInvalid => exact congrArg _ (runLong_invalid fieldsKeygenT s hk)

/-! ## The phases (R159 to R161) -/

/-- With nothing presented, a running core takes the rule of its phase. -/
theorem step_running {s : State} {p : Phase} (h : Inv s) (ht : s.todo = []) (hp : s.ph = p) (hrun : p ≠ .idle) :
    step s = .next (phaseStep s) :=
  step_busy h (hp ▸ hrun) (by simp [ht])

theorem phaseStep_kchk {s : State} (hp : s.ph = .kchk) : phaseStep s = phaseKchk s := by rw [phaseStep, hp]

theorem phaseStep_kload {s : State} (hp : s.ph = .kload) : phaseStep s = phaseKload s := by rw [phaseStep, hp]

theorem phaseStep_kround {s : State} (hp : s.ph = .kround) : phaseStep s = phaseKround s := by rw [phaseStep, hp]

theorem phaseKchk_of_length_ne {s : State} (hk : s.keybuf.length ≠ keyNeed s) : phaseKchk s = raise .invalidKey s :=
  if_pos hk

theorem phaseKchk_of_length {s : State} (hk : s.keybuf.length = keyNeed s) :
    phaseKchk s = { s with bnk := 0, ph := .kload } :=
  if_neg (not_not.mpr hk)

theorem workingKey_eq_ite (cfg : Cfg) (k : Bits) :
    workingKey cfg k = if cfg.kw = cfg.pc1.length then k else perm cfg.pc1 k := by
  by_cases h : cfg.kw = cfg.pc1.length <;> simp [workingKey, Cfg.usePc1, Cfg.ksw, h]

theorem phaseKround_of_more {s : State} (hr : s.rc + 1 < s.cfg.rounds) :
    phaseKround s = { keyRound s with rc := s.rc + 1 } :=
  if_pos hr

theorem phaseKround_of_last {s : State} (hr : s.rc + 1 = s.cfg.rounds) : phaseKround s = bankDone (keyRound s) :=
  if_neg hr.not_lt

theorem bankDone_of_more {s : State} (hb : s.bnk.val + 1 < banksUsed s) :
    bankDone s = { s with skv := s.skv.set s.bnk true, rc := 0, bnk := s.bnk + 1, ph := .kload } :=
  if_pos hb

theorem bankDone_of_keyOnly {s : State} (hb : s.bnk.val + 1 = banksUsed s) (hkgo : s.kgo = true) :
    bankDone s = { s with skv := s.skv.set s.bnk true, rc := 0, ph := .fin } :=
  (if_neg hb.not_lt).trans (if_pos hkgo)

theorem bankDone_of_crypt {s : State} (hb : s.bnk.val + 1 = banksUsed s) (hkgo : s.kgo = false) :
    bankDone s = { s with skv := s.skv.set s.bnk true, rc := 0, stg := 0, ph := .binit } :=
  (if_neg hb.not_lt).trans (if_neg (Bool.eq_false_iff.mp hkgo))

/-- Settles O38: each phase's step is its rule, and the branch taken is the one the clause's hypotheses select. -/
theorem keySchedulePhases : Obligations.KeySchedulePhases := by
  intro s h ht
  refine ⟨fun hp hk => ?wrongKey, fun hp hk => ?rightKey, fun hp => ?load, fun hp => ?round⟩
  case wrongKey =>
    rw [step_running h ht hp nofun, phaseStep_kchk hp, phaseKchk_of_length_ne hk]
    rfl
  case rightKey => rw [step_running h ht hp nofun, phaseStep_kchk hp, phaseKchk_of_length hk]
  case load =>
    rw [step_running h ht hp nofun, phaseStep_kload hp, phaseKload, workingKey_eq_ite]
    rfl
  case round =>
    rw [step_running h ht hp nofun, phaseStep_kround hp]
    refine ⟨fun hr => congrArg _ (phaseKround_of_more hr), fun hr => ?_⟩
    rw [phaseKround_of_last hr]
    exact ⟨fun hb => congrArg _ (bankDone_of_more hb), fun hb hkgo => congrArg _ (bankDone_of_keyOnly hb hkgo),
      fun hb hkgo => congrArg _ (bankDone_of_crypt hb hkgo)⟩

end Sys2Proof.Machine
end

section
/-! The block pipeline (44_block_pipeline.md): the encoding of characters, the chunks of a message, the processed message,
`ENC` and `DEC`, and the phases that process a block. -/

namespace Sys2Proof.Machine

/-! ## The encoding of characters (R190, R191) -/

theorem isLiteral_iff (cs : List Byte) : isLiteral cs = true ↔ ∀ c ∈ cs, c = 0x30#8 ∨ c = 0x31#8 := by
  simp [isLiteral]

theorem isLiteral_eq_false_iff (cs : List Byte) : isLiteral cs = false ↔ ∃ c ∈ cs, c ≠ 0x30#8 ∧ c ≠ 0x31#8 := by
  simp [isLiteral]

theorem encodeInput_chars_of_literal {cs : List Byte} (h : isLiteral cs = true) :
    encodeInput (.chars cs) = (cs.map (fun c => c == 0x31#8), some true) := by
  simp [encodeInput, encodeChars, h]

theorem encodeInput_chars_of_text {cs : List Byte} (h : isLiteral cs = false) :
    encodeInput (.chars cs) = (bitsOfBytes cs, some false) := by
  simp [encodeInput, encodeChars, h]

/-- A byte is spelled from its bit 7 down (R9). -/
theorem bitsOfBytes_eq_flatMap (bs : List Byte) :
    bitsOfBytes bs = bs.flatMap (fun b => [b.getLsbD 7, b.getLsbD 6, b.getLsbD 5, b.getLsbD 4, b.getLsbD 3, b.getLsbD 2,
      b.getLsbD 1, b.getLsbD 0]) := rfl

/-- Settles O24: `isLiteral` decides between the two encodings, and `bitsOfBytes` spells each byte from bit 7 down. -/
theorem inputClassification : Obligations.InputClassification := by
  refine ⟨fun _ => rfl, fun cs h => ?literal, fun cs h => ?text⟩
  case literal => exact encodeInput_chars_of_literal ((isLiteral_iff cs).mpr h)
  case text => rw [encodeInput_chars_of_text ((isLiteral_eq_false_iff cs).mpr h), bitsOfBytes_eq_flatMap]

theorem exec_encode_of_le {s : State} (h : (encodeChars s.charbuf).length ≤ s.cfg.bitcap) :
    exec .encode s = .next { s with inbits := encodeChars s.charbuf, lit := isLiteral s.charbuf } :=
  if_neg h.not_gt

theorem exec_encode_of_gt {s : State} (h : (encodeChars s.charbuf).length > s.cfg.bitcap) :
    exec .encode s = .next (raise .bufferOverflow s) :=
  if_pos h

/-- Settles O25: the capacity check of `ENCODE` decides between the two answers, and `encode_fits` says that it passes in a
valid configuration. -/
theorem encodeReplacesInput : Obligations.EncodeReplacesInput := by
  intro s bs l henc
  obtain ⟨rfl, rfl⟩ : encodeChars s.charbuf = bs ∧ isLiteral s.charbuf = l := by simpa [encodeInput] using henc
  exact ⟨exec_encode_of_le, exec_encode_of_gt, fun hv => encode_fits (cfgFacts_of_valid hv)⟩

/-! ## The chunks of a message (R192, R193) -/

section Chunks

variable {cfg : Cfg} (hc : CfgFacts cfg)

include hc

/-- There is a block `j` exactly when the blocks before it do not cover the input (R192). -/
theorem lt_numBlocks_iff (j n : Nat) : j < numBlocks cfg n ↔ j * cfg.block < n := by
  have hb := hc.blockPos
  rw [numBlocks, ceilDiv, ← Nat.succ_le_iff, Nat.le_div_iff_mul_le (by omega), Nat.succ_mul]
  omega

theorem numBlocks_eq_succ_iff (q n : Nat) :
    numBlocks cfg n = q + 1 ↔ q * cfg.block < n ∧ n ≤ (q + 1) * cfg.block := by
  rw [← not_lt, ← lt_numBlocks_iff hc, ← lt_numBlocks_iff hc]
  omega

theorem le_numBlocks_mul (n : Nat) : n ≤ numBlocks cfg n * cfg.block :=
  not_lt.mp fun h => lt_irrefl _ ((lt_numBlocks_iff hc _ n).mpr h)

theorem numBlocks_mul_lt (n : Nat) : numBlocks cfg n * cfg.block < n + cfg.block := by
  have hb := hc.blockPos
  cases hq : numBlocks cfg n with
  | zero => omega
  | succ q =>
    have hlast := ((numBlocks_eq_succ_iff hc q n).mp hq).1
    rw [Nat.succ_mul]
    omega

end Chunks

/-- The data bits of chunk `j`: the run of at most `B` bits that the chunk pads (R193). -/
def chunkData (cfg : Cfg) (x : Bits) (j : Nat) : Bits := slice x (j * cfg.block) (min ((j + 1) * cfg.block) x.length)

theorem chunk_eq_zeros_append (cfg : Cfg) (x : Bits) (j : Nat) :
    chunk cfg x j = zeros (cfg.block - (chunkData cfg x j).length) ++ chunkData cfg x j := rfl

theorem length_chunkData (cfg : Cfg) (x : Bits) (j : Nat) :
    (chunkData cfg x j).length = min cfg.block (x.length - j * cfg.block) := by
  rw [chunkData, length_slice, Nat.succ_mul]
  omega

/-- A chunk whose `B` data bits are all there is not padded (R193). -/
theorem chunk_of_le {cfg : Cfg} {x : Bits} {j : Nat} (h : (j + 1) * cfg.block ≤ x.length) :
    chunk cfg x j = slice x (j * cfg.block) ((j + 1) * cfg.block) := by
  have hfull : (chunkData cfg x j).length = cfg.block := by
    rw [Nat.succ_mul] at h
    rw [length_chunkData]
    omega
  rw [chunk_eq_zeros_append, hfull, Nat.sub_self, chunkData, Nat.min_eq_left h]
  rfl

/-- Settles O55: block `j` exists when `j * B` is below the input's length (`lt_numBlocks_iff`), which bounds the data bits of
its chunk from below, and from both sides where another block follows. -/
theorem chunksAreFrontPadded : Obligations.ChunksAreFrontPadded := by
  intro cfg x hv
  have hc := cfgFacts_of_valid hv
  have hb := hc.blockPos
  refine ⟨numBlocks_zero cfg hc, fun n h1 hn => ?one, ?two, fun n => ⟨le_numBlocks_mul hc n, numBlocks_mul_lt hc n⟩,
    fun j hj => ?chunks⟩
  case one => exact (numBlocks_eq_succ_iff hc 0 n).mpr (by omega)
  case two => exact (numBlocks_eq_succ_iff hc 1 _).mpr (by omega)
  case chunks =>
    have hd := length_chunkData cfg x j
    have hstart := (lt_numBlocks_iff hc j _).mp hj
    have hpos : 1 ≤ (chunkData cfg x j).length := by omega
    have hle : (chunkData cfg x j).length ≤ cfg.block := by omega
    refine ⟨length_chunk x j, hpos, hle, chunk_eq_zeros_append cfg x j, fun hnext => ?full, fun hwhole => ?whole⟩
    case full =>
      have hend := (lt_numBlocks_iff hc (j + 1) _).mp hnext
      rw [Nat.succ_mul] at hend
      exact hd.trans (by omega)
    case whole =>
      obtain ⟨q, hq⟩ := Nat.dvd_of_mod_eq_zero hwhole
      rw [Nat.mul_comm] at hq
      rw [hq, numBlocks_mul hc] at hj
      exact chunk_of_le (hq ▸ Nat.mul_le_mul_right _ hj)

/-! ## The processed message (R196 to R198) -/

theorem rawProcess_nil {cfg : Cfg} (hc : CfgFacts cfg) (sk : List Bits) (fwd : Bool) : rawProcess cfg [] sk fwd = [] := by
  simp [rawProcess, numBlocks_zero cfg hc]

/-- Run `j` of the output is block `j` processed: no other chunk has a part in it (R196). -/
theorem slice_rawProcess {cfg : Cfg} (hv : cfgValid cfg = true) (x : Bits) (sk : List Bits) (fwd : Bool) {j : Nat}
    (hj : j < numBlocks cfg x.length) :
    slice (rawProcess cfg x sk fwd) (j * cfg.block) ((j + 1) * cfg.block) =
      rawBlock cfg (chunk cfg x j) (keyOrder sk fwd) :=
  slice_flatMap_range _ _ _ j (fun _ => length_rawBlock hv _ _ (length_chunk _ _)) hj

/-- An input that is not empty has a first block, so its output has at least `B` bits (R198). -/
theorem block_le_length_rawProcess {cfg : Cfg} (hv : cfgValid cfg = true) {x : Bits} (hx : x ≠ []) (sk : List Bits)
    (fwd : Bool) : cfg.block ≤ (rawProcess cfg x sk fwd).length := by
  have hfirst : 0 < numBlocks cfg x.length := by
    rw [lt_numBlocks_iff (cfgFacts_of_valid hv), Nat.zero_mul]
    exact List.length_pos_of_ne_nil hx
  rw [length_rawProcess hv]
  exact Nat.le_mul_of_pos_left _ hfirst

theorem rawProcess_eq_nil_iff {cfg : Cfg} (hv : cfgValid cfg = true) (x : Bits) (sk : List Bits) (fwd : Bool) :
    rawProcess cfg x sk fwd = [] ↔ x = [] := by
  have hc := cfgFacts_of_valid hv
  refine ⟨fun hout => ?_, fun hx => hx ▸ rawProcess_nil hc sk fwd⟩
  by_contra hx
  have hlen := block_le_length_rawProcess hv hx sk fwd
  have hb := hc.blockPos
  rw [hout, List.length_nil] at hlen
  omega

/-- Settles O56: the output is the concatenation of the processed chunks, which all have `B` bits, so its length and its
runs are those of the chunks. -/
theorem outputIsBlocksInOrder : Obligations.OutputIsBlocksInOrder := by
  intro cfg x sk fwd hv hs out
  have hout : out = rawProcess cfg x sk fwd := processBits_eq hv x sk hs fwd
  rw [hout]
  refine ⟨length_rawProcess hv x sk fwd, fun j hj => ⟨length_chunk x j, keyOrder_fit hs fwd, ?block⟩,
    rawProcess_eq_nil_iff hv x sk fwd, fun hx => block_le_length_rawProcess hv hx sk fwd, fun k => ?empty⟩
  case block => exact (slice_rawProcess hv x sk fwd hj).trans (blockProcess_eq hv _ _ _ _).symm
  case empty =>
    by_cases hk : k.length = cfg.kw
    · rw [if_pos hk, process_eq hv _ k fwd hk]
      exact congrArg _ (rawProcess_nil (cfgFacts_of_valid hv) _ fwd)
    · rw [if_neg hk]
      exact process_error hv _ k fwd hk

/-! ## `ENC` and `DEC` as one transaction (R201) -/

/-- With a key of the right length, a single-key command that is not a key schedule alone leaves the processing of its input
in `OUTBITS` and its schedule in bank 0. -/
theorem execLong_crypt {f : LongFields} {s : State} (ht : f.triple = false) (hko : f.keyOnly = false)
    (hv : cfgValid s.cfg = true) (hk : s.keybuf.length = s.cfg.kw) :
    ∃ h, execLong f s = .next (withHidden
      { s with
        done := true, sk := ⟨subkeysOf s.cfg s.keybuf, zeroBank s.cfg, zeroBank s.cfg⟩, skv := ⟨true, false, false⟩,
        outbits := processBits s.cfg hv s.inbits (subkeysOf s.cfg s.keybuf) (subkeysOf_fit hv _) (!f.decrypt),
        opt := false, opd := f.decrypt, kgo := false, ph := .idle } h) := by
  have hneed : needOf s.cfg f = s.cfg.kw := by simp [needOf, ht]
  obtain ⟨hne, -⟩ | ⟨-, h, hrun⟩ := runLong_cases f s hv
  · exact absurd (hk.trans hneed.symm) hne
  · refine ⟨h, ?_⟩
    rw [execLong_of_valid f hv, hrun, keyBanks_single ht hk, processBits_eq]
    simp only [longInput, longOutput, ht, hko, keySegment_single _ hk, Bool.false_eq_true, if_false]

/-- Processing bits, or characters that encode to them, is processing those bits under the key's schedule (R197). -/
theorem process_of_encoding {cfg : Cfg} (hv : cfgValid cfg = true) {input : Input} {x k : Bits}
    (hx : x = (encodeInput input).1) (hk : k.length = cfg.kw) (fwd : Bool) :
    process cfg hv input k fwd = .ok (processBits cfg hv x (subkeysOf cfg k) (subkeysOf_fit hv k) fwd) := by
  rw [process_eq hv input k fwd hk, processBits_eq, hx]

/-- Settles O29: both commands are `execLong_crypt` with a key of the right length, in their own direction, and
`runLong_invalid` with any other. -/
theorem cryptCommands : Obligations.CryptCommands := by
  intro s hv
  refine ⟨fun hk => ?valid, fun hk => ⟨?encInvalid, ?decInvalid⟩⟩
  case valid =>
    obtain ⟨henc, hencRun⟩ := execLong_crypt (f := fieldsEnc) rfl rfl hv hk
    obtain ⟨hdec, hdecRun⟩ := execLong_crypt (f := fieldsDec) rfl rfl hv hk
    have hbits := process_of_encoding hv (input := .bits s.inbits) rfl hk
    have hchars := fun fwd cs (hcs : s.inbits = (encodeInput (.chars cs)).1) => process_of_encoding hv hcs hk fwd
    exact ⟨_, subkeysOf_fit hv _, genSubKeys_of_length hk,
      ⟨_, henc, hbits true, rfl, hchars true, hencRun⟩, ⟨_, hdec, hbits false, rfl, hchars false, hdecRun⟩⟩
  case encInvalid => exact (execLong_of_valid fieldsEnc hv).trans (congrArg _ (runLong_invalid fieldsEnc s hk))
  case decInvalid => exact (execLong_of_valid fieldsDec hv).trans (congrArg _ (runLong_invalid fieldsDec s hk))

/-! ## The phases (R203 to R209) -/

theorem phaseStep_binit {s : State} (hp : s.ph = .binit) : phaseStep s = phaseBinit s := by rw [phaseStep, hp]

theorem phaseStep_bfetch {s : State} (hp : s.ph = .bfetch) : phaseStep s = phaseBfetch s := by rw [phaseStep, hp]

theorem phaseStep_bround {s : State} (hp : s.ph = .bround) : phaseStep s = phaseBround s := by rw [phaseStep, hp]

theorem phaseStep_bstore {s : State} (hp : s.ph = .bstore) : phaseStep s = phaseBstore s := by rw [phaseStep, hp]

theorem phaseStep_snext {s : State} (hp : s.ph = .snext) : phaseStep s = phaseSnext s := by rw [phaseStep, hp]

theorem phaseStep_fin {s : State} (hp : s.ph = .fin) : phaseStep s = phaseFin s := by rw [phaseStep, hp]

/-- The invariant gives a round the widths it needs, in every phase (R179). -/
theorem roundFits_of_inv {s : State} (h : Inv s) : RoundFits s :=
  roundFits_of_shaped h.valid h.rcRange (h.bankShape _) h.lWidth

/-- Both outcomes of phase `BROUND` as one update: the halves move alike, the counter and the phase tell them apart (R205). -/
theorem phaseBround_of_fits {s : State} (h : RoundFits s) (hp : s.ph = .bround) :
    phaseBround s =
      { s with
        l := s.r, r := roundResult s h, rc := if s.rc + 1 < s.cfg.rounds then s.rc + 1 else s.rc,
        ph := if s.rc + 1 < s.cfg.rounds then .bround else .bstore } := by
  rw [phaseBround, dif_pos h]
  by_cases hr : s.rc + 1 < s.cfg.rounds
  · simp only [if_pos hr, hp]
  · simp only [if_neg hr]

theorem phaseSnext_of_more {s : State} (ho : s.opt = true) (hs : s.stg.val < 2) :
    phaseSnext s = { s with inbits := s.outbits, stg := s.stg + 1, ph := .binit } :=
  if_pos ⟨ho, hs⟩

theorem phaseSnext_of_last {s : State} (hl : ¬ (s.opt = true ∧ s.stg.val < 2)) : phaseSnext s = { s with ph := .fin } :=
  if_neg hl

/-- Settles O39: each phase's step is its rule, and the branch taken is the one the clause's hypotheses select; the proofs of
width that the round needs are the invariant's. -/
theorem blockPhases : Obligations.BlockPhases := by
  intro s h ht
  have hstep : ∀ {p}, s.ph = p → p ≠ .idle → step s = .next (phaseStep s) := step_running h ht
  refine ⟨fun hp => ?init, fun hp => ?fetch, fun hp => ?round, fun hp => ?store, fun hp ho hs => ?more, fun hp hl => ?last,
    fun hp => ?fin⟩
  case init =>
    rw [hstep hp nofun, phaseStep_binit hp]
    rfl
  case fetch =>
    rw [hstep hp nofun, phaseStep_bfetch hp]
    rfl
  case round =>
    have hfit := roundFits_of_inv h
    refine ⟨hfit.1, hfit.2.trans (length_roundF _ _ _ hfit.1).symm, ?_⟩
    rw [hstep hp nofun, phaseStep_bround hp, phaseBround_of_fits hfit hp]
    rfl
  case store =>
    rw [hstep hp nofun, phaseStep_bstore hp]
    rfl
  case more => rw [hstep hp nofun, phaseStep_snext hp, phaseSnext_of_more ho hs]
  case last => rw [hstep hp nofun, phaseStep_snext hp, phaseSnext_of_last hl]
  case fin =>
    rw [hstep hp nofun, phaseStep_fin hp]
    rfl

end Sys2Proof.Machine
end

section
/-! The cascade (45_cascade.md): the function as three single-key processings, and `TENC` and `TDEC` as one transaction. -/

namespace Sys2Proof.Machine

/-! ## The function (R230 to R233) -/

/-- A wide key of any other length fails in either direction (R233). -/
theorem tripleProcess_of_length_ne {cfg : Cfg} (hv : cfgValid cfg = true) (input : Input) {k : Bits} (fwd : Bool)
    (hk : k.length ≠ 3 * cfg.kw) : tripleProcess cfg hv input k fwd = .error .invalidKey :=
  if_neg hk

/-- The forward cascade takes the segments of the wide key in the order `k1`, `k2`, `k3` (R230, R231). -/
theorem tripleProcess_forward {cfg : Cfg} (hv : cfgValid cfg = true) (input : Input) {k : Bits}
    (hk : k.length = 3 * cfg.kw) :
    tripleProcess cfg hv input k true = .ok
      (cascadeStages cfg hv (encodeInput input).1 (subkeysOf cfg (slice k 0 cfg.kw))
        (subkeysOf cfg (slice k cfg.kw (2 * cfg.kw))) (subkeysOf cfg (slice k (2 * cfg.kw) (3 * cfg.kw)))
        (subkeysOf_fit hv _) (subkeysOf_fit hv _) (subkeysOf_fit hv _) true).2.2 := by
  simp [tripleProcess, hk, keySegment]

/-- The reverse cascade takes them in the order `k3`, `k2`, `k1` (R230, R232). -/
theorem tripleProcess_reverse {cfg : Cfg} (hv : cfgValid cfg = true) (input : Input) {k : Bits}
    (hk : k.length = 3 * cfg.kw) :
    tripleProcess cfg hv input k false = .ok
      (cascadeStages cfg hv (encodeInput input).1 (subkeysOf cfg (slice k (2 * cfg.kw) (3 * cfg.kw)))
        (subkeysOf cfg (slice k cfg.kw (2 * cfg.kw))) (subkeysOf cfg (slice k 0 cfg.kw))
        (subkeysOf_fit hv _) (subkeysOf_fit hv _) (subkeysOf_fit hv _) false).2.2 := by
  simp [tripleProcess, hk, keySegment]

/-- A stage of the cascade: any window of `KW` bits inside the wide key is a key `process` accepts (R231, R232). -/
theorem process_slice {cfg : Cfg} (hv : cfgValid cfg = true) (input : Input) {k : Bits} {a b : Nat} (fwd : Bool)
    (hw : b = a + cfg.kw) (hb : b ≤ k.length) :
    process cfg hv input (slice k a b) fwd =
      .ok (processBits cfg hv (encodeInput input).1 (subkeysOf cfg (slice k a b)) (subkeysOf_fit hv _) fwd) := by
  refine process_of_encoding hv rfl ?_ fwd
  rw [length_slice]
  omega

/-- Settles O58: each stage of the cascade is `process_slice` on a segment, and `Bits` of a stage's output encodes to that
output, so the outputs chain as `cascadeStages` does. -/
theorem cascadeIsThreeProcesses : Obligations.CascadeIsThreeProcesses := by
  intro cfg hv input k k1 k2 k3
  refine ⟨fun fwd => tripleProcess_of_length_ne hv input fwd, fun hk => ?forward, fun hk => ?reverse⟩
  case forward =>
    exact ⟨_, _, _, process_slice hv _ true (by omega) (by omega), process_slice hv _ true (by omega) (by omega),
      process_slice hv _ true (by omega) (by omega), tripleProcess_forward hv input hk⟩
  case reverse =>
    exact ⟨_, _, _, process_slice hv _ false (by omega) (by omega), process_slice hv _ false (by omega) (by omega),
      process_slice hv _ false (by omega) (by omega), tripleProcess_reverse hv input hk⟩

/-! ## `TENC` and `TDEC` as one transaction (R235) -/

section Stages
variable {cfg : Cfg} (hv : cfgValid cfg = true) (x : Bits) {s0 s1 s2 : List Bits} (f0 : SubkeysFit s0)
  (f1 : SubkeysFit s1) (f2 : SubkeysFit s2)

/-- `TENC` takes the banks in order and forward (R236). -/
theorem stageOutputs_forward :
    stageOutputs cfg x ⟨s0, s1, s2⟩ false = cascadeStages cfg hv x s0 s1 s2 f0 f1 f2 true :=
  (cascadeStages_eq hv x s0 s1 s2 f0 f1 f2 true).symm

/-- `TDEC` takes them in reverse order and direction (R236). -/
theorem stageOutputs_reverse :
    stageOutputs cfg x ⟨s0, s1, s2⟩ true = cascadeStages cfg hv x s2 s1 s0 f2 f1 f0 false :=
  (cascadeStages_eq hv x s2 s1 s0 f2 f1 f0 false).symm

end Stages

/-- With a wide key of the right length, a cascade command that is not a key schedule alone leaves the schedules of the three
segments in the banks, the second stage's output in `INBITS` and the third's in `OUTBITS`. -/
theorem execLong_cascade {f : LongFields} {s : State} {d : Bool} (ht : f.triple = true) (hd : f.decrypt = d)
    (hko : f.keyOnly = false) (hv : cfgValid s.cfg = true) (hk : s.keybuf.length = 3 * s.cfg.kw) :
    let banks : Three (List Bits) :=
      ⟨subkeysOf s.cfg (slice s.keybuf 0 s.cfg.kw), subkeysOf s.cfg (slice s.keybuf s.cfg.kw (2 * s.cfg.kw)),
        subkeysOf s.cfg (slice s.keybuf (2 * s.cfg.kw) (3 * s.cfg.kw))⟩
    let stages := stageOutputs s.cfg s.inbits banks d
    ∃ h, execLong f s = .next (withHidden
      { s with
        done := true, sk := banks, skv := ⟨true, true, true⟩, inbits := stages.2.1, outbits := stages.2.2, opt := true,
        opd := d, kgo := false, ph := .idle } h) := by
  have hneed : needOf s.cfg f = 3 * s.cfg.kw := by simp [needOf, ht]
  obtain ⟨hne, -⟩ | ⟨-, h, hrun⟩ := runLong_cases f s hv
  · exact absurd (hk.trans hneed.symm) hne
  · refine ⟨h, ?_⟩
    rw [execLong_of_valid f hv, hrun]
    simp only [longInput, longOutput, keyBanks_triple ht, ht, hd, hko, Bool.false_eq_true, if_false, if_true]

/-- Settles O30: with a wide key of the right length both commands are `execLong_cascade`, their stages the function's in
their own direction; with any other, `runLong_invalid`. -/
theorem cascadeCommands : Obligations.CascadeCommands := by
  intro s hv
  refine ⟨fun hk => ?valid, fun hk => ⟨?tencInvalid, ?tdecInvalid⟩⟩
  case valid =>
    obtain ⟨henc, hencRun⟩ := execLong_cascade (f := fieldsTenc) (d := false) rfl rfl rfl hv hk
    obtain ⟨hdec, hdecRun⟩ := execLong_cascade (f := fieldsTdec) (d := true) rfl rfl rfl hv hk
    have hfit := fun a b => subkeysOf_fit hv (slice s.keybuf a b)
    rw [stageOutputs_forward hv _ (hfit _ _) (hfit _ _) (hfit _ _)] at hencRun
    rw [stageOutputs_reverse hv _ (hfit _ _) (hfit _ _) (hfit _ _)] at hdecRun
    exact ⟨_, _, _, hfit _ _, hfit _ _, hfit _ _, genSubKeys_slice (by omega) (by omega),
      genSubKeys_slice (by omega) (by omega), genSubKeys_slice (by omega) (by omega),
      ⟨_, _, _, henc, rfl, rfl, rfl, tripleProcess_forward hv _ hk, hencRun⟩,
      ⟨_, _, _, hdec, rfl, rfl, rfl, tripleProcess_reverse hv _ hk, hdecRun⟩⟩
  case tencInvalid => exact (execLong_of_valid fieldsTenc hv).trans (congrArg _ (runLong_invalid fieldsTenc s hk))
  case tdecInvalid => exact (execLong_of_valid fieldsTdec hv).trans (congrArg _ (runLong_invalid fieldsTdec s hk))

end Sys2Proof.Machine
end

section
/-! The short commands (46_host_commands.md R241 to R246): the words with `op` 0, what `CLR` does part by part, when
an append fits its buffer, and the commands themselves. -/

namespace Sys2Proof

/-- The row of the opcode map for `op` 0 is `NOP` alone (R93, R241). -/
theorem decode_of_fieldOp_zero {cw : CmdWord} (h : fieldOp cw = 0#4) :
    decode cw =
      if fieldSub cw = 0#4 ∧ fieldImm cw = 0#8 then .command .nop else .illegal (illegalReason cw) := by
  simp [decode, h]

/-- The word whose three fields are 0 is 0x0000. -/
theorem eq_zero_of_fields {cw : CmdWord} (hop : fieldOp cw = 0#4) (hsub : fieldSub cw = 0#4)
    (himm : fieldImm cw = 0#8) : cw = 0x0000#16 := by
  rw [word_fields cw, hop, hsub, himm]
  rfl

theorem decode_illegal_of_fieldOp_zero {cw : CmdWord} (hop : fieldOp cw = 0#4) (hne : cw ≠ 0x0000#16) :
    decode cw = .illegal (illegalReason cw) := by
  rw [decode_of_fieldOp_zero hop, if_neg fun ⟨hsub, himm⟩ => hne (eq_zero_of_fields hop hsub himm)]

end Sys2Proof

namespace Sys2Proof.Machine

/-! ## `NOP` and `MOVO` (R241, R246) -/

theorem exec_nop (s : State) : exec .nop s = .next s := rfl

/-- Settles O18: `NOP` answers its own state, and among the words with `op` 0 only 0x0000 has the other fields 0. -/
theorem nopChangesNothing : Obligations.NopChangesNothing :=
  ⟨exec_nop, by decide, fun _ hop hne => ⟨_, decode_illegal_of_fieldOp_zero hop hne⟩⟩

/-- Settles O26: `exec` of `MOVO` is the copy. -/
theorem movoCopiesOutput : Obligations.MovoCopiesOutput :=
  fun _ => rfl

/-! ## `CLR` (R242) -/

theorem whenSet_clearKeybuf (p : Bool) (s : State) :
    whenSet p clearKeybuf s = { s with keybuf := if p then [] else s.keybuf } := by
  cases p <;> rfl

theorem whenSet_clearCharbuf (p : Bool) (s : State) :
    whenSet p clearCharbuf s = { s with charbuf := if p then [] else s.charbuf } := by
  cases p <;> rfl

theorem whenSet_clearInbits (p : Bool) (s : State) :
    whenSet p clearInbits s = { s with inbits := if p then [] else s.inbits } := by
  cases p <;> rfl

theorem whenSet_clearOutbits (p : Bool) (s : State) :
    whenSet p clearOutbits s = { s with outbits := if p then [] else s.outbits } := by
  cases p <;> rfl

theorem whenSet_clearFlags (p : Bool) (s : State) :
    whenSet p clearFlags s =
      { s with
        done := if p then false else s.done, err := if p then false else s.err, lit := if p then false else s.lit,
        errcode := if p then 0#2 else s.errcode } := by
  cases p <;> rfl

theorem whenSet_invalidateBanks (p : Bool) (s : State) :
    whenSet p invalidateBanks s =
      { s with
        sk := if p then ⟨zeroBank s.cfg, zeroBank s.cfg, zeroBank s.cfg⟩ else s.sk,
        skv := if p then ⟨false, false, false⟩ else s.skv } := by
  cases p <;> rfl

/-- Settles O19: each mask bit clears its own part by that part's `whenSet` equation, and the parts are disjoint. -/
theorem clrClearsExactlyItsMask : Obligations.ClrClearsExactlyItsMask := by
  intro m s
  rw [exec, execClr, whenSet_invalidateBanks, whenSet_clearFlags, whenSet_clearOutbits, whenSet_clearInbits,
    whenSet_clearCharbuf, whenSet_clearKeybuf]
  rfl

/-! ## `KPUSH`, `CPUSH` and `BPUSH` (R243 to R245) -/

/-- An append to the key buffer that does not fit is dropped whole (R243, R263). -/
theorem appendKey_of_gt {bs : Bits} {s : State} (h : s.keybuf.length + bs.length > s.cfg.keycap) :
    appendKey bs s = raise .bufferOverflow s :=
  if_pos h

theorem appendKey_of_le {bs : Bits} {s : State} (h : s.keybuf.length + bs.length ≤ s.cfg.keycap) :
    appendKey bs s = { s with keybuf := s.keybuf ++ bs } :=
  if_neg h.not_gt

/-- An append to the character buffer that does not fit is dropped whole (R244, R263). -/
theorem appendChar_of_gt {b : Byte} {s : State} (h : s.charbuf.length + 1 > s.cfg.charcap) :
    appendChar b s = raise .bufferOverflow s :=
  if_pos h

theorem appendChar_of_le {b : Byte} {s : State} (h : s.charbuf.length + 1 ≤ s.cfg.charcap) :
    appendChar b s = { s with charbuf := s.charbuf ++ [b] } :=
  if_neg h.not_gt

/-- An append to the input bits that does not fit is dropped whole (R245, R263). -/
theorem appendBit_of_gt {v : Bool} {s : State} (h : s.inbits.length + 1 > s.cfg.bitcap) :
    appendBit v s = raise .bufferOverflow s :=
  if_pos h

theorem appendBit_of_le {v : Bool} {s : State} (h : s.inbits.length + 1 ≤ s.cfg.bitcap) :
    appendBit v s = { s with inbits := s.inbits ++ [v] } :=
  if_neg h.not_gt

/-- A key byte is pushed from its bit 7 down, and never classified (R243). -/
theorem keyBits_eq (b : Byte) :
    keyBits b = [b.getLsbD 7, b.getLsbD 6, b.getLsbD 5, b.getLsbD 4, b.getLsbD 3, b.getLsbD 2, b.getLsbD 1,
      b.getLsbD 0] := rfl

/-- The operand of `BPUSH` as the bit it pushes (R245). -/
theorem pushBit_eq_beq (v : BitVec 1) : pushBit v = (v == 1#1) := by
  revert v
  decide

/-- Settles O21: `KPUSH` is an append of the eight bits of `keyBits`, which fits or is dropped. -/
theorem kpushAppendsByte : Obligations.KpushAppendsByte := by
  intro b s
  rw [exec, execKpush, keyBits_eq]
  exact ⟨fun hfull => congrArg _ (appendKey_of_gt hfull), fun hfits => congrArg _ (appendKey_of_le hfits)⟩

/-- Settles O22: `CPUSH` is an append of its byte, which fits or is dropped. -/
theorem cpushAppendsCharacter : Obligations.CpushAppendsCharacter :=
  fun _ _ => ⟨fun hfull => congrArg _ (appendChar_of_gt hfull), fun hfits => congrArg _ (appendChar_of_le hfits)⟩

/-- Settles O23: `BPUSH` is an append of `pushBit v`, which fits or is dropped. -/
theorem bpushAppendsBit : Obligations.BpushAppendsBit := by
  intro v s
  rw [exec, execBpush, pushBit_eq_beq]
  exact ⟨fun hfull => congrArg _ (appendBit_of_gt hfull), fun hfits => congrArg _ (appendBit_of_le hfits)⟩

end Sys2Proof.Machine
end

section
/-! The exceptions (60_exceptions.md): what an illegal word does to an idle core, and when a long command raises
`InvalidKey`. -/

namespace Sys2Proof.Machine

/-! ## `IllegalCommand` (R262) -/

/-- An error raised by an idle core writes `ERR` and `ERRCODE` only (R264). -/
theorem raise_of_idle {s : State} (hp : s.ph = .idle) (x : CoreError) :
    raise x s = { s with err := true, errcode := if s.err then s.errcode else errorCode x } := by
  rw [raise, ← hp]

theorem runWord_of_illegal {w : CmdWord} {why : IllegalWord} (hw : decode w = .illegal why) (s : State) :
    runWord w s = .next (raise .illegalCommand s) := by
  rw [runWord, hw]

theorem startWord_of_illegal {w : CmdWord} {why : IllegalWord} (hw : decode w = .illegal why) (s : State) :
    startWord w s = .next (raise .illegalCommand s) := by
  rw [startWord, hw]

/-- In both of the forms in which the host presents a word, an illegal one is taken off its list and raises the error. -/
theorem idleStep_of_illegal {s : State} {w : CmdWord} {rest : List HostAction} {why : IllegalWord}
    (ht : s.todo = .command w :: rest ∨ s.todo = .start w :: rest) (hw : decode w = .illegal why) :
    idleStep s = .next (raise .illegalCommand (withTodo rest s)) := by
  rcases ht with hcommand | hstart
  · rw [idleStep, hcommand]
    exact runWord_of_illegal hw _
  · rw [idleStep, hstart]
    exact startWord_of_illegal hw _

/-- Settles O7: the step is the error raised after the word is taken off (`idleStep_of_illegal`), and on an idle core that
error writes no more than the two error fields (`raise_of_idle`). -/
theorem illegalWordOnlyRaises : Obligations.IllegalWordOnlyRaises := by
  intro s w rest why hv hp ht hw
  have hidle : (withTodo rest s).ph = .idle := hp
  rw [step, if_pos hv, if_pos hp, idleStep_of_illegal ht hw, raise_of_idle hidle]
  rfl

/-! ## `InvalidKey` (R261) -/

/-- With a key of the wrong length, the first phase after acceptance raises the error (R159). -/
theorem phaseStep_acceptLong_of_length_ne {f : LongFields} {s : State} (hk : s.keybuf.length ≠ needOf s.cfg f) :
    phaseStep (acceptLong f s) = raise .invalidKey (acceptLong f s) :=
  (phaseStep_kchk (acceptLong_ph f s)).trans (phaseKchk_of_length_ne hk)

/-- Settles O32: by `runLong_cases` a long command is either the error raised in the state its acceptance left, where
`DONE` is 0, or a finished run, which sets `DONE` and writes neither `ERR` nor `ERRCODE`. -/
theorem invalidKeyExactlyOnLength : Obligations.InvalidKeyExactlyOnLength := by
  intro i f s hf hv
  refine ⟨runLong f s, exec_long hf s hv, ?_⟩
  obtain ⟨hk, hrun⟩ | ⟨hk, h, hrun⟩ := runLong_cases f s hv
  · -- the wrong length
    have hdone : (runLong f s).done = false := by rw [hrun, raise_done, acceptLong_done]
    have hbanks (b : Fin 3) :
        (raise .invalidKey (acceptLong f s)).sk.get b = zeroBank s.cfg ∧
          (raise .invalidKey (acceptLong f s)).skv.get b = false :=
      ⟨Three.get_const _ b, Three.get_const _ b⟩
    refine ⟨iff_of_false (by simp [hdone]) hk, by simp [hdone], fun _ => ?_⟩
    rw [hrun]
    exact ⟨rfl, rfl, rfl, hbanks, rfl, rfl, rfl, rfl, rfl, rfl, (phaseStep_acceptLong_of_length_ne hk).symm⟩
  · -- the right length
    have hdone : (runLong f s).done = true := by rw [hrun]; rfl
    refine ⟨iff_of_true hdone hk, fun _ => ?_, by simp [hdone]⟩
    rw [hrun]
    exact ⟨rfl, rfl⟩

end Sys2Proof.Machine
end

section
/-! The reset input (70_reset_and_hazards.md R290): the step that performs it, in an idle and in a running core. -/

namespace Sys2Proof.Machine

theorem idleStep_of_reset {s : State} {rest : List HostAction} (ht : s.todo = .reset :: rest) :
    idleStep s = .next (hostReset (withTodo rest s)) := by
  rw [idleStep, ht]

theorem busyStep_of_reset {s : State} {rest : List HostAction} (ht : s.todo = .reset :: rest) :
    busyStep s = .next (hostReset (withTodo rest s)) := by
  rw [busyStep, ht]

/-- Neither the phase nor what the sequencer would read next (`phaseReady`) matters to a reset. -/
theorem step_reset {s : State} {rest : List HostAction} (hv : cfgValid s.cfg = true) (ht : s.todo = .reset :: rest) :
    step s = .next (hostReset (withTodo rest s)) := by
  rw [step, if_pos hv]
  by_cases hp : s.ph = .idle
  · rw [if_pos hp, idleStep_of_reset ht]
  · rw [if_neg hp, busyStep_of_reset ht]

/-- Settles O8: in every phase the step is `hostReset` (`step_reset`), which writes the reset state of the same
configuration and keeps the host's side. -/
theorem resetInAnyPhase : Obligations.ResetInAnyPhase := by
  intro s rest hv ht bank
  rw [step_reset hv ht, hostReset, withTodo_cfg, withTodo_todo, withTodo_got]
  rfl

end Sys2Proof.Machine
end

section
/-! The encoding (30_encoding.md): the decoder and the encoder as each other's inverse, the rows of the opcode map, and the
illegal words by number. -/

namespace Sys2Proof

/-! ## Decoder and encoder (R92, R93, R96) -/

theorem decode_encode (i : Instr) : decode (encode i) = .command i := by
  cases i with
  | clr m =>
    rw [encode, decode, fieldOp_join, fieldSub_join, fieldImm_join, BitVec.extractLsb'_append_eq_left,
      BitVec.extractLsb'_append_eq_right]
    rfl
  | bpush v =>
    rw [encode, decode, fieldOp_join, fieldSub_join, fieldImm_join, BitVec.extractLsb'_append_eq_left,
      BitVec.extractLsb'_append_eq_right]
    rfl
  | kpush b => rw [encode, decode, fieldOp_join, fieldSub_join, fieldImm_join]; rfl
  | cpush b => rw [encode, decode, fieldOp_join, fieldSub_join, fieldImm_join]; rfl
  | nop | encode | movo | keygenS | keygenT | enc | tenc | dec | tdec => rfl

/-- A field is its fixed upper bits followed by its operand (R94). -/
theorem eq_append_of_high {m n : Nat} {x : BitVec (m + n)} {a : BitVec m} (h : x.extractLsb' n m = a) :
    x = a ++ x.extractLsb' 0 n := by
  rw [← h]
  exact BitVec.extractLsb'_append_extractLsb'.symm

theorem encode_keygen_of_sub {sub : BitVec 4} (h : sub.extractLsb' 1 3 = 0#3) :
    encode (if sub.getLsbD 0 then .keygenT else .keygenS) = 0x8#4 ++ sub ++ 0#8 := by
  revert sub
  decide

theorem encode_cryptOf {sub : BitVec 4} (h : sub.extractLsb' 2 2 = 0#2) :
    encode (cryptOf (sub.getLsbD 0) (sub.getLsbD 1)) = 0x9#4 ++ sub ++ 0#8 := by
  revert sub
  decide

/-- In each branch of the decoder the three fields are those of the command's word. -/
theorem eq_encode_of_decode {cw : CmdWord} {i : Instr} (h : decode cw = .command i) : cw = encode i := by
  refine (word_fields cw).trans ?_
  rw [decode] at h
  split at h
  · rename_i hnop
    obtain ⟨hop, hsub, himm⟩ := hnop
    rw [hop, hsub, himm, ← Decoded.command.inj h, encode]
  split at h
  · rename_i hclr
    obtain ⟨hop, hsub, himm⟩ := hclr
    rw [hop, hsub, ← Decoded.command.inj h, encode, ← eq_append_of_high himm]
  split at h
  · rename_i hkpush
    rw [hkpush.1, hkpush.2, ← Decoded.command.inj h, encode]
  split at h
  · rename_i hcpush
    rw [hcpush.1, hcpush.2, ← Decoded.command.inj h, encode]
  split at h
  · rename_i hbpush
    obtain ⟨hop, hsub, himm⟩ := hbpush
    rw [hop, hsub, ← Decoded.command.inj h, encode, ← eq_append_of_high himm]
  split at h
  · rename_i hencode
    obtain ⟨hop, hsub, himm⟩ := hencode
    rw [hop, hsub, himm, ← Decoded.command.inj h, encode]
  split at h
  · rename_i hmovo
    obtain ⟨hop, hsub, himm⟩ := hmovo
    rw [hop, hsub, himm, ← Decoded.command.inj h, encode]
  split at h
  · rename_i hkeygen
    obtain ⟨hop, hsub, himm⟩ := hkeygen
    rw [hop, himm, ← Decoded.command.inj h, encode_keygen_of_sub hsub]
  split at h
  · rename_i hcrypt
    obtain ⟨hop, hsub, himm⟩ := hcrypt
    rw [hop, himm, ← Decoded.command.inj h, encode_cryptOf hsub]
  · cases h

/-- Settles O2: a decoded command's word is its encoding by the fields each branch of the decoder fixes, and the decoder
reads an encoding's fields back. -/
theorem decodeExactlyInvertsEncode : Obligations.DecodeExactlyInvertsEncode :=
  fun _ _ => ⟨eq_encode_of_decode, fun hcw => hcw ▸ decode_encode _⟩

/-- Settles O1: a worked word is its command's encoding, which decodes to it; an illegal one is computed. -/
theorem workedEncodings : Obligations.WorkedEncodings := by
  refine ⟨decode_encode (.kpush 0x73#8), decode_encode (.cpush 0x20#8), decode_encode (.bpush 1#1),
    decode_encode (.clr 0b101111#6), decode_encode .encode, decode_encode .movo, decode_encode .keygenT, decode_encode .enc,
    decode_encode .tenc, decode_encode .dec, decode_encode .tdec, fun cw hcw => ?_⟩
  fin_cases hcw <;> exact ⟨_, rfl⟩

/-! ## The opcode map (R93) -/

theorem tableRow (i : Instr) : Laws.TableRow.Statement i := by
  cases i with
  | nop => exact Laws.TableRow.nop
  | clr m => exact Laws.TableRow.clr m
  | kpush b => exact Laws.TableRow.kpush b
  | cpush b => exact Laws.TableRow.cpush b
  | bpush v => exact Laws.TableRow.bpush v
  | encode => exact Laws.TableRow.encode
  | movo => exact Laws.TableRow.movo
  | keygenS => exact Laws.TableRow.keygenS
  | keygenT => exact Laws.TableRow.keygenT
  | enc => exact Laws.TableRow.enc
  | tenc => exact Laws.TableRow.tenc
  | dec => exact Laws.TableRow.dec
  | tdec => exact Laws.TableRow.tdec

/-- The row that an encoding selects carries the command's name. -/
theorem exists_row_of_encode (i : Instr) :
    ∃ row ∈ opcodeMap, row.mnemonic = mnemonicOf i ∧ encode i &&& row.mask = row.pattern := by
  have hname : mnemonicOf i ∈ (opcodeMap.filter fun row => row.selects (encode i)).map fun row => row.mnemonic := by
    rw [(tableRow i).2]
    exact List.mem_singleton_self _
  obtain ⟨row, hrow, hmnemonic⟩ := List.mem_map.mp hname
  obtain ⟨hmem, hselects⟩ := List.mem_filter.mp hrow
  exact ⟨row, hmem, hmnemonic, eq_of_beq hselects⟩

/-- A word that agrees with a pattern in its upper `m` bits is the pattern's number plus an operand of `n` bits. -/
theorem toNat_of_masked {m n : Nat} {x : BitVec (m + n)} {a : BitVec m}
    (h : x &&& (BitVec.allOnes m ++ 0#n) = a ++ 0#n) : x.toNat = a.toNat * 2 ^ n + (x.extractLsb' 0 n).toNat := by
  have hhigh : x.extractLsb' n m = a := by
    rw [← BitVec.extractLsb'_append_eq_left (a := a) (b := 0#n), ← h, BitVec.extractLsb'_and,
      BitVec.extractLsb'_append_eq_left, BitVec.and_allOnes]
  conv_lhs => rw [eq_append_of_high hhigh]
  exact toNat_append_eq_mul_add _ _

theorem exists_encode_of_row {cw : CmdWord} {row : OpcodeRow} (hrow : row ∈ opcodeMap)
    (hs : cw &&& row.mask = row.pattern) : ∃ i, cw = encode i ∧ mnemonicOf i = row.mnemonic := by
  have whole : ∀ i, row.mask = 0xFFFF#16 → row.pattern = encode i → cw = encode i := fun i hm hp => by
    rw [← hp, ← hs, hm]
    exact BitVec.and_allOnes.symm
  fin_cases hrow
  · exact ⟨.nop, whole _ rfl rfl, rfl⟩
  · refine ⟨.clr (cw.extractLsb' 0 6), BitVec.eq_of_toNat_eq ?_, rfl⟩
    rw [toNat_encode_clr]
    exact toNat_of_masked (m := 10) (n := 6) (x := cw) (a := 0x040#10) hs
  · refine ⟨.kpush (cw.extractLsb' 0 8), BitVec.eq_of_toNat_eq ?_, rfl⟩
    rw [toNat_encode_kpush]
    exact toNat_of_masked (m := 8) (n := 8) (x := cw) (a := 0x20#8) hs
  · refine ⟨.cpush (cw.extractLsb' 0 8), BitVec.eq_of_toNat_eq ?_, rfl⟩
    rw [toNat_encode_cpush]
    exact toNat_of_masked (m := 8) (n := 8) (x := cw) (a := 0x30#8) hs
  · refine ⟨.bpush (cw.extractLsb' 0 1), BitVec.eq_of_toNat_eq ?_, rfl⟩
    rw [toNat_encode_bpush]
    exact toNat_of_masked (m := 15) (n := 1) (x := cw) (a := 0x2000#15) hs
  · exact ⟨.encode, whole _ rfl rfl, rfl⟩
  · exact ⟨.movo, whole _ rfl rfl, rfl⟩
  · exact ⟨.keygenS, whole _ rfl rfl, rfl⟩
  · exact ⟨.keygenT, whole _ rfl rfl, rfl⟩
  · exact ⟨.enc, whole _ rfl rfl, rfl⟩
  · exact ⟨.tenc, whole _ rfl rfl, rfl⟩
  · exact ⟨.dec, whole _ rfl rfl, rfl⟩
  · exact ⟨.tdec, whole _ rfl rfl, rfl⟩

/-- Any two rows differ in a bit that both fix. -/
theorem rows_differ : ∀ r1 ∈ opcodeMap, ∀ r2 ∈ opcodeMap, r1.pattern &&& r2.mask = r2.pattern &&& r1.mask → r1 = r2 := by
  decide

theorem row_unique {cw : CmdWord} {r1 r2 : OpcodeRow} (h1 : r1 ∈ opcodeMap) (h2 : r2 ∈ opcodeMap)
    (hs1 : cw &&& r1.mask = r1.pattern) (hs2 : cw &&& r2.mask = r2.pattern) : r1 = r2 := by
  apply rows_differ r1 h1 r2 h2
  rw [← hs1, ← hs2, BitVec.and_assoc, BitVec.and_assoc, BitVec.and_comm r1.mask]

/-- Settles O3: an encoding selects its command's row, a word with a row's fixed bits is the encoding of a command of that
row, and two rows cannot both have their fixed bits. -/
theorem opcodeMapSelectsTheCommand : Obligations.OpcodeMapSelectsTheCommand := by
  refine ⟨fun cw i h => ?selected, fun cw row hrow hs => ?decoded, fun cw r1 h1 r2 h2 => row_unique h1 h2⟩
  case selected =>
    rw [eq_encode_of_decode h]
    exact exists_row_of_encode i
  case decoded =>
    obtain ⟨i, rfl, hname⟩ := exists_encode_of_row hrow hs
    exact ⟨i, decode_encode i, hname⟩

/-! ## The illegal words (R95) -/

theorem toNat_fieldOp (cw : CmdWord) : (fieldOp cw).toNat = cw.toNat / 4096 := by
  rw [fieldOp, BitVec.extractLsb'_toNat, Nat.shiftRight_eq_div_pow]
  have := cw.isLt
  omega

theorem toNat_fieldSub (cw : CmdWord) : (fieldSub cw).toNat = cw.toNat / 256 % 16 := by
  rw [fieldSub, BitVec.extractLsb'_toNat, Nat.shiftRight_eq_div_pow]

theorem toNat_fieldImm (cw : CmdWord) : (fieldImm cw).toNat = cw.toNat % 256 := by
  rw [fieldImm, BitVec.extractLsb'_toNat, Nat.shiftRight_zero]

/-- A field's equation with a constant, and that of its upper bits, as equations of numbers. -/
theorem eq_iff_toNat {w : Nat} (x : BitVec w) (n : Nat) : x = BitVec.ofNat w n ↔ x.toNat = n % 2 ^ w := by
  rw [← BitVec.toNat_inj, BitVec.toNat_ofNat]

/-- A word is illegal when no branch of the decoder takes it. -/
theorem exists_illegal_ite {p : Prop} [Decidable p] (i : Instr) (d : Decoded) :
    (∃ why, (if p then .command i else d) = .illegal why) ↔ ¬ p ∧ ∃ why, d = .illegal why := by
  by_cases hp : p <;> simp [hp]

/-- Settles O4: no branch of the decoder takes the word, each branch as a condition on the numbers of the three fields; for
every opcode at most one branch is left. -/
theorem illegalWordsAreTheListed : Obligations.IllegalWordsAreTheListed := by
  intro cw op sub imm
  have hop : cw.toNat / 4096 = op := rfl
  have hsub : cw.toNat / 256 % 16 = sub := rfl
  have himm : cw.toNat % 256 = imm := rfl
  clear_value op sub imm
  have hop16 : op < 16 := by have := cw.isLt; omega
  simp only [decode, exists_illegal_ite, eq_iff_toNat, BitVec.extractLsb'_toNat, Nat.shiftRight_eq_div_pow, toNat_fieldOp,
    toNat_fieldSub, toNat_fieldImm, hop, hsub, himm]
  interval_cases op <;> simp <;> omega

end Sys2Proof
end

section
/-! The step: what it can do, where it stops, what it leaves unchanged, and the invariant. -/

namespace Sys2Proof.Machine

/-! ## What a step can do (R11, R30, R76, R290) -/

/-- What a step can leave of the state `s`, by what it does. -/
inductive StepEffect (s : State) : State → Prop where
  /-- Nothing is presented to an idle core. -/
  | wait (rest : List HostAction) (hp : s.ph = .idle) : StepEffect s (withTodo rest s)
  /-- The reset input. -/
  | reset (rest : List HostAction) (ht : s.todo.head? = some .reset) : StepEffect s (hostReset (withTodo rest s))
  /-- A read. -/
  | read (ra : ReadAddr) (rest : List HostAction) (hp : s.ph = .idle) : StepEffect s (serveRead ra (withTodo rest s))
  /-- A command as one transaction, or a short command at the sequencer's level. -/
  | command (i : Instr) (rest : List HostAction) (t : State) (hp : s.ph = .idle)
      (hi : exec i (withTodo rest s) = .next t) : StepEffect s t
  /-- The acceptance of a long command at the sequencer's level. -/
  | accept (f : LongFields) (rest : List HostAction) (hp : s.ph = .idle) : StepEffect s (acceptLong f (withTodo rest s))
  /-- An illegal word. -/
  | illegal (rest : List HostAction) (hp : s.ph = .idle) : StepEffect s (raise .illegalCommand (withTodo rest s))
  /-- A phase rule. -/
  | phase (rest : List HostAction) (hp : s.ph ≠ .idle) : StepEffect s (phaseStep (withTodo rest s))

theorem stepEffect_of_next {s t : State} (h : step s = .next t) : StepEffect s t := by
  obtain ⟨-, ⟨hp, -, rfl⟩ | ⟨hp, rest, -, rfl⟩ | ⟨rest, ht, rfl⟩ | ⟨hp, ra, rest, -, rfl⟩ | ⟨hp, w, rest, -, hw⟩ |
    ⟨hp, w, rest, -, hw⟩ | ⟨hp, -, q, -, rfl⟩⟩ := step_cases h
  · exact .wait t.todo hp
  · exact .wait rest hp
  · exact .reset rest (by rw [ht]; rfl)
  · exact .read ra rest hp
  · obtain ⟨i, -, hi⟩ | ⟨why, -, rfl⟩ := runWord_cases hw
    · exact .command i rest t hp hi
    · exact .illegal rest hp
  · obtain ⟨i, f, -, -, rfl⟩ | ⟨i, -, -, hi⟩ | ⟨why, -, rfl⟩ := startWord_cases hw
    · exact .accept f rest hp
    · exact .command i rest t hp hi
    · exact .illegal rest hp
  · exact .phase q hp

/-! ## The invariant (10_state.md R39) -/

theorem inv_withTodo {s : State} (h : Inv s) (q : List HostAction) : Inv (withTodo q s) := inv_host h q s.got

/-- Settles O44: each thing a step can do keeps the invariant; a command by `inv_exec`, a phase rule by `inv_phaseStep`, and a
reset reaches the reset state of a valid configuration. -/
theorem stepKeepsInvariant : Obligations.StepKeepsInvariant := by
  intro s t h hstep
  cases stepEffect_of_next hstep with
  | wait rest => exact inv_withTodo h rest
  | reset rest => exact inv_host (inv_resetFields h.valid) rest s.got
  | read ra rest => exact inv_host h rest (s.got ++ [readPort s ra])
  | command i rest t hp hi => exact inv_exec (inv_withTodo h rest) hp hi
  | accept f rest => exact inv_acceptLong (inv_withTodo h rest) f
  | illegal rest hp => exact inv_raise_idle (inv_withTodo h rest) hp _
  | phase rest => exact inv_phaseStep (inv_withTodo h rest)

/-- Settles O43: `inv_resetFields`, and `State.reset` is defined as that state of `CFG-DES64`. -/
theorem invariantAtReset : Obligations.InvariantAtReset :=
  ⟨fun _ => inv_resetFields, rfl, cfgDes64_valid⟩

/-! ## The configuration (10_state.md R21) -/

/-- Settles O11: nothing that a step can do writes the configuration. -/
theorem stepKeepsConfiguration : Obligations.StepKeepsConfiguration := by
  intro s t hstep
  cases stepEffect_of_next hstep with
  | wait | reset | read | accept | illegal => rfl
  | command i rest t hp hi =>
    obtain ⟨hcfg, -⟩ := exec_frame hi
    exact hcfg
  | phase rest => exact (phaseStep_frame _).1

/-! ## Where the step stops (R135, R293) -/

theorem runWord_total {s : State} (hv : cfgValid s.cfg = true) (w : CmdWord) : ∃ t, runWord w s = .next t := by
  cases hd : decode w with
  | command i =>
    rw [runWord, hd]
    exact exec_total i s hv
  | illegal why => exact ⟨_, runWord_of_illegal hd s⟩

theorem startWord_of_long {w : CmdWord} {i : Instr} {f : LongFields} (hw : decode w = .command i)
    (hf : longFieldsOf i = some f) (s : State) : startWord w s = .next (acceptLong f s) := by
  simp only [startWord, hw, hf]

theorem startWord_of_short {w : CmdWord} {i : Instr} (hw : decode w = .command i) (hf : longFieldsOf i = none)
    (s : State) : startWord w s = exec i s := by
  simp only [startWord, hw, hf]

theorem startWord_total {s : State} (hv : cfgValid s.cfg = true) (w : CmdWord) : ∃ t, startWord w s = .next t := by
  cases hd : decode w with
  | illegal why => exact ⟨_, startWord_of_illegal hd s⟩
  | command i =>
    cases hf : longFieldsOf i with
    | some f => exact ⟨_, startWord_of_long hd hf s⟩
    | none =>
      rw [startWord_of_short hd hf]
      exact exec_total i s hv

/-- An idle core answers whatever the host presents. -/
theorem step_idle_total {s : State} (hv : cfgValid s.cfg = true) (hp : s.ph = .idle) : ∃ t, step s = .next t := by
  rw [step, if_pos hv, if_pos hp]
  cases ht : s.todo with
  | nil => exact ⟨s, by rw [idleStep, ht]⟩
  | cons a rest =>
    have hv' : cfgValid (withTodo rest s).cfg = true := hv
    rw [idleStep, ht]
    cases a with
    | pause | reset | read => exact ⟨_, rfl⟩
    | command w => exact runWord_total hv' w
    | start w => exact startWord_total hv' w

/-- A running core takes one phase rule, with or without the action that lets a step pass. -/
theorem step_phase {s : State} (h : Inv s) (hp : s.ph ≠ .idle) (hr : s.todo.head? ≠ some .reset) :
    ∃ q, step s = .next (phaseStep (withTodo q s)) := by
  by_cases hpause : s.todo.head? = some .pause
  · obtain ⟨rest, ht⟩ := List.head?_eq_some_iff.mp hpause
    refine ⟨rest, ?_⟩
    rw [step, if_pos h.valid, if_neg hp, busyStep, ht]
    exact if_pos (phaseReady_of_inv (inv_withTodo h rest))
  · refine ⟨s.todo, step_busy h hp fun a ha => ⟨?_, ?_⟩⟩ <;> rintro rfl
    · exact hr ha
    · exact hpause ha

theorem sequencerStep_ne_refused (s : State) (r : Refusal) : busyStep.sequencerStep s ≠ .refused r := by
  unfold busyStep.sequencerStep
  split <;> nofun

/-- In a valid configuration nothing is refused. -/
theorem step_ne_refused {s : State} (hv : cfgValid s.cfg = true) (r : Refusal) : step s ≠ .refused r := by
  by_cases hp : s.ph = .idle
  · obtain ⟨t, ht⟩ := step_idle_total hv hp
    rw [ht]
    nofun
  · rw [step, if_pos hv, if_neg hp, busyStep]
    split
    · nofun
    all_goals exact sequencerStep_ne_refused _ r

/-- Settles O45: an idle core always answers, a running one by its phase rule, which the invariant makes ready; in a valid
configuration neither refuses, and in any other the step does. -/
theorem stepStopsOnlyOutsideTheCore : Obligations.StepStopsOnlyOutsideTheCore := by
  refine ⟨fun s h => ?answers, fun s => ⟨fun hs => ?invalid, fun hv => ?refused⟩⟩
  case answers =>
    by_cases hp : s.ph = .idle
    · exact step_idle_total h.valid hp
    by_cases hr : s.todo.head? = some .reset
    · obtain ⟨rest, ht⟩ := List.head?_eq_some_iff.mp hr
      exact ⟨_, step_reset h.valid ht⟩
    · obtain ⟨q, hq⟩ := step_phase h hp hr
      exact ⟨_, hq⟩
  case invalid => exact Bool.eq_false_iff.mpr fun hv => step_ne_refused hv _ hs
  case refused => rw [step, if_neg (Bool.eq_false_iff.mp hv)]

/-! ## Idle and running cores (R65, R76) -/

theorem step_nothing {s : State} (hv : cfgValid s.cfg = true) (hp : s.ph = .idle) (ht : s.todo = []) :
    step s = .next s := by
  rw [step, if_pos hv, if_pos hp, idleStep, ht]

/-- The flags of `STATUS`, the last one first (R32). -/
def statusFlags (s : State) : Bits := [s.skv.b2, s.skv.b1, s.skv.b0, s.lit, s.err, s.done, busy s]

theorem statusWord_eq (s : State) : statusWord s = zext32 (natOf (statusFlags s)) := by
  rw [statusWord, zext32]
  congr 1
  simp only [statusFlags, natOf, List.foldl_cons, List.foldl_nil]
  omega

/-- Bit `n` of `STATUS` is flag `n`, and 0 beyond the seven flags (R32). -/
theorem status_bit (s : State) (n : Nat) :
    (readPort s 0x0000#16).getLsbD n = if n < 7 then (statusFlags s).getD (6 - n) false else false := by
  have hword : readPort s 0x0000#16 = zext32 (natOf (statusFlags s)) := statusWord_eq s
  rw [hword, zext32, BitVec.getLsbD_ofNat, natOf_testBit]
  have hlen : (statusFlags s).length = 7 := rfl
  by_cases hn : n < 7
  · simp [hlen, hn, show n < 32 by omega]
  · simp [hlen, hn]

/-- Settles O13: the seven flags by position, and nothing above them. -/
theorem statusWordBits : Obligations.StatusWordBits := by
  intro s
  refine ⟨?busy, status_bit s 1, status_bit s 2, status_bit s 3, status_bit s 4, status_bit s 5, status_bit s 6,
    fun n hn => ?above⟩
  case busy =>
    rw [status_bit]
    exact bne_iff_ne
  case above => rw [status_bit, if_neg (by omega)]

/-- `BUSY` of an idle core is 0 (R32). -/
theorem status_busy_of_idle {s : State} (hp : s.ph = .idle) : (readPort s 0x0000#16).getLsbD 0 = false := by
  rw [status_bit]
  simp [statusFlags, busy, hp]

/-- Settles O10: a running core takes its phase rule, which leaves the host's side alone, and of all that a step can do only a
read, served by an idle core, gives the host a word. -/
theorem transactionsWaitForIdle : Obligations.TransactionsWaitForIdle := by
  refine ⟨fun s => step_nothing, fun s h hp hr => ?waits, fun s t hstep hgot => ?gives⟩
  case waits =>
    obtain ⟨-, -, -, -, -, -, -, htodo, hgot⟩ := phaseStep_frame s
    exact ⟨_, step_busy h hp hr, rfl, htodo, hgot⟩
  case gives =>
    cases stepEffect_of_next hstep with
    | wait | reset | accept | illegal => exact absurd rfl hgot
    | command i rest t hp hi =>
      obtain ⟨-, -, hkept⟩ := exec_frame hi
      exact absurd hkept hgot
    | phase rest =>
      obtain ⟨-, -, -, -, -, -, -, -, hkept⟩ := phaseStep_frame (withTodo rest s)
      exact absurd hkept hgot
    | read ra rest hp => exact ⟨ra, rfl, hp, status_busy_of_idle hp⟩

/-! ## Accepted words (R64, R159) -/

theorem step_command {s : State} {w : CmdWord} {rest : List HostAction} (hv : cfgValid s.cfg = true) (hp : s.ph = .idle)
    (ht : s.todo = .command w :: rest) : step s = runWord w (withTodo rest s) := by
  rw [step, if_pos hv, if_pos hp, idleStep, ht]

theorem step_start {s : State} {w : CmdWord} {rest : List HostAction} (hv : cfgValid s.cfg = true) (hp : s.ph = .idle)
    (ht : s.todo = .start w :: rest) : step s = startWord w (withTodo rest s) := by
  rw [step, if_pos hv, if_pos hp, idleStep, ht]

theorem runWord_of_command {w : CmdWord} {i : Instr} (hw : decode w = .command i) (s : State) :
    runWord w s = exec i s := by
  rw [runWord, hw]

/-- Presenting a command's own word as an opcode-table row. -/
theorem withFetchWord_encode (s : State) (i : Instr) : s.withFetchWord 16 (encode i).toNat = presentWord (encode i) s := by
  rw [State.withFetchWord, Nat.mod_eq_of_lt (encode i).isLt, BitVec.ofNat_toNat, BitVec.setWidth_eq]

/-- Settles O6: the step of an idle core that is given a word is `runWord`, which is the command's execution; the word of a
row decodes to its command. -/
theorem stepRunsTheDecodedCommand : Obligations.StepRunsTheDecodedCommand := by
  refine ⟨fun s w rest i hv hp ht hw => ?presented, fun s i hv => ?fetched⟩
  case presented =>
    rw [step_command hv hp ht, runWord_of_command hw]
    rfl
  case fetched =>
    have hstep : step (presentWord (encode i) s) = runWord (encode i) (withTodo s.todo (presentWord (encode i) s)) :=
      step_command hv rfl rfl
    rw [withFetchWord_encode, hstep, runWord_of_command (decode_encode i)]
    rfl

theorem step_start_long {s : State} {i : Instr} {f : LongFields} {rest : List HostAction} (hv : cfgValid s.cfg = true)
    (hp : s.ph = .idle) (ht : s.todo = .start (encode i) :: rest) (hf : longFieldsOf i = some f) :
    step s = .next (acceptLong f (withTodo rest s)) := by
  rw [step_start hv hp ht, startWord_of_long (decode_encode i) hf]

/-- Settles O37: the step is the acceptance of the command's fields, which the table lists. -/
theorem acceptanceLatchesTheCommand : Obligations.AcceptanceLatchesTheCommand := by
  intro s rest i t d g hv hp ht hmem bank
  have hf : longFieldsOf i = some ⟨t, d, g⟩ := by
    simp only [List.mem_cons, Prod.mk.injEq, List.not_mem_nil, or_false] at hmem
    obtain ⟨rfl, rfl, rfl, rfl⟩ | ⟨rfl, rfl, rfl, rfl⟩ | ⟨rfl, rfl, rfl, rfl⟩ | ⟨rfl, rfl, rfl, rfl⟩ |
      ⟨rfl, rfl, rfl, rfl⟩ | ⟨rfl, rfl, rfl, rfl⟩ := hmem <;> rfl
  rw [step_start_long hv hp ht hf]
  rfl

/-! ## The running sequencer (R30, R302) -/

/-- The graph of 10_state.md section 5, without the acceptance of a command. -/
def PhaseEdge (p q : Phase) : Prop :=
  match p with
  | .idle => q = .idle ∨ q = .kchk
  | .kchk => q = .idle ∨ q = .kload
  | .kload => q = .kround
  | .kround => q = .kround ∨ q = .kload ∨ q = .fin ∨ q = .binit
  | .binit => q = .bfetch ∨ q = .snext
  | .bfetch => q = .bround
  | .bround => q = .bround ∨ q = .bstore
  | .bstore => q = .bfetch ∨ q = .snext
  | .snext => q = .binit ∨ q = .fin
  | .fin => q = .idle

theorem ite_eq_or {p : Prop} [Decidable p] (a b : Phase) : (if p then a else b) = a ∨ (if p then a else b) = b := by
  by_cases hp : p <;> simp [hp]

theorem phaseEdge_kchk (s : State) : PhaseEdge .kchk (phaseKchk s).ph := by
  unfold phaseKchk
  split
  · exact .inl rfl
  · exact .inr rfl

theorem bankDone_ph (s : State) : (bankDone s).ph = .kload ∨ (bankDone s).ph = .fin ∨ (bankDone s).ph = .binit := by
  simp only [bankDone]
  split
  · exact .inl rfl
  split
  · exact .inr (.inl rfl)
  · exact .inr (.inr rfl)

theorem phaseEdge_kround {s : State} (hp : s.ph = .kround) : PhaseEdge .kround (phaseKround s).ph := by
  unfold phaseKround
  split
  · exact .inl hp
  · exact .inr (bankDone_ph _)

theorem phaseEdge_snext (s : State) : PhaseEdge .snext (phaseSnext s).ph := by
  unfold phaseSnext
  split
  · exact .inl rfl
  · exact .inr rfl

theorem phaseEdge_phaseStep {s : State} (h : Inv s) : PhaseEdge s.ph (phaseStep s).ph := by
  cases hp : s.ph with
  | idle => rw [phaseStep_idle hp]; exact .inl hp
  | kchk => rw [phaseStep_kchk hp]; exact phaseEdge_kchk s
  | kload => rw [phaseStep_kload hp]; rfl
  | kround => rw [phaseStep_kround hp]; exact phaseEdge_kround hp
  | binit => rw [phaseStep_binit hp]; exact (ite_eq_or _ _).symm
  | bfetch => rw [phaseStep_bfetch hp]; rfl
  | bround => rw [phaseStep_bround hp, phaseBround_of_fits (roundFits_of_inv h) hp]; exact ite_eq_or _ _
  | bstore => rw [phaseStep_bstore hp]; exact ite_eq_or _ _
  | snext => rw [phaseStep_snext hp]; exact phaseEdge_snext s
  | fin => rw [phaseStep_fin hp]; rfl

theorem phaseEdge_step {s t : State} (h : Inv s) (hstep : step s = .next t) (hr : s.todo.head? ≠ some .reset) :
    PhaseEdge s.ph t.ph := by
  cases stepEffect_of_next hstep with
  | wait rest hp => rw [hp]; exact .inl hp
  | reset rest ht => exact absurd ht hr
  | read ra rest hp => rw [hp]; exact .inl hp
  | command i rest t hp hi => rw [hp]; exact .inl (exec_idle (inv_withTodo h rest).valid hp hi)
  | accept f rest hp => rw [hp]; exact .inr rfl
  | illegal rest hp => rw [hp]; exact .inl rfl
  | phase rest hp => exact phaseEdge_phaseStep (inv_withTodo h rest)

/-- Settles O40: `PhaseEdge` is the graph, and every step follows it. -/
theorem phaseGraph : Obligations.PhaseGraph := by
  intro s t h hstep hr
  have hedge := phaseEdge_step h hstep hr
  cases hp : s.ph <;> rw [hp] at hedge <;> exact hedge

theorem remainingSteps_eq_zero_iff {s : State} (h : Inv s) : remainingSteps s = 0 ↔ s.ph = .idle := by
  refine ⟨fun hz => ?_, fun hp => ?_⟩
  · by_contra hp
    exact (remainingSteps_pos h hp).ne' hz
  · rw [remainingSteps, hp]

/-- Settles O42: only `IDLE` has no step left, and a running core's step is a phase rule, which takes one. -/
theorem sequencerCountsDownToIdle : Obligations.SequencerCountsDownToIdle := by
  refine fun s h hr => ⟨remainingSteps_eq_zero_iff h, fun hp => ?_⟩
  obtain ⟨q, hq⟩ := step_phase h hp hr
  exact ⟨_, hq, remainingSteps_phaseStep (inv_withTodo h q) hp⟩

end Sys2Proof.Machine
end

section
/-! The refinement of a long command by the sequencer (42_key_schedule.md R162, 44_block_pipeline.md R210, 45_cascade.md
R236): the run from acceptance to `IDLE`, and how many steps it takes. -/

namespace Sys2Proof.Machine

theorem core_run_succ {s t : State} (h : step s = .next t) (n : Nat) : core.run (n + 1) s = core.run n t := by
  have hstep : core.step s = .next t := h
  simp only [Host.Core.run, hstep]

/-- With a key of the wrong length the check is the only step (R159). -/
theorem remainingSteps_accept_of_length_ne {f : LongFields} {s : State} (hk : s.keybuf.length ≠ needOf s.cfg f) :
    remainingSteps (acceptLong f s) = 1 := by
  have hneed : (acceptLong f s).keybuf.length ≠ keyNeed (acceptLong f s) := hk
  rw [remainingSteps, acceptLong_ph]
  exact if_neg hneed

/-- As one transaction, a long command is its remaining steps after acceptance, with any key. -/
theorem runLong_eq_iterate (f : LongFields) (s : State) :
    runLong f s = phaseStep^[remainingSteps (acceptLong f s)] (acceptLong f s) := by
  by_cases hk : s.keybuf.length = needOf s.cfg f
  · rw [remainingSteps_accept f s hk, runLong, runPhases_eq]
  · rw [remainingSteps_accept_of_length_ne hk, Function.iterate_one, phaseStep_acceptLong_of_length_ne hk,
      runLong_invalid f s hk]

theorem iterate_ne_idle {s : State} (h : Inv s) {n : Nat} (hn : n < remainingSteps s) :
    (phaseStep^[n] s).ph ≠ .idle := by
  have hleft := remainingSteps_iterate h n hn.le
  rw [ne_eq, ← remainingSteps_eq_zero_iff (inv_iterate h n)]
  omega

/-- The counts of the refinement rules, acceptance included, for `n` rounds and `blocks` blocks (R162, R210, R236). -/
def countedSteps (i : Instr) (n blocks : Nat) : Nat :=
  match i with
  | .keygenS => 1 + (1 + 1 * (1 + n)) + 1
  | .keygenT => 1 + (1 + 3 * (1 + n)) + 1
  | .enc | .dec => 6 + n + blocks * (n + 2)
  | .tenc | .tdec => 3 + 3 * (n + 1) + 3 * (2 + blocks * (n + 2))
  | .nop | .clr _ | .kpush _ | .cpush _ | .bpush _ | .encode | .movo => 0

theorem phaseCount_succ {i : Instr} {f : LongFields} (hf : longFieldsOf i = some f) (cfg : Cfg) (len : Nat) :
    phaseCount cfg f len + 1 = countedSteps i cfg.rounds (numBlocks cfg len) := by
  cases i with
  | keygenS | keygenT | enc | tenc | dec | tdec =>
    cases hf
    simp only [phaseCount, countedSteps, fieldsKeygenS, fieldsKeygenT, fieldsEnc, fieldsTenc, fieldsDec, fieldsTdec,
      if_true, Bool.false_eq_true, if_false]
    omega
  | nop | clr | kpush | cpush | bpush | encode | movo => cases hf

/-- Settles O41: the run accepts the command and then takes its remaining steps one by one, which is the transaction
(`runLong_eq_iterate`); before the last of them the core is not idle (`iterate_ne_idle`). -/
theorem sequencerRefinesLongCommands : Obligations.SequencerRefinesLongCommands := by
  intro s i f h hp hf ht n blocks count
  have haccept : Inv (acceptLong f (withTodo [] s)) := inv_acceptLong (inv_withTodo h []) f
  have hrun : ∀ m, core.run (m + 1) s = .next (phaseStep^[m] (acceptLong f (withTodo [] s))) := fun m => by
    rw [core_run_succ (step_start_long h.valid hp ht hf), run_quiet m _ haccept rfl]
  have hcount : count = remainingSteps (acceptLong f (withTodo [] s)) + 1 := by
    by_cases hk : s.keybuf.length = needOf s.cfg f
    · have hsteps := remainingSteps_accept f (withTodo [] s) hk
      rw [hsteps]
      exact (if_neg (not_not.mpr hk)).trans (phaseCount_succ hf s.cfg s.inbits.length).symm
    · rw [remainingSteps_accept_of_length_ne (s := withTodo [] s) hk]
      exact if_pos hk
  rw [hcount]
  refine ⟨?transaction, fun m t hm hlt hnext => ?busy⟩
  case transaction =>
    have hstep : step { s with todo := [.command (encode i)] } = runWord (encode i) (withTodo [] s) :=
      step_command h.valid hp rfl
    rw [hstep, runWord_of_command (decode_encode i), exec_long hf (withTodo [] s) h.valid, runLong_eq_iterate]
    exact hrun _
  case busy =>
    obtain ⟨k, rfl⟩ := Nat.exists_eq_add_of_lt hm
    rw [Nat.zero_add, hrun] at hnext
    rw [← Host.Outcome.next.inj hnext]
    exact iterate_ne_idle haccept (by omega)

end Sys2Proof.Machine
end

section
/-! What each command writes (10_state.md sections 2, 3, 6; 46_host_commands.md; 60_exceptions.md): the short commands by
their overflow and their result, the long ones by the two outcomes of `runLong_cases`. -/

namespace Sys2Proof.Machine

/-! ## The short commands (R240 to R246, R263) -/

/-- The command does not fit what it appends, or what it encodes, into its buffer (R263). -/
def overflows (i : Instr) (s : State) : Bool :=
  match i with
  | .kpush b => decide (s.keybuf.length + (keyBits b).length > s.cfg.keycap)
  | .cpush _ => decide (s.charbuf.length + 1 > s.cfg.charcap)
  | .bpush _ => decide (s.inbits.length + 1 > s.cfg.bitcap)
  | .encode => decide ((encodeChars s.charbuf).length > s.cfg.bitcap)
  | _ => false

/-- What a short command leaves where it does not overflow. -/
def shortResult (i : Instr) (s : State) : State :=
  match i with
  | .clr m =>
    { s with
      keybuf := if m.getLsbD 0 then [] else s.keybuf, charbuf := if m.getLsbD 1 then [] else s.charbuf,
      inbits := if m.getLsbD 2 then [] else s.inbits, outbits := if m.getLsbD 3 then [] else s.outbits,
      done := if m.getLsbD 4 then false else s.done, err := if m.getLsbD 4 then false else s.err,
      lit := if m.getLsbD 4 then false else s.lit, errcode := if m.getLsbD 4 then 0#2 else s.errcode,
      sk := if m.getLsbD 5 then ⟨zeroBank s.cfg, zeroBank s.cfg, zeroBank s.cfg⟩ else s.sk,
      skv := if m.getLsbD 5 then ⟨false, false, false⟩ else s.skv }
  | .kpush b => { s with keybuf := s.keybuf ++ keyBits b }
  | .cpush b => { s with charbuf := s.charbuf ++ [b] }
  | .bpush v => { s with inbits := s.inbits ++ [pushBit v] }
  | .encode => { s with inbits := encodeChars s.charbuf, lit := isLiteral s.charbuf }
  | .movo => { s with inbits := s.outbits }
  | _ => s

theorem exec_short {i : Instr} (hf : longFieldsOf i = none) (s : State) :
    exec i s = .next (if overflows i s then raise .bufferOverflow s else shortResult i s) := by
  cases i with
  | nop | movo => rfl
  | clr m => exact clrClearsExactlyItsMask m s
  | kpush b =>
    obtain ⟨hlt, happ⟩ | ⟨hle, happ⟩ := appendKey_cases (keyBits b) s <;> rw [exec, execKpush, happ]
    · rw [overflows, if_pos (decide_eq_true hlt)]
    · rw [overflows, if_neg (by simpa using hle), shortResult]
  | cpush b =>
    obtain ⟨hlt, happ⟩ | ⟨hle, happ⟩ := appendChar_cases b s <;> rw [exec, execCpush, happ]
    · rw [overflows, if_pos (decide_eq_true hlt)]
    · rw [overflows, if_neg (by simpa using hle), shortResult]
  | bpush v =>
    obtain ⟨hlt, happ⟩ | ⟨hle, happ⟩ := appendBit_cases (pushBit v) s <;> rw [exec, execBpush, happ]
    · rw [overflows, if_pos (decide_eq_true hlt)]
    · rw [overflows, if_neg (by simpa using hle), shortResult]
  | encode =>
    by_cases hgt : (encodeChars s.charbuf).length > s.cfg.bitcap
    · rw [exec_encode_of_gt hgt, overflows, if_pos (decide_eq_true hgt)]
    · rw [exec_encode_of_le (not_lt.mp hgt), overflows, if_neg (by simpa using hgt), shortResult]
  | keygenS | keygenT | enc | tenc | dec | tdec => cases hf

/-- Everything a short command can do. -/
theorem exec_short_cases {i : Instr} {s t : State} (hf : longFieldsOf i = none) (h : exec i s = .next t) :
    (overflows i s = true ∧ t = raise .bufferOverflow s) ∨ (overflows i s = false ∧ t = shortResult i s) := by
  rw [exec_short hf] at h
  cases ho : overflows i s <;> rw [ho] at h <;> cases h
  · exact .inr ⟨rfl, rfl⟩
  · exact .inl ⟨rfl, rfl⟩

/-- No short command writes the sequencer, the configuration or the host's side. -/
theorem shortResult_frame (i : Instr) (s : State) :
    shortResult i s = { shortResult i s with
      c := s.c, d := s.d, l := s.l, r := s.r, rc := s.rc, bi := s.bi, nb := s.nb, stg := s.stg, bnk := s.bnk,
      opt := s.opt, opd := s.opd, kgo := s.kgo, ph := s.ph, cfg := s.cfg, todo := s.todo, got := s.got } := by
  cases i <;> rfl

theorem shortResult_keeps_done_banks {i : Instr} (hi : ∀ m, i ≠ .clr m) (s : State) :
    (shortResult i s).done = s.done ∧ (shortResult i s).sk = s.sk ∧ (shortResult i s).skv = s.skv := by
  cases i with
  | clr m => exact absurd rfl (hi m)
  | _ => exact ⟨rfl, rfl, rfl⟩

theorem shortResult_err {i : Instr} (hi : ∀ m, i = .clr m → m.getLsbD 4 = false) (s : State) :
    (shortResult i s).err = s.err ∧ (shortResult i s).errcode = s.errcode := by
  cases i with
  | clr m =>
    have hm := Bool.eq_false_iff.mp (hi m rfl)
    exact ⟨if_neg hm, if_neg hm⟩
  | _ => exact ⟨rfl, rfl⟩

/-- A short command that does not overflow does not set `ERR`. -/
theorem shortResult_err_le (i : Instr) (s : State) (h : s.err = false) : (shortResult i s).err = false := by
  cases i with
  | clr m => simp [shortResult, h]
  | _ => exact h

/-- Whether a command overflows does not depend on the recorded error. -/
theorem overflows_err (i : Instr) (s : State) (e : Bool) (c : BitVec 2) :
    overflows i { s with err := e, errcode := c } = overflows i s := by
  cases i <;> rfl

/-- Settles O27: a short command either raises the overflow, which writes `ERR` and `ERRCODE` only, or leaves `shortResult`;
whether it overflows does not depend on `ERR`, and `shortResult` never sets it. -/
theorem shortCommandsFrame : Obligations.ShortCommandsFrame := by
  intro i s t hf hp h
  obtain ⟨ho, rfl⟩ | ⟨ho, rfl⟩ := exec_short_cases hf h
  · exact ⟨rfl, fun _ => ⟨rfl, rfl, rfl⟩, fun _ _ _ => ⟨rfl, rfl, rfl, rfl, rfl⟩⟩
  · refine ⟨hp ▸ shortResult_frame i s, fun hi => shortResult_keeps_done_banks hi s, fun u hu herr => ?_⟩
    obtain ⟨ho', -⟩ | ⟨-, rfl⟩ := exec_short_cases hf hu
    · rw [overflows_err, ho] at ho'
      cases ho'
    · rw [shortResult_err_le i _ rfl] at herr
      cases herr

/-! ## The long commands (R158, R201, R235, R261) -/

/-- Among the long commands only the cascades write `INBITS` (R201, R235). -/
theorem runLong_inbits {f : LongFields} {s : State} (hv : cfgValid s.cfg = true)
    (h : (runLong f s).inbits ≠ s.inbits) : f.keyOnly = false ∧ f.triple = true := by
  obtain ⟨-, hrun⟩ | ⟨-, hid, hrun⟩ := runLong_cases f s hv <;> rw [hrun] at h
  · exact absurd rfl h
  · have hin : longInput f s ≠ s.inbits := h
    unfold longInput at hin
    split_ifs at hin with hko ht
    · exact absurd rfl hin
    · exact ⟨Bool.eq_false_iff.mpr hko, ht⟩
    · exact absurd rfl hin

/-- The key schedule alone does not write `OUTBITS` (R158, R159). -/
theorem runLong_outbits {f : LongFields} {s : State} (hv : cfgValid s.cfg = true)
    (h : (runLong f s).outbits ≠ s.outbits) : f.keyOnly = false := by
  refine Bool.eq_false_iff.mpr fun hko => h ?_
  obtain ⟨-, hrun⟩ | ⟨-, hid, hrun⟩ := runLong_cases f s hv <;> rw [hrun]
  · exact if_pos hko
  · exact if_pos hko

theorem runLong_err_kept {f : LongFields} {s : State} (hv : cfgValid s.cfg = true) (he : s.err = true) :
    (runLong f s).err = true ∧ (runLong f s).errcode = s.errcode := by
  obtain ⟨-, hrun⟩ | ⟨-, hid, hrun⟩ := runLong_cases f s hv <;> rw [hrun]
  · exact ⟨rfl, if_pos he⟩
  · exact ⟨he, rfl⟩

/-- The banks that a long command leaves depend on `T` alone among the fields it latches. -/
theorem runLong_banks_congr {f g : LongFields} (hfg : f.triple = g.triple) {s : State} (hv : cfgValid s.cfg = true) :
    (runLong f s).sk = (runLong g s).sk ∧ (runLong f s).skv = (runLong g s).skv := by
  have hneed : needOf s.cfg f = needOf s.cfg g := by rw [needOf, needOf, hfg]
  have hbanks : keyBanks s.cfg f s.keybuf = keyBanks s.cfg g s.keybuf := by rw [keyBanks, keyBanks, hfg]
  obtain ⟨hf, hrunf⟩ | ⟨hf, hidf, hrunf⟩ := runLong_cases f s hv <;>
    obtain ⟨hg, hrung⟩ | ⟨hg, hidg, hrung⟩ := runLong_cases g s hv
  · rw [hrunf, hrung]
    exact ⟨rfl, rfl⟩
  · exact absurd (hg.trans hneed.symm) hf
  · exact absurd (hf.trans hneed) hg
  · rw [hrunf, hrung]
    exact ⟨hbanks, by rw [withHidden, withHidden, hfg]⟩

/-- Settles O36: the six commands run from the same state, and the banks of each run depend on `T` alone. -/
theorem banksDoNotDependOnDirection : Obligations.BanksDoNotDependOnDirection := by
  intro s t1 t2 t3 u1 u2 u3 hv ht1 ht2 ht3 hu1 hu2 hu3
  obtain ⟨-, rfl⟩ := execLong_next (f := fieldsEnc) ht1
  obtain ⟨-, rfl⟩ := execLong_next (f := fieldsDec) ht2
  obtain ⟨-, rfl⟩ := execLong_next (f := fieldsKeygenS) ht3
  obtain ⟨-, rfl⟩ := execLong_next (f := fieldsTenc) hu1
  obtain ⟨-, rfl⟩ := execLong_next (f := fieldsTdec) hu2
  obtain ⟨-, rfl⟩ := execLong_next (f := fieldsKeygenT) hu3
  obtain ⟨hsk12, hskv12⟩ := runLong_banks_congr (f := fieldsEnc) (g := fieldsDec) rfl hv
  obtain ⟨hsk13, hskv13⟩ := runLong_banks_congr (f := fieldsEnc) (g := fieldsKeygenS) rfl hv
  obtain ⟨tsk12, tskv12⟩ := runLong_banks_congr (f := fieldsTenc) (g := fieldsTdec) rfl hv
  obtain ⟨tsk13, tskv13⟩ := runLong_banks_congr (f := fieldsTenc) (g := fieldsKeygenT) rfl hv
  exact ⟨hsk12, hsk13, hskv12, hskv13, tsk12, tsk13, tskv12, tskv13⟩

/-! ## Every command's writers (10_state.md sections 2, 3, 6) -/

theorem overflows_writers {i : Instr} {s : State} (h : overflows i s = true) :
    (∃ b, i = .kpush b) ∨ (∃ b, i = .cpush b) ∨ (∃ v, i = .bpush v) ∨ i = .encode := by
  cases i with
  | kpush b => exact .inl ⟨b, rfl⟩
  | cpush b => exact .inr (.inl ⟨b, rfl⟩)
  | bpush v => exact .inr (.inr (.inl ⟨v, rfl⟩))
  | encode => exact .inr (.inr (.inr rfl))
  | _ => cases h

theorem eq_true_of_ite_ne {α : Type} {p : Bool} {a b : α} (h : (if p then a else b) ≠ b) : p = true := by
  by_contra hp
  exact h (if_neg hp)

section Writers
variable {i : Instr} {s : State}

theorem shortResult_keybuf_writers (h : (shortResult i s).keybuf ≠ s.keybuf) :
    (∃ b, i = .kpush b) ∨ ∃ m, i = .clr m ∧ m.getLsbD 0 = true := by
  cases i with
  | kpush b => exact .inl ⟨b, rfl⟩
  | clr m => exact .inr ⟨m, rfl, eq_true_of_ite_ne h⟩
  | _ => exact absurd rfl h

theorem shortResult_charbuf_writers (h : (shortResult i s).charbuf ≠ s.charbuf) :
    (∃ b, i = .cpush b) ∨ ∃ m, i = .clr m ∧ m.getLsbD 1 = true := by
  cases i with
  | cpush b => exact .inl ⟨b, rfl⟩
  | clr m => exact .inr ⟨m, rfl, eq_true_of_ite_ne h⟩
  | _ => exact absurd rfl h

theorem shortResult_inbits_writers (h : (shortResult i s).inbits ≠ s.inbits) :
    (∃ v, i = .bpush v) ∨ i = .encode ∨ i = .movo ∨ ∃ m, i = .clr m ∧ m.getLsbD 2 = true := by
  cases i with
  | bpush v => exact .inl ⟨v, rfl⟩
  | encode => exact .inr (.inl rfl)
  | movo => exact .inr (.inr (.inl rfl))
  | clr m => exact .inr (.inr (.inr ⟨m, rfl, eq_true_of_ite_ne h⟩))
  | _ => exact absurd rfl h

theorem shortResult_outbits_writers (h : (shortResult i s).outbits ≠ s.outbits) :
    ∃ m, i = .clr m ∧ m.getLsbD 3 = true := by
  cases i with
  | clr m => exact ⟨m, rfl, eq_true_of_ite_ne h⟩
  | _ => exact absurd rfl h

theorem shortResult_done_writers (h : (shortResult i s).done ≠ s.done) : ∃ m, i = .clr m ∧ m.getLsbD 4 = true := by
  cases i with
  | clr m => exact ⟨m, rfl, eq_true_of_ite_ne h⟩
  | _ => exact absurd rfl h

theorem shortResult_lit_writers (h : (shortResult i s).lit ≠ s.lit) :
    i = .encode ∨ ∃ m, i = .clr m ∧ m.getLsbD 4 = true := by
  cases i with
  | encode => exact .inl rfl
  | clr m => exact .inr ⟨m, rfl, eq_true_of_ite_ne h⟩
  | _ => exact absurd rfl h

theorem shortResult_err_writers
    (h : (shortResult i s).err ≠ s.err ∨ (shortResult i s).errcode ≠ s.errcode) :
    ∃ m, i = .clr m ∧ m.getLsbD 4 = true := by
  by_contra hclr
  have hkept := shortResult_err (i := i) (fun m hm => Bool.eq_false_iff.mpr fun hbit => hclr ⟨m, hm, hbit⟩) s
  exact h.elim (absurd hkept.1) (absurd hkept.2)

theorem shortResult_banks_writers (h : (shortResult i s).sk ≠ s.sk ∨ (shortResult i s).skv ≠ s.skv) :
    ∃ m, i = .clr m ∧ m.getLsbD 5 = true := by
  cases i with
  | clr m => exact ⟨m, rfl, h.elim eq_true_of_ite_ne eq_true_of_ite_ne⟩
  | _ => exact h.elim (absurd rfl) (absurd rfl)

end Writers

theorem cascade_of_fields {i : Instr} {f : LongFields} (hf : longFieldsOf i = some f) (hko : f.keyOnly = false)
    (ht : f.triple = true) : i = .tenc ∨ i = .tdec := by
  cases i with
  | tenc => exact .inl rfl
  | tdec => exact .inr rfl
  | keygenS | keygenT =>
    cases hf
    exact absurd hko (by decide)
  | enc | dec =>
    cases hf
    exact absurd ht (by decide)
  | _ => cases hf

theorem crypt_of_fields {i : Instr} {f : LongFields} (hf : longFieldsOf i = some f) (hko : f.keyOnly = false) :
    i = .enc ∨ i = .dec ∨ i = .tenc ∨ i = .tdec := by
  cases i with
  | enc => exact .inl rfl
  | dec => exact .inr (.inl rfl)
  | tenc => exact .inr (.inr (.inl rfl))
  | tdec => exact .inr (.inr (.inr rfl))
  | keygenS | keygenT =>
    cases hf
    exact absurd hko (by decide)
  | _ => cases hf

/-- Settles O33: a long command is one of the writers of everything it can change, an overflow writes the two error fields
only, and what else a short command changes is `shortResult`, field by field. -/
theorem onlyNamedCommandsWrite : Obligations.OnlyNamedCommandsWrite := by
  intro i s t hv h
  have hframe := exec_frame h
  cases hf : longFieldsOf i with
  | some f =>
    obtain ⟨-, rfl⟩ := execLong_next ((exec_eq_execLong hf s).symm.trans h)
    obtain ⟨-, hkey, hchar, hlit, -, -⟩ := runLong_frame f s
    have hlong : some f ≠ none := nofun
    refine ⟨absurd hkey, absurd hchar, fun hin => ?inbits, fun hout => ?outbits, fun _ => .inl hlong, absurd hlit,
      fun _ => .inr (.inr (.inr (.inr (.inl hlong)))), fun _ => .inl hlong, hframe⟩
    case inbits =>
      obtain ⟨hko, ht⟩ := runLong_inbits hv hin
      obtain htenc | htdec := cascade_of_fields hf hko ht
      · exact .inr (.inr (.inr (.inl htenc)))
      · exact .inr (.inr (.inr (.inr (.inl htdec))))
    case outbits =>
      obtain henc | hdec | htenc | htdec := crypt_of_fields hf (runLong_outbits hv hout)
      · exact .inl henc
      · exact .inr (.inl hdec)
      · exact .inr (.inr (.inl htenc))
      · exact .inr (.inr (.inr (.inl htdec)))
  | none =>
    obtain ⟨ho, rfl⟩ | ⟨-, rfl⟩ := exec_short_cases hf h
    · refine ⟨absurd rfl, absurd rfl, absurd rfl, absurd rfl, absurd rfl, absurd rfl, fun _ => ?overflow,
        fun hne => hne.elim (absurd rfl) (absurd rfl), hframe⟩
      case overflow =>
        obtain hkpush | hcpush | hbpush | hencode := overflows_writers ho
        · exact .inl hkpush
        · exact .inr (.inl hcpush)
        · exact .inr (.inr (.inl hbpush))
        · exact .inr (.inr (.inr (.inl hencode)))
    · refine ⟨shortResult_keybuf_writers, shortResult_charbuf_writers, fun hin => ?shortInbits, fun hout => ?shortOutbits,
        fun hdone => .inr (shortResult_done_writers hdone), shortResult_lit_writers,
        fun herr => ?shortErr, fun hbanks => .inr (shortResult_banks_writers hbanks), hframe⟩
      case shortInbits =>
        obtain hbpush | hencode | hmovo | hclr := shortResult_inbits_writers hin
        · exact .inl hbpush
        · exact .inr (.inl hencode)
        · exact .inr (.inr (.inl hmovo))
        · exact .inr (.inr (.inr (.inr (.inr hclr))))
      case shortOutbits => exact .inr (.inr (.inr (.inr (shortResult_outbits_writers hout))))
      case shortErr => exact .inr (.inr (.inr (.inr (.inr (shortResult_err_writers herr)))))

/-! ## The recorded error (R264, R267) -/

/-- Settles O34: an error raised over a recorded one keeps its code, and no other outcome of a command writes the two error
fields, `CLR` with bit F apart. -/
theorem firstErrorIsKept : Obligations.FirstErrorIsKept := by
  intro i s t hv h he hclr
  cases hf : longFieldsOf i with
  | some f =>
    obtain ⟨-, rfl⟩ := execLong_next ((exec_eq_execLong hf s).symm.trans h)
    exact runLong_err_kept hv he
  | none =>
    obtain ⟨-, rfl⟩ | ⟨-, rfl⟩ := exec_short_cases hf h
    · exact ⟨rfl, if_pos he⟩
    · obtain ⟨herr, hcode⟩ := shortResult_err hclr s
      exact ⟨herr.trans he, hcode⟩

theorem shortResult_other_err (i : Instr) (s : State) (e : Bool) (c : BitVec 2) :
    ∃ e' c', shortResult i { s with err := e, errcode := c } = { shortResult i s with err := e', errcode := c' } := by
  cases i with
  | clr m => exact ⟨if m.getLsbD 4 then false else e, if m.getLsbD 4 then 0#2 else c, rfl⟩
  | _ => exact ⟨e, c, rfl⟩

/-- Settles O35: neither the choice between a command's outcomes nor what they write outside the two error fields looks at
those fields. -/
theorem errorDoesNotAlterCommands : Obligations.ErrorDoesNotAlterCommands := by
  intro i s t e c hv h
  cases hf : longFieldsOf i with
  | some f =>
    obtain ⟨-, rfl⟩ := execLong_next ((exec_eq_execLong hf s).symm.trans h)
    obtain ⟨e', c', hrun⟩ := runLong_err f s e c
    exact ⟨e', c', (exec_long hf { s with err := e, errcode := c } hv).trans (congrArg _ hrun)⟩
  | none =>
    rw [exec_short hf, overflows_err]
    obtain ⟨ho, rfl⟩ | ⟨ho, rfl⟩ := exec_short_cases hf h
    · exact ⟨true, if e then c else 3#2, congrArg _ (if_pos ho)⟩
    · obtain ⟨e', c', hres⟩ := shortResult_other_err i s e c
      exact ⟨e', c', congrArg _ ((if_neg (Bool.eq_false_iff.mp ho)).trans hres)⟩

end Sys2Proof.Machine
end

section
/-! The two ports (10_state.md sections 6 and 7, 20_memory.md): the register words, and what no port shows. -/

namespace Sys2Proof.Machine

/-! ## The register words (R32 to R35, R67) -/

/-- A number that fits 32 bits is read exactly (R10). -/
theorem toNat_zext32 {n : Nat} (h : n < 2 ^ 32) : (zext32 n).toNat = n := by
  rw [zext32, BitVec.toNat_ofNat, Nat.mod_eq_of_lt h]

theorem toNat_cfgFlags (cfg : Cfg) :
    (cfgFlags cfg).toNat = cfg.useIp.toNat + 2 * (if cfg.kw = cfg.pc1.length then 0 else 1) := by
  have huse : cfg.usePc1.toNat = if cfg.kw = cfg.pc1.length then 0 else 1 := by
    by_cases h : cfg.kw = cfg.pc1.length <;> simp [Cfg.usePc1, Cfg.ksw, h]
  have hip := cfg.useIp.toNat_lt
  have hpc1 := cfg.usePc1.toNat_lt
  rw [cfgFlags, BitVec.toNat_ofNat, ← huse]
  omega

/-- A block fits the bit buffers, which hold whole blocks (R135 (j)). -/
theorem block_le_bitcap {cfg : Cfg} (hc : CfgFacts cfg) : cfg.block ≤ cfg.bitcap := by
  have hchar := hc.charcapMin
  have hbit := hc.bitcapMin
  exact Nat.le_of_dvd (by omega) (Nat.dvd_of_mod_eq_zero hc.bitcapMul)

/-- Settles O14: each address selects its word; the words that R135 (j) bounds are below `2^32`. -/
theorem registerWords : Obligations.RegisterWords := by
  intro s
  refine ⟨?errcode, rfl, rfl, rfl, rfl, rfl, toNat_cfgFlags s.cfg, fun h => ?exact, rfl⟩
  case errcode =>
    have hword : readPort s 0x0001#16 = s.errcode.zeroExtend 32 := rfl
    have hlt := s.errcode.isLt
    rw [hword, BitVec.toNat_setWidth, Nat.mod_eq_of_lt (by omega)]
  case exact =>
    have hc := cfgFacts_of_valid h.valid
    have hmax := hc.bitcapMax
    have hcharcap := hc.bitcapMin
    have hblock := block_le_bitcap hc
    have hrounds := hc.roundsMax
    have hchars := h.charsFit
    have hin := h.inFits
    have hout := h.outFits
    exact ⟨toNat_zext32 (by omega), toNat_zext32 (by omega), toNat_zext32 (by omega), toNat_zext32 (by omega),
      toNat_zext32 (by omega), toNat_zext32 (by omega), toNat_zext32 (by omega)⟩

/-! ## What no port shows (R37, R291) -/

/-- Settles O20: `CLR` with all six bits writes the reset value of everything that a port shows. -/
theorem clrAllIsArchitecturalReset : Obligations.ClrAllIsArchitecturalReset :=
  fun s hp => ⟨_, clrClearsExactlyItsMask 0x3F#6 s,
    { cfg := rfl, keybuf := rfl, charbuf := rfl, inbits := rfl, outbits := rfl, sk := rfl, skv := rfl, done := rfl,
      err := rfl, lit := rfl, errcode := rfl, ph := hp, todo := rfl, got := rfl }⟩

section Agreement
variable {s t : State} (h : AgreeOnPorts s t)
include h

theorem agree_overflows (i : Instr) : overflows i s = overflows i t := by
  cases i with
  | kpush | cpush | bpush | encode => simp only [overflows, h.cfg, h.keybuf, h.charbuf, h.inbits]
  | _ => rfl

theorem agree_shortResult (i : Instr) : AgreeOnPorts (shortResult i s) (shortResult i t) := by
  obtain ⟨hcfg, hkey, hchar, hin, hout, hsk, hskv, hdone, herr, hlit, hcode, hph, htodo, hgot⟩ := h
  cases i <;> constructor <;> simp only [shortResult, *]

theorem agree_acceptLong (f : LongFields) : AgreeOnPorts (acceptLong f s) (acceptLong f t) := by
  obtain ⟨hcfg, hkey, hchar, hin, hout, hsk, hskv, hdone, herr, hlit, hcode, hph, htodo, hgot⟩ := h
  constructor <;> simp [*]

/-- A long command's outcome depends on the configuration, the key and the input, and its registers are hidden. -/
theorem agree_runLong (hv : cfgValid s.cfg = true) (f : LongFields) : AgreeOnPorts (runLong f s) (runLong f t) := by
  have hneed : (s.keybuf.length = needOf s.cfg f) = (t.keybuf.length = needOf t.cfg f) := by rw [h.cfg, h.keybuf]
  obtain ⟨hs, hruns⟩ | ⟨hs, hids, hruns⟩ := runLong_cases f s hv <;>
    obtain ⟨ht, hrunt⟩ | ⟨ht, hidt, hrunt⟩ := runLong_cases f t (h.cfg ▸ hv)
  · rw [hruns, hrunt]
    exact agree_raise (agree_acceptLong h f) _
  · exact absurd (hneed ▸ ht) hs
  · exact absurd (hneed ▸ hs) ht
  · rw [hruns, hrunt]
    have hlongIn : longInput f s = longInput f t := by simp only [longInput, h.cfg, h.keybuf, h.inbits]
    have hlongOut : longOutput f s = longOutput f t := by simp only [longOutput, h.cfg, h.keybuf, h.inbits, h.outbits]
    obtain ⟨hcfg, hkey, hchar, hin, hout, hsk, hskv, hdone, herr, hlit, hcode, hph, htodo, hgot⟩ := h
    constructor <;> simp only [withHidden, *]

theorem agree_exec {i : Instr} {s' : State} (hs : exec i s = .next s') :
    ∃ t', exec i t = .next t' ∧ AgreeOnPorts s' t' := by
  cases hf : longFieldsOf i with
  | some f =>
    obtain ⟨hv, rfl⟩ := execLong_next ((exec_eq_execLong hf s).symm.trans hs)
    exact ⟨_, exec_long hf t (h.cfg ▸ hv), agree_runLong h hv f⟩
  | none =>
    obtain ⟨ho, rfl⟩ | ⟨ho, rfl⟩ := exec_short_cases hf hs <;> rw [agree_overflows h] at ho <;>
      rw [exec_short hf, ho]
    · exact ⟨_, rfl, agree_raise h _⟩
    · exact ⟨_, rfl, agree_shortResult h i⟩

theorem agree_runWord {w : CmdWord} {s' : State} (hs : runWord w s = .next s') :
    ∃ t', runWord w t = .next t' ∧ AgreeOnPorts s' t' := by
  obtain ⟨i, hw, hi⟩ | ⟨why, hw, rfl⟩ := runWord_cases hs
  · rw [runWord_of_command hw]
    exact agree_exec h hi
  · exact ⟨_, runWord_of_illegal hw t, agree_raise h _⟩

theorem agree_serveRead (ra : ReadAddr) : AgreeOnPorts (serveRead ra s) (serveRead ra t) := by
  have hword := agree_readPort h ra
  obtain ⟨hcfg, hkey, hchar, hin, hout, hsk, hskv, hdone, herr, hlit, hcode, hph, htodo, hgot⟩ := h
  constructor <;> simp [*]

theorem agree_hostReset : AgreeOnPorts (hostReset s) (hostReset t) := by
  constructor <;> simp [hostReset, resetState, h.cfg, h.todo, h.got]

end Agreement

/-- A word run as one transaction leaves an idle core idle and the host's list alone (R65). -/
theorem runWord_idle {w : CmdWord} {s t : State} (hv : cfgValid s.cfg = true) (hp : s.ph = .idle)
    (h : runWord w s = .next t) : t.ph = .idle ∧ t.todo = s.todo := by
  obtain ⟨i, -, hi⟩ | ⟨why, -, rfl⟩ := runWord_cases h
  · obtain ⟨-, htodo, -⟩ := exec_frame hi
    exact ⟨exec_idle hv hp hi, htodo⟩
  · exact ⟨rfl, rfl⟩

/-- Settles O46: by the host's next action; each transaction is made of operations that keep agreeing states agreeing, and
leaves an idle core idle. -/
theorem hiddenStateIsUnobservable : Obligations.HiddenStateIsUnobservable := by
  intro s t s' h hp hstart hstep
  have hv := (step_cases hstep).1
  have hvt : cfgValid t.cfg = true := h.cfg ▸ hv
  have hpt : t.ph = .idle := h.ph ▸ hp
  cases hs : s.todo with
  | nil =>
    rw [step_nothing hv hp hs] at hstep
    cases hstep
    exact ⟨⟨t, step_nothing hvt hpt (h.todo ▸ hs), h⟩, hp, hstart⟩
  | cons a rest =>
    have ht : t.todo = a :: rest := h.todo ▸ hs
    have hrest : ∀ w, HostAction.start w ∉ rest := fun w hw => hstart w (hs ▸ List.mem_cons_of_mem a hw)
    have hagree := agree_withTodo h rest
    have hidle {u : State} (hvu : cfgValid u.cfg = true) (hpu : u.ph = .idle) : step u = idleStep u := by
      rw [step, if_pos hvu, if_pos hpu]
    rw [hidle hv hp, idleStep, hs] at hstep
    rw [hidle hvt hpt, idleStep, ht]
    cases a with
    | pause =>
      cases hstep
      exact ⟨⟨_, rfl, hagree⟩, hp, hrest⟩
    | reset =>
      cases hstep
      exact ⟨⟨_, rfl, agree_hostReset hagree⟩, rfl, hrest⟩
    | read ra =>
      cases hstep
      exact ⟨⟨_, rfl, agree_serveRead hagree ra⟩, hp, hrest⟩
    | command w =>
      obtain ⟨hpw, hqw⟩ := runWord_idle (s := withTodo rest s) hv hp hstep
      exact ⟨agree_runWord hagree hstep, hpw, hqw ▸ hrest⟩
    | start w => exact absurd (hs ▸ List.mem_cons_self) (hstart w)

end Sys2Proof.Machine
end

section
/-! Bit sequences (40_bitseq_utilities.md R112, R113, R118 to R120): the laws of rotations, permutations and exclusive or. -/

namespace Sys2Proof.Machine

/-! ## Rotations (R112, R113, R120) -/

theorem rotl_mod_length (s : Bits) (n : Nat) : rotl s (n % s.length) = rotl s n := by
  rw [rotl_eq_rotate, rotl_eq_rotate, List.rotate_mod]

/-- The right rotation undoes the left one: both are left rotations, and their amounts add up to a multiple of the length. -/
theorem rotr_rotl (s : Bits) (n : Nat) : rotr (rotl s n) n = s := by
  by_cases h : s = []
  · rw [h, rotl_nil, rotr_nil]
  · have hmod : n % s.length < s.length := Nat.mod_lt n (List.length_pos_of_ne_nil h)
    have hsum : n + (s.length - n % s.length) = s.length * (n / s.length + 1) := by
      have hn := Nat.div_add_mod n s.length
      rw [Nat.mul_add_one]
      omega
    rw [rotr_eq_rotl, length_rotl, rotl_rotl, hsum, rotl_length_mul]

theorem rotl_zero (s : Bits) : rotl s 0 = s := by
  rw [rotl_eq_rotate, List.rotate_zero]

/-- Rotations in turn are one rotation by the running sum. -/
theorem foldl_rotl (s : Bits) (ns : List Nat) : ns.foldl rotl s = rotl s ns.sum := by
  induction ns generalizing s with
  | nil => exact (rotl_zero s).symm
  | cons n ns ih => rw [List.foldl_cons, ih, rotl_rotl, List.sum_cons]

/-- Settles O49: a left rotation is the library's, a right one is a left one, and amounts add up. -/
theorem rotationLaws : Obligations.RotationLaws :=
  ⟨fun s a b => ⟨rotl_rotl s a b, rotr_rotl s a, rotl_mod_length s a⟩, fun s n _ => rotr_eq_rotl s n, foldl_rotl⟩

/-! ## Exclusive or (R118) -/

theorem rawXor_comm (a b : Bits) : rawXor a b = rawXor b a :=
  List.zipWith_comm_of_comm Bool.xor_comm

theorem rawXor_assoc (a b c : Bits) : rawXor (rawXor a b) c = rawXor a (rawXor b c) := by
  induction a generalizing b c with
  | nil => simp [rawXor]
  | cons x a ih =>
    cases b with
    | nil => simp [rawXor]
    | cons y b =>
      cases c with
      | nil => simp [rawXor]
      | cons z c => exact congrArg₂ List.cons (Bool.xor_assoc x y z) (ih b c)

theorem rawXor_self (a : Bits) : rawXor a a = zeros a.length := by
  induction a with
  | nil => rfl
  | cons x a ih => exact congrArg₂ List.cons (Bool.xor_self x) ih

theorem rawXor_zeros (a : Bits) : rawXor a (zeros a.length) = a := by
  induction a with
  | nil => rfl
  | cons x a ih => exact congrArg₂ List.cons (Bool.xor_false x) ih

/-! ## Permutations (R119) -/

/-- A table goes through an exclusive or: bit by bit, both sides read the same source position. -/
theorem perm_rawXor (t : List Nat) {a b : Bits} (h : a.length = b.length) :
    perm t (rawXor a b) = rawXor (perm t a) (perm t b) := by
  apply bits_ext
  · simp
  · intro i hi
    rw [length_perm] at hi
    rw [getD_rawXor _ _ _ (by simp), getD_perm _ _ _ hi, getD_perm _ _ _ hi, getD_perm _ _ _ hi, getD_rawXor _ _ _ h]

/-- Two tables compose to one, where the second reads inside the first. -/
theorem perm_perm (t u : List Nat) (s : Bits) (h : ∀ j ∈ u, 1 ≤ j ∧ j ≤ t.length) :
    perm u (perm t s) = perm (u.map fun j => t.getD (j - 1) 0) s := by
  have hread : ∀ j ∈ u, (perm t s).getD (j - 1) false = s.getD (t.getD (j - 1) 0 - 1) false := fun j hj =>
    getD_perm t s (j - 1) (by have := h j hj; omega)
  calc perm u (perm t s) = u.map (fun j => s.getD (t.getD (j - 1) 0 - 1) false) := List.map_congr_left hread
    _ = perm (u.map fun j => t.getD (j - 1) 0) s := by rw [perm, List.map_map]; rfl

/-- Settles O50: permutations and exclusive or position by position (`getD_perm`, `getD_rawXor`), and the laws of exclusive or
from those of `Bool.xor`. -/
theorem permutationLaws : Obligations.PermutationLaws := by
  refine ⟨getD_perm, fun t a b h _ => perm_rawXor t h, perm_perm, fun a b h => ?_⟩
  refine ⟨(length_xorBits a b h).trans h.symm, fun i => getD_rawXor a b i h, rawXor_comm a b, rawXor_cancel a b h,
    rawXor_self a, rawXor_zeros a, fun c _ => rawXor_assoc a b c⟩

end Sys2Proof.Machine
end

section
/-! The datapath (42_key_schedule.md R155, 43_round_function.md R172 to R179): the subkeys by the running sum, the lanes of
the substitution, the widths and the inverse of a round. -/

namespace Sys2Proof.Machine

/-! ## The subkeys (R152 to R155) -/

/-- Settles O52: entry `i` of the round recurrence (`getD_roundKeys`) on the halves of the working key. -/
theorem subkeysFromCumulativeRotation : Obligations.SubkeysFromCumulativeRotation := by
  intro cfg k sk i hv hk hi w t
  have hc := cfgFacts_of_valid hv
  by_cases hlen : k.length = cfg.kw
  · rw [genSubKeys_of_length hlen] at hk
    cases hk
    have hw : workingKey cfg k = w := workingKey_eq_ite cfg k
    have heven : 2 * (w.length / 2) = w.length := by
      have hksw := hc.kswEven
      rw [← hw, length_workingKey k hlen]
      omega
    rw [subkeysOf, getD_roundKeys _ _ _ _ (by rw [hc.shiftsLen]; exact hi), hw, split, heven]
    rfl
  · rw [genSubKeys_of_length_ne hlen] at hk
    cases hk

/-! ## The substitution (R172, R173) -/

theorem natOf_pair (a b : Bool) : natOf [a, b] = 2 * a.toNat + b.toNat := by
  simp only [natOf, List.foldl_cons, List.foldl_nil]
  omega

theorem natOf_quad (a b c d : Bool) : natOf [a, b, c, d] = 8 * a.toNat + 4 * b.toNat + 2 * c.toNat + d.toNat := by
  simp only [natOf, List.foldl_cons, List.foldl_nil]
  omega

/-- Bit `m*i + j` of a concatenation of pieces of `m` bits is bit `j` of piece `i`. -/
theorem getD_flatMap_range (f : Nat → Bits) {m n i j : Nat} (hf : ∀ i, (f i).length = m) (hi : i < n) (hj : j < m) :
    ((List.range n).flatMap f).getD (m * i + j) false = (f i).getD j false := by
  rw [← slice_flatMap_range f m n i hf hi, getD_slice _ _ _ _ (by rw [Nat.succ_mul]; omega), Nat.mul_comm]

/-- The cell that lane `i` reads, in terms of the input's bits. -/
theorem sboxLane_slice (cfg : Cfg) (x : Bits) (i : Nat) :
    sboxLane cfg i (slice x (6 * i) (6 * i + 6)) =
      let c := fun n => (x.getD (6 * i + n) false).toNat
      bitsN (sboxCell cfg i (2 * c 0 + c 5) (8 * c 1 + 4 * c 2 + 2 * c 3 + c 4)) 4 := by
  have hbit : ∀ n, n < 6 → (slice x (6 * i) (6 * i + 6)).getD n false = x.getD (6 * i + n) false := fun n hn =>
    getD_slice _ _ _ _ (by omega)
  rw [sboxLane, sboxRow, sboxCol, natOf_pair, natOf_quad]
  simp only [hbit 0 (by omega), hbit 1 (by omega), hbit 2 (by omega), hbit 3 (by omega), hbit 4 (by omega),
    hbit 5 (by omega)]

/-- Settles O53: output bit `4*i + j` is bit `j` of lane `i`, which spells the cell that the six input bits select. -/
theorem substitutionLanes : Obligations.SubstitutionLanes := by
  intro cfg x i j _ hi hj c
  have hc : ∀ n, c n ≤ 1 := fun n => Nat.lt_succ_iff.mp (Bool.toNat_lt _)
  have h0 := hc 0
  have h1 := hc 1
  have h2 := hc 2
  have h3 := hc 3
  have h4 := hc 4
  have h5 := hc 5
  refine ⟨length_sbox x, by omega, by omega, fun hv => sboxCell_lt hv i _ _, ?_⟩
  rw [sbox, getD_flatMap_range _ (fun _ => length_sboxLane _ _) hi hj, sboxLane_slice, getD_bitsN _ _ _ hj]
  rfl

/-! ## Rounds and blocks (R176 to R179) -/

/-- The round's inverse without its proofs of width, as `rawRound` is the round (R177). -/
def rawRoundInv (cfg : Cfg) (y k : Bits) : Bits := rawXor (split y).2 (rawF cfg (split y).1 k) ++ (split y).1

theorem feistelRoundInv_eq {cfg : Cfg} (y k : Bits) (hk : k.length = cfg.e.length)
    (hy : y.length / 2 = cfg.p.length) : feistelRoundInv cfg y k hk hy = rawRoundInv cfg y k := rfl

theorem length_halves {cfg : Cfg} {x : Bits} (hx : x.length = cfg.block) :
    (split x).1.length = cfg.half ∧ (split x).2.length = cfg.half := by
  rw [length_split_fst, length_split_snd, hx]
  exact ⟨rfl, rfl⟩

section Round
variable {cfg : Cfg} (hc : CfgFacts cfg) {x : Bits} (hx : x.length = cfg.block) (k : Bits)
include hc hx

/-- A block is its two halves. -/
theorem halves_join : (split x).1 ++ (split x).2 = x :=
  split_join x (hx ▸ hc.blockEven)

/-- The halves of a round are the step on the halves (R176). -/
theorem split_rawRound : split (rawRound cfg x k) = halvesRound cfg (split x) k := by
  obtain ⟨h1, h2⟩ := length_halves hx
  obtain ⟨hl, hr⟩ := halvesRound_length hc (split x) k h1 h2
  exact split_append _ _ (hl.trans hr.symm)

theorem length_rawRound : (rawRound cfg x k).length = cfg.block := by
  obtain ⟨h1, h2⟩ := length_halves hx
  obtain ⟨hl, hr⟩ := halvesRound_length hc (split x) k h1 h2
  exact List.length_append.trans ((congrArg₂ _ hl hr).trans (half_add_half hc))

theorem length_swapHalves_rawRound : (swapHalves (rawRound cfg x k)).length = cfg.block := by
  have hlen := length_rawRound hc hx k
  rw [length_swapHalves _ (hlen ▸ hc.blockEven), hlen]

/-- `ROUNDINV` undoes `ROUND`: the new left half is the argument of `F` in both, and exclusive or cancels (R177). -/
theorem rawRoundInv_rawRound : rawRoundInv cfg (rawRound cfg x k) k = x := by
  have hcancel := rawXor_cancel (split x).1 (rawF cfg (split x).2 k)
    ((length_halves hx).1.trans (length_rawF hc _ k).symm)
  rw [rawRoundInv, split_rawRound hc hx, halvesRound, hcancel, halves_join hc hx]

/-- The same round undoes itself on exchanged halves (R177). -/
theorem swapHalves_rawRound_swap : swapHalves (rawRound cfg (swapHalves (rawRound cfg x k)) k) = x := by
  obtain ⟨h1, h2⟩ := length_halves hx
  obtain ⟨hl, hr⟩ := halvesRound_length hc (split x) k h1 h2
  have hswapped : swapHalves (rawRound cfg x k) = (halvesRound cfg (split x) k).2 ++ (halvesRound cfg (split x) k).1 := by
    rw [swapHalves, split_rawRound hc hx]
  have hundone : halvesRound cfg ((halvesRound cfg (split x) k).2, (halvesRound cfg (split x) k).1) k = (split x).swap :=
    halvesRound_swap hc (split x) k h1
  rw [hswapped, rawRound_append _ _ _ (hr.trans hl.symm), hundone, Prod.fst_swap, Prod.snd_swap,
    swapHalves_append _ _ (h2.trans h1.symm), halves_join hc hx]

end Round

/-- Settles O54: the widths from the tables' lengths, and both inverses from the step on the halves. -/
theorem roundWidthsAndInverse : Obligations.RoundWidthsAndInverse := by
  intro cfg h x k hv hx hk fits
  have hc := cfgFacts_of_valid hv
  have hexpand : (expand cfg h).length = 48 := (length_perm _ _).trans hc.eLen
  have hkeymix : (rawXor (expand cfg h) k).length = 48 := by rw [length_rawXor, hexpand, hk, Nat.min_self]
  exact ⟨length_rawRound hc hx k, length_swapHalves_rawRound hc hx k, hexpand.trans hk.symm, hexpand, hkeymix,
    length_sbox _, length_rawF hc h k, fun ks hks => (blockProcess_eq hv x hx ks hks).symm ▸ length_rawBlock hv x ks hx,
    rawRoundInv_rawRound hc hx k, swapHalves_rawRound_swap hc hx k⟩

end Sys2Proof.Machine
end

section
/-! Messages (44_block_pipeline.md R198 to R200, 45_cascade.md R237, R238): the pad and its removal, processing there and
back, and the machine's commands on whole messages. -/

namespace Sys2Proof.Machine

/-! ## `Pad` and `Unpad` (R199, R200) -/

/-- Runs of `m` elements in turn are the beginning of the sequence. -/
theorem flatMap_slice (x : Bits) (m n : Nat) :
    (List.range n).flatMap (fun j => slice x (j * m) ((j + 1) * m)) = x.take (n * m) := by
  induction n with
  | zero => simp
  | succ n ih =>
    rw [List.range_succ, List.flatMap_append, ih, List.flatMap_singleton, slice, Nat.succ_mul, List.take_add,
      Nat.add_sub_cancel_left]

/-- The blocks before block `q` of a message that reaches that far are not padded. -/
theorem flatMap_chunk_of_le {cfg : Cfg} {x : Bits} {q : Nat} (h : q * cfg.block ≤ x.length) :
    (List.range q).flatMap (chunk cfg x) = x.take (q * cfg.block) := by
  rw [← flatMap_slice]
  exact flatMap_range_congr _ _ _ fun j hj => chunk_of_le ((Nat.mul_le_mul_right _ hj).trans h)

/-- A whole number of blocks is padded with nothing (R200). -/
theorem pad_of_whole {cfg : Cfg} (hc : CfgFacts cfg) {x : Bits} (h : x.length % cfg.block = 0) : pad cfg x = x := by
  obtain ⟨q, hq⟩ := Nat.dvd_of_mod_eq_zero h
  rw [Nat.mul_comm] at hq
  rw [pad, hq, numBlocks_mul hc, flatMap_chunk_of_le hq.ge, ← hq, List.take_length]

/-- A message of `q + 1` blocks is padded in front of the last one's data. -/
theorem pad_of_succ {cfg : Cfg} (hc : CfgFacts cfg) {x : Bits} {q : Nat} (h : numBlocks cfg x.length = q + 1) :
    pad cfg x =
      x.take (q * cfg.block) ++ zeros ((q + 1) * cfg.block - x.length) ++ x.drop (q * cfg.block) := by
  obtain ⟨hlo, hhi⟩ := (numBlocks_eq_succ_iff hc q _).mp h
  have hdata : chunkData cfg x q = x.drop (q * cfg.block) := by
    rw [chunkData, Nat.min_eq_right hhi, slice, List.take_of_length_le (by simp)]
  have hgap : cfg.block - (x.drop (q * cfg.block)).length = (q + 1) * cfg.block - x.length := by
    rw [List.length_drop, Nat.succ_mul]
    omega
  rw [pad, h, List.range_succ, List.flatMap_append, List.flatMap_singleton, flatMap_chunk_of_le hlo.le,
    chunk_eq_zeros_append, hdata, hgap, List.append_assoc]

theorem slice_zero_append (a b : Bits) : slice (a ++ b) 0 a.length = a := by
  simp [slice]

theorem slice_append_right (a b : Bits) : slice (a ++ b) a.length (a.length + b.length) = b := by
  simp [slice]

theorem unpad_of_succ {cfg : Cfg} (y : Bits) {n q : Nat} (hn : n ≠ 0) (hq : numBlocks cfg n = q + 1) :
    unpad cfg y n =
      slice y 0 (q * cfg.block) ++
        slice y (q * cfg.block + ((q + 1) * cfg.block - n)) ((q + 1) * cfg.block) := by
  rw [unpad, if_neg hn]
  simp only [hq, Nat.add_sub_cancel]

/-- `Unpad` with the original length takes the pad away (R199, R200). -/
theorem unpad_pad {cfg : Cfg} (hc : CfgFacts cfg) (x : Bits) : unpad cfg (pad cfg x) x.length = x := by
  cases hq : numBlocks cfg x.length with
  | zero =>
    have hx : x = [] := by
      have hle := le_numBlocks_mul hc x.length
      rw [hq, Nat.zero_mul] at hle
      exact List.length_eq_zero_iff.mp (Nat.le_zero.mp hle)
    rw [hx]
    rfl
  | succ q =>
    obtain ⟨hlo, hhi⟩ := (numBlocks_eq_succ_iff hc q _).mp hq
    have hfront : (x.take (q * cfg.block)).length = q * cfg.block := List.length_take_of_le hlo.le
    have hskip : (x.take (q * cfg.block) ++ zeros ((q + 1) * cfg.block - x.length)).length =
        q * cfg.block + ((q + 1) * cfg.block - x.length) := by
      rw [List.length_append, hfront, length_zeros]
    have hend : (x.take (q * cfg.block) ++ zeros ((q + 1) * cfg.block - x.length)).length +
        (x.drop (q * cfg.block)).length = (q + 1) * cfg.block := by
      rw [hskip, List.length_drop]
      omega
    have hhead := slice_zero_append (x.take (q * cfg.block))
      (zeros ((q + 1) * cfg.block - x.length) ++ x.drop (q * cfg.block))
    have htail := slice_append_right (x.take (q * cfg.block) ++ zeros ((q + 1) * cfg.block - x.length))
      (x.drop (q * cfg.block))
    rw [hfront, ← List.append_assoc] at hhead
    rw [hend, hskip] at htail
    rw [unpad_of_succ _ (by omega) hq, pad_of_succ hc hq, hhead, htail, List.take_append_drop]

/-! ## There and back (R200, R237) -/

section Processing
variable {cfg : Cfg} (hv : cfgValid cfg = true)
include hv

theorem numBlocks_rawProcess (x : Bits) (sk : List Bits) (fwd : Bool) :
    numBlocks cfg (rawProcess cfg x sk fwd).length = numBlocks cfg x.length := by
  rw [length_rawProcess hv, numBlocks_mul (cfgFacts_of_valid hv)]

/-- What processing leaves is a whole number of blocks (R198). -/
theorem pad_rawProcess (x : Bits) (sk : List Bits) (fwd : Bool) :
    pad cfg (rawProcess cfg x sk fwd) = rawProcess cfg x sk fwd :=
  pad_of_whole (cfgFacts_of_valid hv) (by rw [length_rawProcess hv, Nat.mul_mod_left])

/-- Processing back undoes every block, and leaves the chunks (R200). -/
theorem rawProcess_back (x : Bits) (sk : List Bits) (fwd : Bool) :
    rawProcess cfg (rawProcess cfg x sk fwd) sk (!fwd) = pad cfg x := by
  rw [rawProcess_rawProcess hv, pad]
  refine flatMap_range_congr _ _ _ fun j _ => ?_
  rw [keyOrder_not, rawBlock_reverse hv _ _ (length_chunk x j)]

/-- The reverse cascade takes the three stages back from the last one (R237). -/
theorem rawStages_back (x : Bits) (s1 s2 s3 : List Bits) :
    (rawStages cfg (rawStages cfg x s1 s2 s3 true).2.2 s3 s2 s1 false).2.2 = pad cfg x := by
  have hback := fun y sk => rawProcess_back hv y sk true
  simp only [Bool.not_true] at hback
  simp only [rawStages, hback, pad_rawProcess hv]

end Processing

/-- Settles O57: processing back undoes each block (`rawProcess_back`), and the pad is what `Unpad` takes away. -/
theorem processRoundTrip : Obligations.ProcessRoundTrip := by
  intro cfg k x sk fwd hv hk hs
  have hc := cfgFacts_of_valid hv
  refine ⟨?_, unpad_pad hc x, pad_of_whole hc⟩
  rw [processBits_eq, processBits_eq, rawProcess_back hv]

theorem tripleProcess_back {cfg : Cfg} (hv : cfgValid cfg = true) {k x y : Bits}
    (h : tripleProcess cfg hv (.bits x) k true = .ok y) : tripleProcess cfg hv (.bits y) k false = .ok (pad cfg x) := by
  by_cases hk : k.length = 3 * cfg.kw
  · rw [tripleProcess_eq hv _ _ _ hk, if_pos rfl] at h
    rw [tripleProcess_eq hv _ _ _ hk, if_neg Bool.false_ne_true, ← Except.ok.inj h]
    exact congrArg _ (rawStages_back hv x _ _ _)
  · rw [tripleProcess_of_length_ne hv _ _ hk] at h
    cases h

/-- Settles O59: the stages are undone from the last one back, and the pad is what `Unpad` takes away. -/
theorem cascadeRoundTrip : Obligations.CascadeRoundTrip :=
  fun _ _ x _ hv h => ⟨tripleProcess_back hv h, unpad_pad (cfgFacts_of_valid hv) x⟩

/-! ## The cascade block by block (R238) -/

/-- Chunk `j` of a processed message is chunk `j` processed. -/
theorem chunk_rawProcess {cfg : Cfg} (hv : cfgValid cfg = true) (x : Bits) (sk : List Bits) (fwd : Bool) {j : Nat}
    (hj : j < numBlocks cfg x.length) :
    chunk cfg (rawProcess cfg x sk fwd) j = rawBlock cfg (chunk cfg x j) (keyOrder sk fwd) :=
  chunk_flatMap _ _ j (fun _ => length_rawBlock hv _ _ (length_chunk _ _)) hj

/-- Settles O60: no pass changes the number of blocks, and each pass works on chunk `j` of the pass before. -/
theorem cascadeIsPerBlock : Obligations.CascadeIsPerBlock := by
  intro cfg x s1 s2 s3 fwd hv h1 h2 h3 out
  have hn1 := numBlocks_rawProcess hv x s1 fwd
  have hn2 := numBlocks_rawProcess hv (rawProcess cfg x s1 fwd) s2 fwd
  have hout : out = rawProcess cfg (rawProcess cfg (rawProcess cfg x s1 fwd) s2 fwd) s3 fwd := by
    simp only [out, processBits_eq]
  rw [hout]
  refine ⟨by rw [length_rawProcess hv, hn2, hn1], fun j hj => ?_⟩
  have hj1 := hn1 ▸ hj
  have hj2 := hn2 ▸ hj1
  have hlen1 := length_rawBlock hv _ (keyOrder s1 fwd) (length_chunk x j)
  have hlen2 := length_rawBlock hv _ (keyOrder s2 fwd) hlen1
  refine ⟨_, _, _, hlen1, hlen2, (blockProcess_eq hv _ _ _ _).symm, (blockProcess_eq hv _ _ _ _).symm,
    (blockProcess_eq hv _ _ _ _).symm, ?_⟩
  rw [slice_rawProcess hv _ _ _ hj2, chunk_rawProcess hv _ _ _ hj1, chunk_rawProcess hv _ _ _ hj]

/-! ## The commands on whole messages (R191, R201, R235, R246) -/

/-- Encoded characters are processed as those bits are (R190, R234). -/
theorem tripleProcess_chars {cfg : Cfg} (hv : cfgValid cfg = true) (cs : List Byte) (k : Bits) (fwd : Bool) :
    tripleProcess cfg hv (.chars cs) k fwd = tripleProcess cfg hv (.bits (encodeChars cs)) k fwd := rfl

/-- Settles O31: `ENCODE` does not overflow, and in the state it leaves the long commands are `cryptCommands` and
`cascadeCommands`. -/
theorem encodeThenCryptIsProcess : Obligations.EncodeThenCryptIsProcess := by
  intro s hv hchars
  refine ⟨_, exec_encode_of_le (encode_fits (cfgFacts_of_valid hv) hchars), fun hk => ?single, fun hk => ?triple⟩
  case single =>
    obtain ⟨k0, f0, -, ⟨out, h, -, -, henc, hrun⟩, ⟨out', h', -, -, hdec, hrun'⟩⟩ :=
      (cryptCommands { s with inbits := encodeChars s.charbuf, lit := isLiteral s.charbuf } hv).1 hk
    exact ⟨⟨_, hrun, henc s.charbuf rfl⟩, ⟨_, hrun', hdec s.charbuf rfl⟩⟩
  case triple =>
    obtain ⟨k0, k1, k2, f0, f1, f2, -, -, -, ⟨t1, t2, t3, h, -, -, -, henc, hrun⟩,
      ⟨u1, u2, u3, h', -, -, -, hdec, hrun'⟩⟩ :=
      (cascadeCommands { s with inbits := encodeChars s.charbuf, lit := isLiteral s.charbuf } hv).1 hk
    exact ⟨⟨_, hrun, (tripleProcess_chars hv _ _ _).trans henc⟩, ⟨_, hrun', (tripleProcess_chars hv _ _ _).trans hdec⟩⟩

theorem stageOutputs_back {cfg : Cfg} (hv : cfgValid cfg = true) (x : Bits) (b : Three (List Bits)) :
    (stageOutputs cfg (stageOutputs cfg x b false).2.2 b true).2.2 = pad cfg x :=
  rawStages_back hv x b.b0 b.b1 b.b2

theorem runLong_output {f : LongFields} {s : State} (hv : cfgValid s.cfg = true)
    (hk : s.keybuf.length = needOf s.cfg f) : (runLong f s).outbits = longOutput f s := by
  obtain ⟨hne, -⟩ | ⟨-, h, hrun⟩ := runLong_cases f s hv
  · exact absurd hk hne
  · rw [hrun]
    rfl

/-- The reverse of a command, with the same key on that command's output, gives the padded input, single or triple. -/
theorem longOutput_back {f : LongFields} {s u : State} (hv : cfgValid s.cfg = true) (hko : f.keyOnly = false)
    (hd : f.decrypt = false) (hcfg : u.cfg = s.cfg) (hkey : u.keybuf = s.keybuf) (hin : u.inbits = longOutput f s) :
    longOutput { f with decrypt := true } u = pad s.cfg s.inbits := by
  have hsame : keyBanks s.cfg { f with decrypt := true } s.keybuf = keyBanks s.cfg f s.keybuf := rfl
  have hnot : ¬ f.keyOnly = true := Bool.eq_false_iff.mp hko
  rw [longOutput, hcfg, hkey, hin, longOutput, hd, hsame]
  simp only [if_neg hnot]
  by_cases ht : f.triple = true
  · simp only [if_pos ht, stageOutputs_back hv]
  · simp only [if_neg ht]
    exact rawProcess_back hv _ _ true

/-- A command, `MOVO` and the command's reverse, run one after the other (R200, R237, R246). -/
theorem exec_there_and_back {i j : Instr} {f : LongFields} {s : State} (hi : longFieldsOf i = some f)
    (hj : longFieldsOf j = some { f with decrypt := true }) (hko : f.keyOnly = false) (hd : f.decrypt = false)
    (hv : cfgValid s.cfg = true) (hk : s.keybuf.length = needOf s.cfg f) :
    ∃ t u v, exec i s = .next t ∧ exec .movo t = .next u ∧ exec j u = .next v ∧ v.outbits = pad s.cfg s.inbits ∧
      unpad s.cfg v.outbits s.inbits.length = s.inbits := by
  obtain ⟨hcfg, hkey, -⟩ := runLong_frame f s
  generalize hu : ({ runLong f s with inbits := (runLong f s).outbits } : State) = u
  have hucfg : u.cfg = s.cfg := hu ▸ hcfg
  have hukey : u.keybuf = s.keybuf := hu ▸ hkey
  have huin : u.inbits = longOutput f s := hu ▸ runLong_output hv hk
  have huv : cfgValid u.cfg = true := hucfg ▸ hv
  have huk : u.keybuf.length = needOf u.cfg { f with decrypt := true } := by rw [hukey, hucfg]; exact hk
  have hout : (runLong { f with decrypt := true } u).outbits = pad s.cfg s.inbits :=
    (runLong_output huv huk).trans (longOutput_back hv hko hd hucfg hukey huin)
  refine ⟨_, u, _, exec_long hi s hv, hu ▸ movoCopiesOutput _, exec_long hj u huv, hout, ?_⟩
  rw [hout]
  exact unpad_pad (cfgFacts_of_valid hv) s.inbits

/-- Settles O47: `DEC` is the reverse of `ENC` and `TDEC` that of `TENC`. -/
theorem machineRoundTrip : Obligations.MachineRoundTrip :=
  fun _ hv => ⟨exec_there_and_back (f := fieldsEnc) rfl rfl rfl rfl hv,
    exec_there_and_back (f := fieldsTenc) rfl rfl rfl rfl hv⟩

end Sys2Proof.Machine
end
